-- ==== Sys2Proof/Word.lean ====
section
/-! DEFINITION. The words of the block whose width the spec fixes (bytes, operation words, 16-bit values), and the
numbers whose width is a parameter or whose type is opaque (R9, R11, R63, R65, R104). -/

namespace Sys2Proof

/-- One byte of a packet buffer (R25). -/
abbrev Byte := BitVec 8

/-- An operation word, 32 bits (R63). -/
abbrev OpWord := BitVec 32

/-- A 16-bit value: the low field of an operation word, a PHY register value (R65, R104). -/
abbrev Half := BitVec 16

/-- A waiting task's identity: opaque, so never computed with; an operation word carries 16 bits of it
(R9, R65, D34). DESIGN CHOICE (log entry 20), safe. -/
abbrev TaskId := Nat

/-- A byte address of the shared memory, below `2^ADDR_W` in every legal configuration (R9, R43, R44).
DESIGN CHOICE (log entry 3), safe. -/
abbrev Addr := Nat

end Sys2Proof
end

