-- ==== Sys2Proof/Syntax.lean ====
section
/-! DEFINITION. The 21 operations of the opcode table (R67) and the operands that travel beside the word (R66). -/

namespace Sys2Proof

/-- One constructor per row of the opcode table (R67). The scalar operands are those of the word's
format (R64, R65). `reg` is a plain number, the wider operand R104 speaks of: a decoded word always
gives 0..31, and a larger number is the case `SMI_REG_RANGE` exists for (DESIGN CHOICE, log entry 14, safe). -/
inductive Instr where
  /-- initialise and arm the rings (R75) -/
  | qInit
  /-- is the next TX slot free? (R76) -/
  | txrAvail
  /-- submit the current TX slot (R78) -/
  | txrTransmit (len : Half)
  /-- fill and submit the current TX slot (R88) -/
  | txtConsume (len : Half)
  /-- has a frame landed in the next RX slot? (R77) -/
  | rxrAvail
  /-- retire the current RX slot (R79) -/
  | rxrPop
  /-- read and retire the current RX slot (R89) -/
  | rxtConsume
  /-- poll for a received frame (R94) -/
  | adpReceive (task : TaskId)
  /-- poll for a free TX slot (R95) -/
  | adpTransmit (task : TaskId)
  /-- poll the link (R97) -/
  | adpLink (task : TaskId)
  /-- the capabilities descriptor (R98) -/
  | adpCaps
  /-- the hardware address (R99) -/
  | adpHwaddr
  /-- end of the poll cycle (R100) -/
  | adpEndpoll
  /-- read a PHY register (R104) -/
  | smiRead (reg : Nat)
  /-- write a PHY register (R105) -/
  | smiWrite (reg : Nat) (val : Half)
  /-- run the PHY driver's `reset` (R112) -/
  | phyReset
  /-- run the PHY driver's `init` (R113) -/
  | phyInit
  /-- run the PHY driver's `poll_link` (R114) -/
  | phyPoll
  /-- TXDMA sends a frame (R116) -/
  | dmaTx
  /-- RXDMA lands a frame (R117) -/
  | dmaRx
  /-- IRQ delivers the completion event (R123) -/
  | irqDeliver
deriving DecidableEq, Repr

/-- The agents that take steps (R7). The PHY only answers SMI transactions and takes no step of its own. -/
inductive Agent where
  | sw
  | txdma
  | rxdma
  | irq
deriving DecidableEq, Repr

/-- The two rings (R1, R30). -/
inductive RingId where
  | tx
  | rx
deriving DecidableEq, Repr

/-- A token (R30, R86): the ring, the slot it reserves and its generation number. -/
structure Token where
  ring : RingId
  slot : Nat
  gen : Nat
deriving DecidableEq, Repr

/-- The result `Y` of a caller's function (R87), as plain data. -/
inductive CallerValue where
  | unit
  | num (n : Nat)
  | bytes (b : List Byte)
deriving DecidableEq, Repr, Inhabited

/-- A caller's TX function `F : bytes(len) -> (bytes(len), Y)` (R87), as plain data.
DESIGN CHOICE (log entry 6), safe. -/
inductive TxFun where
  /-- writes `b` at the front of the region, as far as it fits, and returns `y`;
  with `|b| = len` the constant function `F(_) = (b, y)` -/
  | store (b : List Byte) (y : CallerValue)
  /-- leaves the region as it is and returns its length: `F(b) = (b, |b|)` -/
  | keep
  /-- any other function the caller may have: the uninterpreted `Config.callerTx id` -/
  | named (id : Nat)
deriving DecidableEq, Repr

/-- A caller's RX function `G : bytes(n) -> Y` (R87), as plain data.
DESIGN CHOICE (log entry 6), safe. -/
inductive RxFun where
  /-- the constant function -/
  | const (y : CallerValue)
  /-- `G = len`: the length of the frame -/
  | count
  /-- the frame itself -/
  | copy
  /-- any other function the caller may have: the uninterpreted `Config.callerRx id` -/
  | named (id : Nat)
deriving DecidableEq, Repr

/-- The operands that travel beside the word (R66): the token, the caller's function, and the frame
and status a DMA step draws (R13 `draw`); a DMA step takes the low `STATUS_W` bits of `status`. An
operation reads only those it has.
DESIGN CHOICE (log entry 7), safe: a statement holds for every value of these fields. -/
structure Oob where
  tok : Token := ⟨.tx, 0, 0⟩
  txFun : TxFun := .keep
  rxFun : RxFun := .count
  frame : List Byte := [0]
  status : Nat := 0
deriving DecidableEq, Repr

/-- Why the decoder refuses a word (R69). -/
inductive DecodeRefusal where
  /-- the opcode is not in the opcode map -/
  | noSuchOperation
  /-- a reserved bit is not 0 -/
  | reservedBitsSet
deriving DecidableEq, Repr

end Sys2Proof
end

