-- ==== Sys2Proof/WellFormed.lean ====
section
/-! DEFINITION. Which instruction terms an operation word can spell (R65). -/

namespace Sys2Proof

/-- A PHY register number fits its 5-bit field (R65, R104). -/
abbrev regInRange (reg : Nat) : Bool := decide (reg ≤ 31)

/-- A task identity fits the word's 16-bit field (R65, D34). -/
abbrev taskInRange (task : TaskId) : Bool := decide (task < 2 ^ 16)

/-- `i` is an operation some word spells: the bounds not carried by a field's type are those of `reg` and `task`. -/
def Instr.wellFormed : Instr → Bool
  | .adpReceive task => taskInRange task
  | .adpTransmit task => taskInRange task
  | .adpLink task => taskInRange task
  | .smiRead reg => regInRange reg
  | .smiWrite reg _ => regInRange reg
  | .qInit | .txrAvail | .txrTransmit _ | .txtConsume _ | .rxrAvail | .rxrPop | .rxtConsume
  | .adpCaps | .adpHwaddr | .adpEndpoll
  | .phyReset | .phyInit | .phyPoll | .dmaTx | .dmaRx | .irqDeliver => true

end Sys2Proof
end

