-- ==== Sys2Proof/Decode.lean ====
section
/-! DEFINITION. The operation word: opcode map, formats, reserved bits, decoder and encoder (R63 to R69). -/

namespace Sys2Proof

/-- The name of an operation: a row of the opcode map (R67). -/
inductive OpName where
  | qInit | txrAvail | txrTransmit | txtConsume | rxrAvail | rxrPop | rxtConsume
  | adpReceive | adpTransmit | adpLink | adpCaps | adpHwaddr | adpEndpoll
  | smiRead | smiWrite | phyReset | phyInit | phyPoll | dmaTx | dmaRx | irqDeliver
deriving DecidableEq, Repr

/-- The five formats (R64). -/
inductive Format where
  | n | l | t | r | rv
deriving DecidableEq, Repr

/-- One row of the opcode map (R67). -/
structure OpRow where
  opcode : BitVec 8
  name : OpName
  format : Format
  agent : Agent
deriving DecidableEq, Repr

/-- The complete opcode map (R67). -/
def opcodeMap : List OpRow :=
  [ ⟨0x01, .qInit, .n, .sw⟩, ⟨0x10, .txrAvail, .n, .sw⟩, ⟨0x11, .txrTransmit, .l, .sw⟩,
    ⟨0x14, .txtConsume, .l, .sw⟩, ⟨0x18, .rxrAvail, .n, .sw⟩, ⟨0x19, .rxrPop, .n, .sw⟩,
    ⟨0x1C, .rxtConsume, .n, .sw⟩ ] ++
  [ ⟨0x20, .adpReceive, .t, .sw⟩, ⟨0x21, .adpTransmit, .t, .sw⟩, ⟨0x22, .adpLink, .t, .sw⟩,
    ⟨0x23, .adpCaps, .n, .sw⟩, ⟨0x24, .adpHwaddr, .n, .sw⟩, ⟨0x25, .adpEndpoll, .n, .sw⟩ ] ++
  [ ⟨0x30, .smiRead, .r, .sw⟩, ⟨0x31, .smiWrite, .rv, .sw⟩, ⟨0x38, .phyReset, .n, .sw⟩,
    ⟨0x39, .phyInit, .n, .sw⟩, ⟨0x3A, .phyPoll, .n, .sw⟩ ] ++
  [ ⟨0x80, .dmaTx, .n, .txdma⟩, ⟨0x81, .dmaRx, .n, .rxdma⟩, ⟨0x82, .irqDeliver, .n, .irq⟩ ]

/-- The bits of `w[23:0]` that the format does not assign: reserved, must be 0 (R63, R64). -/
def Format.reserved : Format → BitVec 32
  | .n => 0x00FFFFFF
  | .l | .t => 0x00FF0000
  | .r => 0x00E0FFFF
  | .rv => 0x00E00000

/-- `w[31:24]` (R63). -/
def opcodeField (w : OpWord) : BitVec 8 := w.extractLsb' 24 8

/-- `w[15:0]`: `len`, `task` or `val` (R65). -/
def lowField (w : OpWord) : Half := w.extractLsb' 0 16

/-- `w[20:16]`: `reg` (R65). -/
def regField (w : OpWord) : Nat := (w.extractLsb' 16 5).toNat

/-- Operand assembly (R65): the operation of a row, its operands read from the word. -/
def assemble (w : OpWord) : OpName → Instr
  | .qInit => .qInit
  | .txrAvail => .txrAvail
  | .txrTransmit => .txrTransmit (lowField w)
  | .txtConsume => .txtConsume (lowField w)
  | .rxrAvail => .rxrAvail
  | .rxrPop => .rxrPop
  | .rxtConsume => .rxtConsume
  | .adpReceive => .adpReceive (lowField w).toNat
  | .adpTransmit => .adpTransmit (lowField w).toNat
  | .adpLink => .adpLink (lowField w).toNat
  | .adpCaps => .adpCaps
  | .adpHwaddr => .adpHwaddr
  | .adpEndpoll => .adpEndpoll
  | .smiRead => .smiRead (regField w)
  | .smiWrite => .smiWrite (regField w) (lowField w)
  | .phyReset => .phyReset
  | .phyInit => .phyInit
  | .phyPoll => .phyPoll
  | .dmaTx => .dmaTx
  | .dmaRx => .dmaRx
  | .irqDeliver => .irqDeliver

/-- The row of an opcode, if the map has one. -/
def rowOf (op : BitVec 8) : Option OpRow := opcodeMap.find? (fun r => r.opcode == op)

/-- The decoder (R63, R69): total, and refusing by name. -/
def decode (w : OpWord) : Except DecodeRefusal Instr :=
  match rowOf (opcodeField w) with
  | none => .error .noSuchOperation
  | some r => if w &&& r.format.reserved = 0 then .ok (assemble w r.name) else .error .reservedBitsSet

/-- The row's name of an operation. -/
def Instr.opName : Instr → OpName
  | .qInit => .qInit
  | .txrAvail => .txrAvail
  | .txrTransmit _ => .txrTransmit
  | .txtConsume _ => .txtConsume
  | .rxrAvail => .rxrAvail
  | .rxrPop => .rxrPop
  | .rxtConsume => .rxtConsume
  | .adpReceive _ => .adpReceive
  | .adpTransmit _ => .adpTransmit
  | .adpLink _ => .adpLink
  | .adpCaps => .adpCaps
  | .adpHwaddr => .adpHwaddr
  | .adpEndpoll => .adpEndpoll
  | .smiRead _ => .smiRead
  | .smiWrite _ _ => .smiWrite
  | .phyReset => .phyReset
  | .phyInit => .phyInit
  | .phyPoll => .phyPoll
  | .dmaTx => .dmaTx
  | .dmaRx => .dmaRx
  | .irqDeliver => .irqDeliver

/-- The agent whose step an operation is (R67). -/
def Instr.agent : Instr → Agent
  | .dmaTx => .txdma
  | .dmaRx => .rxdma
  | .irqDeliver => .irq
  | .qInit | .txrAvail | .txrTransmit _ | .txtConsume _ | .rxrAvail | .rxrPop | .rxtConsume
  | .adpReceive _ | .adpTransmit _ | .adpLink _ | .adpCaps | .adpHwaddr | .adpEndpoll
  | .smiRead _ | .smiWrite _ _ | .phyReset | .phyInit | .phyPoll => .sw

/-- `{opcode, 000, reg, low}` (R64, R11). -/
def layWord (opcode : BitVec 8) (reg : Nat) (low : Half) : OpWord :=
  opcode ++ (0#3 ++ (BitVec.ofNat 5 reg ++ low) : BitVec 24)

/-- The encoder (R64, R67): the word of a well-formed operation. -/
def encode : Instr → OpWord
  | .qInit => layWord 0x01 0 0
  | .txrAvail => layWord 0x10 0 0
  | .txrTransmit len => layWord 0x11 0 len
  | .txtConsume len => layWord 0x14 0 len
  | .rxrAvail => layWord 0x18 0 0
  | .rxrPop => layWord 0x19 0 0
  | .rxtConsume => layWord 0x1C 0 0
  | .adpReceive task => layWord 0x20 0 (BitVec.ofNat 16 task)
  | .adpTransmit task => layWord 0x21 0 (BitVec.ofNat 16 task)
  | .adpLink task => layWord 0x22 0 (BitVec.ofNat 16 task)
  | .adpCaps => layWord 0x23 0 0
  | .adpHwaddr => layWord 0x24 0 0
  | .adpEndpoll => layWord 0x25 0 0
  | .smiRead reg => layWord 0x30 reg 0
  | .smiWrite reg val => layWord 0x31 reg val
  | .phyReset => layWord 0x38 0 0
  | .phyInit => layWord 0x39 0 0
  | .phyPoll => layWord 0x3A 0 0
  | .dmaTx => layWord 0x80 0 0
  | .dmaRx => layWord 0x81 0 0
  | .irqDeliver => layWord 0x82 0 0

/-- What the decoder reads from an operation whose `nbits` bits are `w`. An operation is one 32-bit
word (R63), so bits above 31 are no part of it and a number that has any is refused. -/
def decodeTableWord (nbits w : Nat) : Option Instr :=
  if w % 2 ^ nbits < 2 ^ 32 then (decode (BitVec.ofNat 32 (w % 2 ^ nbits))).toOption else none

end Sys2Proof
end

