-- ==== Sys2Proof/Config.lean ====
section
/-! DEFINITION. The parameters of R9 as plain data, their legality (R10, R44), the PHY and PHY-driver
parameters (R108, R110, R111) and the uninterpreted functions that stand for what an integrator,
a caller or a chip supplies. -/

namespace Sys2Proof

/-! ### The PHY driver parameter (R110) -/

/-- A 16-bit value a PHY routine computes from the values it holds (R110). -/
inductive RExpr where
  | lit (v : Half)
  | var (k : Nat)
  | not (a : RExpr)
  | and (a b : RExpr)
  | or (a b : RExpr)
  | xor (a b : RExpr)
  | add (a b : RExpr)
  | sub (a b : RExpr)
  | shl (a : RExpr) (n : Nat)
  | shr (a : RExpr) (n : Nat)
  /-- any other computation on the held values: the uninterpreted `Config.chipCompute id` -/
  | chip (id : Nat)
deriving DecidableEq, Repr

/-- A condition a PHY routine branches on (R110). -/
inductive RCond where
  | always
  /-- bit `i` of the value is 1 -/
  | bit (a : RExpr) (i : Nat)
  | eq (a b : RExpr)
  | ult (a b : RExpr)
  | not (c : RCond)
  | and (c d : RCond)
  | or (c d : RCond)
  /-- any other test of the held values: the uninterpreted `Config.chipTest id` -/
  | chip (id : Nat)
deriving DecidableEq, Repr

/-- Where a routine goes after one SMI operation. -/
inductive RNext where
  | goto (node : Nat)
  | ret
  | ite (c : RCond) (a b : RNext)
deriving DecidableEq, Repr

/-- One SMI operation of a routine. The register operand is a 16-bit value, wider than the 5-bit
field of a word, so that `SMI_REG_RANGE` can arise through a routine (R125 code 4). -/
inductive RAct where
  /-- `smi.read reg`, the value kept in variable `into` -/
  | read (reg : RExpr) (into : Nat)
  /-- `smi.write reg, val` -/
  | write (reg val : RExpr)
deriving DecidableEq, Repr

/-- One node of a routine: an SMI operation, assignments to the held values, and the branch. -/
structure RNode where
  act : RAct
  sets : List (Nat × RExpr) := []
  next : RNext
deriving DecidableEq, Repr

/-- `reset` or `init`: a finite program over SMI operations that may hold values, compute, branch and
loop (R110; law 3 of R111 holds by this form). It starts at node 0 with every variable 0; a node
number past the end is the routine's return (DESIGN CHOICE, log entries 5 and 21, safe). -/
structure Routine where
  vars : Nat
  nodes : List RNode
deriving DecidableEq, Repr

/-- `poll_link`. Law 1 of R111 holds by this form: a fixed finite list of registers to read and no
write; value `k` read is variable `k` of the two tests. Law 2 holds by `pollLink`: the answer is
`linkUp` and `ready`, so `false` whenever the values show the link down. -/
structure PollRoutine where
  reads : List Nat
  linkUp : RCond
  ready : RCond
deriving DecidableEq, Repr

/-- The parameter `PhyDriver = {reset, init, poll_link}` (R110). -/
structure Driver where
  reset : Routine
  init : Routine
  poll : PollRoutine
deriving DecidableEq, Repr

/-- The reference driver of R115, for tests and information only. -/
def Driver.reference : Driver where
  reset :=
    { vars := 1
      nodes :=
        [ { act := .write (.lit 0) (.lit 0x8000), next := .goto 1 },
          { act := .read (.lit 0) 0, next := .ite (.bit (.var 0) 15) (.goto 1) .ret } ] }
  init := { vars := 0, nodes := [ { act := .write (.lit 0) (.lit 0x3200), next := .ret } ] }
  poll :=
    { reads := [1, 31]
      linkUp := .bit (.var 0) 2
      ready :=
        .and (.bit (.var 0) 5)
          (.and (.bit (.var 1) 12) (.eq (.and (.var 1) (.lit 0x001C)) (.lit 0x0018))) }

/-! ### The PHY parameter (R108) -/

/-- `PhyState`: the 32 registers of 16 bits (R38), and a number that codes whatever else a chip holds
(DESIGN CHOICE, log entry 4, safe). -/
structure PhyState where
  regs : Vector Half 32
  hidden : Nat := 0
deriving DecidableEq, Repr, Inhabited

/-- The parameter `PhyModel` (R108): which PHY answers SMI transactions. -/
inductive PhyModel where
  /-- the simulated PHY of plain registers (R109) -/
  | simulated
  /-- the variant SC of test vector VS6: register 0 stores its value with bit 15 cleared -/
  | selfClearing
  /-- any real PHY: the uninterpreted `Config.chipRead id` and `Config.chipWrite id` -/
  | chip (id : Nat)
deriving DecidableEq, Repr

/-! ### The parameters of R9 -/

/-- `roundup(size, align)` (R9, conflict C2). -/
def roundUp (size align : Nat) : Nat := (size + align - 1) / align * align

/-- The parameters of R9, with R9's defaults. `N_TX` and `N_RX` are the lengths of the two address lists. -/
structure Params where
  /-- `TX_BUF_SIZE` -/
  txBufSize : Nat := 1514
  /-- `RX_BUF_SIZE` -/
  rxBufSize : Nat := 1536
  /-- `BUF_ALIGN` -/
  bufAlign : Nat := 8
  /-- `BUF_STRIDE_TX` -/
  bufStrideTx : Nat := roundUp txBufSize bufAlign
  /-- `BUF_STRIDE_RX` -/
  bufStrideRx : Nat := roundUp rxBufSize bufAlign
  /-- `ADDR_W` -/
  addrW : Nat := 32
  /-- `buf_addr_tx(0), buf_addr_tx(1), ...` -/
  txAddr : List Addr
  /-- `buf_addr_rx(0), buf_addr_rx(1), ...` -/
  rxAddr : List Addr
  /-- `LEN_W` -/
  lenW : Nat := 16
  /-- `STATUS_W` -/
  statusW : Nat := 32
  /-- `DESC_ALIGN`, OPEN, without effect (R48) -/
  descAlign : Nat := 1
  /-- `MTU` -/
  mtu : Nat := txBufSize
  /-- `MAX_BURST` -/
  maxBurst : Nat := min txAddr.length rxAddr.length
  /-- `MAC_ADDR` -/
  macAddr : BitVec 48
  /-- `PHY_ADDR`, OPEN -/
  phyAddr : BitVec 5
  /-- `PhyModel`'s functions, OPEN -/
  phyModel : PhyModel
  /-- `PhyModel`'s `phy_reset_regs`, OPEN -/
  phyResetRegs : PhyState
  /-- `PhyDriver`, OPEN -/
  driver : Driver
  /-- `WAKE_CLEARS`, OPEN -/
  wakeClears : Bool
deriving DecidableEq, Repr

/-- `N_TX` -/
abbrev Params.nTx (p : Params) : Nat := p.txAddr.length

/-- `N_RX` -/
abbrev Params.nRx (p : Params) : Nat := p.rxAddr.length

/-- The byte ranges of all buffers, as start and size (R44). -/
def Params.ranges (p : Params) : List (Nat × Nat) :=
  p.txAddr.map (fun a => (a, p.txBufSize)) ++ p.rxAddr.map (fun a => (a, p.rxBufSize))

/-- Two byte ranges share no byte. -/
abbrev RangesDisjoint (r q : Nat × Nat) : Prop := r.1 + r.2 ≤ q.1 ∨ q.1 + q.2 ≤ r.1

/-- The legal configurations (R10, R44). -/
structure Params.Legal (p : Params) : Prop where
  nTx_pos : 1 ≤ p.nTx
  nRx_pos : 1 ≤ p.nRx
  txBufSize_pos : 1 ≤ p.txBufSize
  rxBufSize_pos : 1 ≤ p.rxBufSize
  txBufSize_lt : p.txBufSize < 2 ^ p.lenW
  rxBufSize_lt : p.rxBufSize < 2 ^ p.lenW
  aligned : ∀ r ∈ p.ranges, r.1 % p.bufAlign = 0
  inSpace : ∀ r ∈ p.ranges, r.1 + r.2 ≤ 2 ^ p.addrW
  disjoint : p.ranges.Pairwise RangesDisjoint

/-- The test of legality, run at construction. -/
def Params.legal (p : Params) : Bool :=
  decide (1 ≤ p.nTx ∧ 1 ≤ p.nRx ∧ 1 ≤ p.txBufSize ∧ 1 ≤ p.rxBufSize ∧
    p.txBufSize < 2 ^ p.lenW ∧ p.rxBufSize < 2 ^ p.lenW ∧
    (∀ r ∈ p.ranges, r.1 % p.bufAlign = 0) ∧ (∀ r ∈ p.ranges, r.1 + r.2 ≤ 2 ^ p.addrW) ∧
    p.ranges.Pairwise RangesDisjoint)

theorem Params.legal_iff (p : Params) : p.legal = true ↔ p.Legal := by
  unfold Params.legal
  rw [decide_eq_true_iff]
  exact ⟨fun ⟨a, b, c, d, e, f, g, h, i⟩ => ⟨a, b, c, d, e, f, g, h, i⟩,
    fun ⟨a, b, c, d, e, f, g, h, i⟩ => ⟨a, b, c, d, e, f, g, h, i⟩⟩

/-- A legal configuration. The model has no state for any other (R10). -/
structure Config extends Params where
  isLegal : toParams.legal = true
deriving DecidableEq, Repr

/-- `n` buffers from `base` on, each `stride` bytes after the last. Nothing wraps: a placement past the
top of the address space is no legal configuration (R44). -/
def contiguous (base : Addr) (stride n : Nat) : List Addr := (List.range n).map fun i => base + i * stride

/-- The default placement of R44: two arrays of `nTx` and `nRx` buffers at the bases `TXBASE` and
`RXBASE`, with R9's default `MAX_BURST` for these depths. -/
def Params.place (p : Params) (txBase rxBase : Addr) (nTx nRx : Nat) : Params :=
  { p with
    txAddr := contiguous txBase p.bufStrideTx nTx
    rxAddr := contiguous rxBase p.bufStrideRx nRx
    maxBurst := min nTx nRx }

/-- R9's defaults, the test vectors' hardware address, and the model's choices for the OPEN parameters,
with no buffer placed. DESIGN CHOICE (log entries 2, 4 and 5), unsafe: a real block has its own. -/
def Params.unplaced : Params where
  txAddr := []
  rxAddr := []
  macAddr := 0x020000000001
  phyAddr := 0
  phyModel := .simulated
  phyResetRegs := { regs := Vector.replicate 32 0 }
  driver := .reference
  wakeClears := false

/-- The parameter values of the default configuration: the test vectors' bases and depths.
DESIGN CHOICE (log entry 2), unsafe: a real block has its own. -/
def Params.default : Params := Params.unplaced.place 0x20000000 0x20010000 2 2

/-- The configuration `State.reset` is built from. -/
def Config.default : Config := { Params.default with isLegal := by decide }

/-! ### Uninterpreted parameters: nothing in Lean can prove a value of them -/

/-- A caller's TX function that the plain-data forms do not spell (R87). -/
opaque Config.callerTx (id n : Nat) : Vector Byte n → Vector Byte n × CallerValue

/-- A caller's RX function that the plain-data forms do not spell (R87). -/
opaque Config.callerRx (id : Nat) : List Byte → CallerValue

/-- `phy_read` of a real PHY (R108): total, otherwise unconstrained. -/
opaque Config.chipRead (id : Nat) : PhyState → BitVec 5 → BitVec 5 → Half × PhyState

/-- `phy_write` of a real PHY (R108): total, otherwise unconstrained. -/
opaque Config.chipWrite (id : Nat) : PhyState → BitVec 5 → BitVec 5 → Half → PhyState

/-- A value a chip's routine computes from the values it holds (R110). -/
opaque Config.chipCompute (id : Nat) : List Half → Half

/-- A test a chip's routine makes of the values it holds (R110). -/
opaque Config.chipTest (id : Nat) : List Half → Bool

end Sys2Proof
end

