-- ==== Sys2Proof/Machine/State.lean ====
section
/-! DEFINITION. The machine's state as plain data, the reasons a step can stop, and reset (R17 to R42, R142). -/

namespace Sys2Proof.Machine

/-! ### Descriptors, rings and memory -/

/-- The ownership flag's two values (R14, R20). -/
inductive Owner where
  | sw
  | hw
deriving DecidableEq, Repr

/-- A descriptor (R19). Its fields are numbers, below `2^ADDR_W`, `2^LEN_W` and `2^STATUS_W` in every
state that meets the invariant (DESIGN CHOICE, log entry 3, safe). -/
structure Desc where
  addr : Addr
  len : Nat
  own : Owner
  status : Nat
deriving DecidableEq, Repr

/-- A ring's live-token register's content: `some(slot, gen)` (R30). -/
structure Live where
  slot : Nat
  gen : Nat
deriving DecidableEq, Repr

/-- One descriptor ring: descriptors (R19), software cursor (R26), hardware cursor (R27), live token (R30). -/
structure Ring where
  desc : List Desc
  next : Nat
  hw : Nat
  live : Option Live
deriving DecidableEq, Repr

/-- The shared memory's listed bytes (R43): addresses strictly rising, no byte listed that equals `unlisted`. -/
abbrev Memory := List Host.Cell

/-! ### Events, faults and results -/

/-- The events of the observation history (R40). -/
inductive Event where
  | sent (bytes : List Byte)
  | landed (slot : Nat) (bytes : List Byte)
  | delivered (slot : Nat) (bytes : List Byte)
  | woken (t : TaskId)
  | smiRd (reg : Nat) (v : Half)
  | smiWr (reg : Nat) (v : Half)
deriving DecidableEq, Repr

/-- The operations a recorded fault can name (R125, column "info recorded"). -/
inductive FaultOp where
  | txrTransmit
  | txtConsume
  | rxrAvail
  | rxrPop
  | rxtConsume
  | adpReceive
deriving DecidableEq, Repr

/-- What `raise Fault(code, info)` records (R125): the fault's name with its info; `Violation.code` gives the code. -/
inductive Violation where
  /-- code 1 -/
  | noLiveToken (op : FaultOp) (tok : Token)
  /-- code 2 -/
  | slotNotSw (ring : RingId) (slot : Nat)
  /-- code 3 -/
  | txLenRange (len : Nat)
  /-- code 4 -/
  | smiRegRange (reg : Nat)
  /-- code 5 -/
  | initTwice
  /-- code 6 -/
  | initBusy (ring : RingId) (slot : Nat)
  /-- code 7 -/
  | notInitialised (op : FaultOp)
deriving DecidableEq, Repr

/-- The view RXR_AVAIL hands out (R77, "the returned view"): which bytes of a buffer it is, not a copy of
them. DESIGN CHOICE (log entry 22), safe. -/
structure View where
  /-- the address of its first byte -/
  addr : Addr
  /-- how many bytes it has -/
  len : Nat
deriving DecidableEq, Repr

/-- What the last operation of `SW` handed back (R13 `return`). DESIGN CHOICE (log entry 8), safe. -/
inductive Ret where
  /-- no operation has returned since reset -/
  | nothing
  /-- the operation returned without a value -/
  | unit
  /-- TXR_AVAIL (R76) -/
  | txSlot (r : Option Nat)
  /-- RXR_AVAIL: the slot and the view of its received bytes (R77) -/
  | rxFrame (r : Option (Nat × View))
  /-- ADP_RECEIVE: the RX token and the TX token (R94) -/
  | tokens (r : Option (Token × Token))
  /-- ADP_TRANSMIT (R95) -/
  | token (r : Option Token)
  /-- ADP_LINK: `Up` is `true`, `Down` is `false` (R97) -/
  | link (up : Bool)
  /-- PHY_POLL (R114), and whether `transmit(L, F)` got its token (R74) -/
  | flag (b : Bool)
  /-- ADP_CAPS: `max_transmission_unit` and `max_burst_size` (R98) -/
  | caps (mtu burst : Nat)
  /-- ADP_HWADDR (R99) -/
  | hwaddr (a : BitVec 48)
  /-- SMI_READ (R104) -/
  | smi (v : Half)
  /-- TXT_CONSUME and RXT_CONSUME: what the caller's function returned (R88, R89) -/
  | caller (y : CallerValue)
deriving DecidableEq, Repr

/-! ### PHY routines in progress and the order of steps -/

/-- The two routines that run as a sequence of steps (R112, R113). -/
inductive RoutineId where
  | reset
  | init
deriving DecidableEq, Repr

/-- PHY_RESET or PHY_INIT in progress (R112, D38): the node it performs next and the values it holds. -/
structure Running where
  id : RoutineId
  node : Nat
  held : List Half
deriving DecidableEq, Repr

/-- One entry of the schedule: whose step comes next (R8, R18, R67). -/
inductive Turn where
  /-- an operation word is issued, with its out-of-band operands (R66) -/
  | issue (w : OpWord) (oob : Oob)
  /-- `SW` performs the next SMI operation of the PHY routine in progress (R112) -/
  | routine
deriving DecidableEq, Repr

/-! ### The state -/

/-- The machine. `cfg` is its fixed configuration, `tx` to `hist` are the spec's state (R41, R42), and
`routine` to `ret` carry what the spec gives an operation beside the word: a PHY routine in progress
(R112), the out-of-band operands (R66), the order of steps (R18) and the returned result (R13). -/
structure State where
  /-- the parameters (R9), never written -/
  cfg : Config
  /-- the TX ring -/
  tx : Ring
  /-- the RX ring -/
  rx : Ring
  /-- the buffers' bytes (R25, R43) -/
  mem : Memory
  /-- `tok_gen` (R31) -/
  tokGen : Nat
  /-- `waker` (R33) -/
  waker : Option TaskId
  /-- `irq_pending` (R34) -/
  irqPending : Bool
  /-- `initialised` (R35) -/
  initialised : Bool
  /-- `fault` (R36) -/
  fault : Option Violation
  /-- `phy` (R38) -/
  phy : PhyState
  /-- `hist` (R40) -/
  hist : List Event
  /-- the PHY routine in progress (R112) -/
  routine : Option Running
  /-- the out-of-band operands of the current operation (R66) -/
  oob : Oob
  /-- the steps to come (R18) -/
  sched : List Turn
  /-- the last result handed to `SW` (R13) -/
  ret : Ret
deriving DecidableEq, Repr

/-! ### Why a step stops -/

/-- Why there is no next state. None of these is a fault of the block: those are recorded in `State.fault`
(DESIGN CHOICE, log entries 10 and 15). -/
inductive Fault where
  /-- raised by every operation and every turn once a fault is recorded: no agent has an enabled step (R127). Safe. -/
  | quiescent
  /-- raised by every operation of `SW` while PHY_RESET or PHY_INIT is in progress: `SW` issues no other
  operation in between (R112). Safe. -/
  | softwareBusy
  /-- raised by DMA_TX when the descriptor at `tx_hw` is software-owned: the step is not enabled (R116). Safe. -/
  | txNotEnabled
  /-- raised by DMA_RX when the descriptor at `rx_hw` is software-owned: the step is not enabled (R117). Safe. -/
  | rxNotEnabled
  /-- raised by DMA_RX when the frame is empty or longer than `RX_BUF_SIZE`: the wire has no move that
  offers it (R118). Safe. -/
  | frameNotOffered
  /-- raised by IRQ_DELIVER when `irq_pending` is 0: the step is not enabled (R123). Safe. -/
  | irqNotEnabled
  /-- raised by a turn when nothing is scheduled and no routine is in progress: no agent has been given a step. Safe. -/
  | noTurn
  /-- raised by a routine's turn when no routine is in progress (R112). Safe. -/
  | noRoutine
  /-- raised by an access to a descriptor outside `0..N-1`, which does not exist (R12); no run from reset reaches it. Safe. -/
  | noSuchSlot
  /-- raised by an access to bytes outside a slot's buffer, which the block never reaches (R43); no run from
  reset reaches it. Safe. -/
  | outsideBuffer
deriving DecidableEq, Repr

/-- Inputs that have no meaning and are refused at the boundary (R130). -/
inductive Refusal where
  /-- raised by exec's arm of an operation without a meaning: there is none. Safe. -/
  | notModelled (mnemonic : String)
  /-- raised by a turn whose word spells no operation (R69). Safe. -/
  | decode (why : DecodeRefusal)
  /-- raised by construction from parameters outside R10. Safe. -/
  | badConfiguration
deriving DecidableEq, Repr

/-! ### Reset -/

/-- A ring after construction: zero-initialised descriptors bound to their buffers, cursors 0, no live token (R42). -/
def Ring.reset (addrs : List Addr) : Ring where
  desc := addrs.map fun a => { addr := a, len := 0, own := .sw, status := 0 }
  next := 0
  hw := 0
  live := none

/-- Packet Queue construction (R42, R142): every buffer byte 0, every other element as the table of R42 says.
`routine`, `oob`, `sched` and `ret` are the model's own (DESIGN CHOICE, log entries 1, 7 and 8). -/
def State.resetOf (c : Config) : State where
  cfg := c
  tx := Ring.reset c.txAddr
  rx := Ring.reset c.rxAddr
  mem := []
  tokGen := 0
  waker := none
  irqPending := false
  initialised := false
  fault := none
  phy := c.phyResetRegs
  hist := []
  routine := none
  oob := {}
  sched := []
  ret := .nothing

/-- The machine right after reset, in the default configuration. -/
def State.reset : State := State.resetOf Config.default

end Sys2Proof.Machine
end

