-- ==== Sys2Proof/Machine/Flags.lean ====
section
/-! DEFINITION. The ownership flag and the fault codes (R14, R20, R54, R55, R125). -/

namespace Sys2Proof.Machine

/-- The stored bit: `SW = 0`, `HW = 1` (R14, R20). -/
def Owner.bit : Owner → BitVec 1
  | .sw => 0
  | .hw => 1

/-- `LoadAcquire(d.own)` (R54). In this sequentially consistent model (R56) it is the flag's value
(DESIGN CHOICE, log entry 17). -/
def Desc.loadAcquire (d : Desc) : Owner := d.own

/-- `StoreRelease(d.own, v)` (R55): the descriptor with its flag set. -/
def Desc.storeRelease (d : Desc) (v : Owner) : Desc := { d with own := v }

/-- The fault's code (R125). -/
def Violation.code : Violation → Nat
  | .noLiveToken _ _ => 1
  | .slotNotSw _ _ => 2
  | .txLenRange _ => 3
  | .smiRegRange _ => 4
  | .initTwice => 5
  | .initBusy _ _ => 6
  | .notInitialised _ => 7

/-- Whether some descriptor of the ring is hardware-owned, and the least such slot (R75). -/
def Ring.firstHw (r : Ring) : Option Nat := r.desc.findIdx? (fun d => d.own == .hw)

end Sys2Proof.Machine
end

