-- ==== Sys2Proof/Machine/Memory.lean ====
section
/-! DEFINITION. Byte memory in canonical form, and its byte-sequence accesses (R13, R43, R45). -/

namespace Sys2Proof.Machine

/-- What a byte that nothing has written reads as: buffers are zero-initialised (R42).
DESIGN CHOICE for bytes outside the buffers (log entry 18), safe: no operation reaches one. -/
def Memory.unlisted : Byte := 0

/-- The canonical form: addresses strictly rising, no byte listed that equals `unlisted`. -/
abbrev Memory.wf (m : Memory) : Prop :=
  m.Pairwise (fun c d => c.1 < d.1) ∧ ∀ c ∈ m, c.2 ≠ Memory.unlisted

/-- The byte at an address. -/
def Memory.read : Memory → Nat → Byte
  | [], _ => Memory.unlisted
  | c :: m, a => if c.1 = a then c.2 else Memory.read m a

/-- The memory with byte `b` at address `a`, in canonical form. -/
def Memory.write : Memory → Nat → Byte → Memory
  | [], a, b => if b = Memory.unlisted then [] else [(a, b)]
  | c :: m, a, b =>
    if a < c.1 then (if b = Memory.unlisted then c :: m else (a, b) :: c :: m)
    else if a = c.1 then (if b = Memory.unlisted then m else (a, b) :: m)
    else c :: Memory.write m a b

/-- `MemRead(addr, n)`: `n` bytes in ascending address order (R13). -/
def Memory.readBytes (m : Memory) (a n : Nat) : List Byte :=
  (List.range n).map fun k => m.read (a + k)

/-- The bytes a view shows in a memory (R77). -/
def viewBytes (m : Memory) (v : View) : List Byte := m.readBytes v.addr v.len

/-- `MemWrite(addr, |s|, s)`: the bytes of `s` in ascending address order (R13). -/
def Memory.writeBytes : Memory → Nat → List Byte → Memory
  | m, _, [] => m
  | m, a, b :: bs => Memory.writeBytes (m.write a b) (a + 1) bs

end Sys2Proof.Machine
end

