-- ==== Sys2Proof/Machine/Ops.lean ====
section
/-! DEFINITION. The shared operations over state: field updates, raising a fault, the enabling conditions
common to every operation, descriptor and buffer access, and the hand-offs between owners. -/

namespace Sys2Proof.Machine

/-- The outcome of a step of this machine. -/
abbrev Out := Host.Outcome State Fault Refusal

/-! ### Field updates (R13 `x <- v`, `emit`, `return`) -/

def State.setTx (s : State) (v : Ring) : State := { s with tx := v }
def State.setRx (s : State) (v : Ring) : State := { s with rx := v }
def State.setMem (s : State) (v : Memory) : State := { s with mem := v }
def State.setTokGen (s : State) (v : Nat) : State := { s with tokGen := v }
def State.setWaker (s : State) (v : Option TaskId) : State := { s with waker := v }
def State.setIrqPending (s : State) (v : Bool) : State := { s with irqPending := v }
def State.setInitialised (s : State) (v : Bool) : State := { s with initialised := v }
def State.setFault (s : State) (v : Option Violation) : State := { s with fault := v }
def State.setPhy (s : State) (v : PhyState) : State := { s with phy := v }
def State.setRoutine (s : State) (v : Option Running) : State := { s with routine := v }
def State.setOob (s : State) (v : Oob) : State := { s with oob := v }
def State.setSched (s : State) (v : List Turn) : State := { s with sched := v }

/-- `return v` (R13). -/
def State.setRet (s : State) (v : Ret) : State := { s with ret := v }

/-- `emit` of the events `es`, in order (R13, R40). -/
def State.emit (s : State) (es : List Event) : State := { s with hist := s.hist ++ es }

/-! ### Faults and enabling -/

/-- `raise Fault(code, info)`: the fault is recorded and nothing else is written (R126). -/
def raise (s : State) (v : Violation) : Out := .next (s.setFault (some v))

/-- A step of `SW`: none while a fault is recorded (R127), none while a PHY routine is in progress (R112). -/
def swStep (s : State) (k : Out) : Out :=
  if s.fault.isSome then .fault .quiescent
  else if s.routine.isSome then .fault .softwareBusy
  else k

/-- A step of TXDMA, RXDMA or IRQ: none while a fault is recorded (R127). -/
def agentStep (s : State) (k : Out) : Out :=
  if s.fault.isSome then .fault .quiescent else k

/-! ### Descriptors, cursors and buffers -/

/-- `next_N(i) = (i + 1) mod N` (R13). -/
def nextIdx (n i : Nat) : Nat := (i + 1) % n

/-- Use descriptor `i` of a ring (R12). DESIGN CHOICE (log entry 15), safe. -/
def withDesc (r : Ring) (i : Nat) (k : Desc → Out) : Out :=
  match r.desc[i]? with
  | some d => k d
  | none => .fault .noSuchSlot

/-- The buffer's address and size: `buf_addr_tx(i)`, `TX_BUF_SIZE`, and the RX names (R9, R44). -/
def bufAddr (c : Config) (ring : RingId) (i : Nat) : Option Nat :=
  match ring with
  | .tx => c.txAddr[i]?
  | .rx => c.rxAddr[i]?

/-- `TX_BUF_SIZE` or `RX_BUF_SIZE` (R9). -/
def bufSize (c : Config) : RingId → Nat
  | .tx => c.txBufSize
  | .rx => c.rxBufSize

/-- The address of slot `i`'s first `n` bytes, if the slot's buffer has them (R43). -/
def bufRange (c : Config) (ring : RingId) (i n : Nat) : Option Nat :=
  if n ≤ bufSize c ring then bufAddr c ring i else none

/-- Use the address of slot `i`'s first `n` bytes (R43). DESIGN CHOICE (log entries 15 and 16), safe. -/
def withBuf (c : Config) (ring : RingId) (i n : Nat) (k : Nat → Out) : Out :=
  match bufRange c ring i n with
  | some a => k a
  | none => .fault .outsideBuffer

/-- The ring with slot `i`'s descriptor replaced. -/
def Ring.setDesc (r : Ring) (i : Nat) (d : Desc) : Ring := { r with desc := r.desc.set i d }

/-- A ring as Q_INIT leaves it: every descriptor bound, empty and owned by `o`, cursors 0, no live token (R75). -/
def Ring.armed (addrs : List Addr) (o : Owner) : Ring where
  desc := addrs.map fun a => Desc.storeRelease { addr := a, len := 0, own := .sw, status := 0 } o
  next := 0
  hw := 0
  live := none

/-! ### Hand-offs -/

/-- `SW` submits TX slot `i`: `len` recorded, flag released to hardware, cursor advanced, token ended (R78). -/
def Ring.submit (r : Ring) (n i : Nat) (d : Desc) (len : Half) : Ring where
  desc := r.desc.set i (Desc.storeRelease { d with len := len.toNat } .hw)
  next := nextIdx n r.next
  hw := r.hw
  live := none

/-- `SW` retires RX slot `i`: `len` and `status` cleared, flag released to hardware, cursor advanced, token ended (R79). -/
def Ring.retire (r : Ring) (n i : Nat) (d : Desc) : Ring where
  desc := r.desc.set i (Desc.storeRelease { d with len := 0, status := 0 } .hw)
  next := nextIdx n r.next
  hw := r.hw
  live := none

/-- The DMA engine hands slot `hw` back: flag released to software, hardware cursor advanced (R116, R117). -/
def Ring.handBack (r : Ring) (n : Nat) (d : Desc) : Ring where
  desc := r.desc.set r.hw (Desc.storeRelease d .sw)
  next := r.next
  hw := nextIdx n r.hw
  live := r.live

/-- The ring with a token issued for the cursor's slot (R94, R95). -/
def Ring.issue (r : Ring) (gen : Nat) : Ring := { r with live := some ⟨r.next, gen⟩ }

/-- The ring with its token expired (R100). -/
def Ring.expire (r : Ring) : Ring := { r with live := none }

/-- Construction (R10, R130, R142): parameters outside R10 are refused. -/
def construct (p : Params) : Out :=
  if h : p.legal = true then .next (State.resetOf { p with isLegal := h }) else .refused .badConfiguration

end Sys2Proof.Machine
end

