-- ==== Sys2Proof/Machine/Operands.lean ====
section
/-! DEFINITION. The operands: the caller's functions (R87), and the token operand with the checks the four
consuming operations make of it, in the order of R129. -/

namespace Sys2Proof.Machine

/-- `F(x)` (R87): the new contents of the region and the result. The new contents have the region's length. -/
def applyTxFun (f : TxFun) (x : List Byte) : List Byte × CallerValue :=
  match f with
  | .store b y => (b.take x.length ++ x.drop b.length, y)
  | .keep => (x, .num x.length)
  | .named id =>
    let r := Config.callerTx id x.length ⟨x.toArray, by simp⟩
    (r.1.toList, r.2)

/-- `G(v)` (R87). -/
def applyRxFun (g : RxFun) (v : List Byte) : CallerValue :=
  match g with
  | .const y => y
  | .count => .num v.length
  | .copy => .bytes v
  | .named id => Config.callerRx id v

/-- The token is the ring's live token (R30). -/
def isLive (r : Ring) (ring : RingId) (tok : Token) : Bool :=
  decide (tok.ring = ring ∧ r.live = some ⟨tok.slot, tok.gen⟩)

/-- The checks of TXR_TRANSMIT and TXT_CONSUME: token, then ownership, then length (R78, R88, R129). -/
def withTxToken (op : FaultOp) (len : Half) (s : State) (k : Nat → Desc → Out) : Out :=
  let tok := s.oob.tok
  if isLive s.tx .tx tok then
    withDesc s.tx tok.slot fun d =>
      if d.loadAcquire = .sw then
        if 1 ≤ len.toNat ∧ len.toNat ≤ s.cfg.txBufSize then k tok.slot d
        else raise s (.txLenRange len.toNat)
      else raise s (.slotNotSw .tx tok.slot)
  else raise s (.noLiveToken op tok)

/-- The checks of RXR_POP and RXT_CONSUME: initialised, then token, then ownership (R79, R89, R129).
DEDUCED that these read `initialised` (log entry 11), safe. -/
def withRxToken (op : FaultOp) (s : State) (k : Nat → Desc → Out) : Out :=
  let tok := s.oob.tok
  if s.initialised then
    if isLive s.rx .rx tok then
      withDesc s.rx tok.slot fun d =>
        if d.loadAcquire = .sw then k tok.slot d
        else raise s (.slotNotSw .rx tok.slot)
    else raise s (.noLiveToken op tok)
  else raise s (.notInitialised op)

end Sys2Proof.Machine
end

