-- ==== Sys2Proof/Machine/Phy.lean ====
section
/-! DEFINITION. SMI transactions, the PHY's answer, and the PHY driver's routines (R104 to R115). -/

namespace Sys2Proof.Machine

/-! ### The PHY (R108, R109) -/

/-- `PhyModel.phy_read(p, a, r)` (R108). -/
def phyRead (m : PhyModel) (p : PhyState) (a r : BitVec 5) : Half × PhyState :=
  match m with
  | .simulated | .selfClearing => (p.regs[r.toNat]'r.isLt, p)
  | .chip id => Config.chipRead id p a r

/-- `PhyModel.phy_write(p, a, r, v)` (R108). -/
def phyWrite (m : PhyModel) (p : PhyState) (a r : BitVec 5) (v : Half) : PhyState :=
  match m with
  | .simulated => { p with regs := p.regs.set r.toNat v r.isLt }
  | .selfClearing => { p with regs := p.regs.set r.toNat (if r = 0 then v &&& 0x7FFF else v) r.isLt }
  | .chip id => Config.chipWrite id p a r v

/-! ### One SMI transaction (R104, R105) -/

/-- `smi.read reg`: `k` goes on with the value read and the state after the transaction (R104). -/
def smiReadStep (s : State) (reg : Nat) (k : Half → State → Out) : Out :=
  if regInRange reg then
    let vp := phyRead s.cfg.phyModel s.phy s.cfg.phyAddr (BitVec.ofNat 5 reg)
    k vp.1 ((s.setPhy vp.2).emit [.smiRd reg vp.1])
  else raise s (.smiRegRange reg)

/-- `smi.write reg, val`: `k` goes on with the state after the transaction (R105). -/
def smiWriteStep (s : State) (reg : Nat) (val : Half) (k : State → Out) : Out :=
  if regInRange reg then
    k ((s.setPhy (phyWrite s.cfg.phyModel s.phy s.cfg.phyAddr (BitVec.ofNat 5 reg) val)).emit [.smiWr reg val])
  else raise s (.smiRegRange reg)

/-! ### Routines (R110, R112) -/

/-- A value computed from the held values (R110). -/
def evalExpr (held : List Half) : RExpr → Half
  | .lit v => v
  | .var k => held.getD k 0
  | .not a => ~~~ evalExpr held a
  | .and a b => evalExpr held a &&& evalExpr held b
  | .or a b => evalExpr held a ||| evalExpr held b
  | .xor a b => evalExpr held a ^^^ evalExpr held b
  | .add a b => evalExpr held a + evalExpr held b
  | .sub a b => evalExpr held a - evalExpr held b
  | .shl a n => evalExpr held a <<< n
  | .shr a n => evalExpr held a >>> n
  | .chip id => Config.chipCompute id held

/-- A test of the held values (R110). -/
def evalCond (held : List Half) : RCond → Bool
  | .always => true
  | .bit a i => (evalExpr held a).getLsbD i
  | .eq a b => evalExpr held a == evalExpr held b
  | .ult a b => decide ((evalExpr held a).toNat < (evalExpr held b).toNat)
  | .not c => !evalCond held c
  | .and c d => evalCond held c && evalCond held d
  | .or c d => evalCond held c || evalCond held d
  | .chip id => Config.chipTest id held

/-- The next node, or `none` where the routine returns. -/
def evalNext (held : List Half) : RNext → Option Nat
  | .goto n => some n
  | .ret => none
  | .ite c a b => if evalCond held c then evalNext held a else evalNext held b

/-- The assignments of a node, in order. -/
def runSets (held : List Half) (sets : List (Nat × RExpr)) : List Half :=
  sets.foldl (fun h kv => h.set kv.1 (evalExpr h kv.2)) held

/-- The routine of the configuration's driver (R110). -/
def routineOf (c : Config) : RoutineId → Routine
  | .reset => c.driver.reset
  | .init => c.driver.init

/-- The routine returns, without a value: PHY_RESET or PHY_INIT completes (R112). -/
def routineReturns (s : State) : State := (s.setRoutine none).setRet .unit

/-- Where a routine stands after a node's SMI operation: its assignments, then its branch; `none`
where it returns. -/
def afterNode (id : RoutineId) (nodes : Nat) (nd : RNode) (held : List Half) : Option Running :=
  let held' := runSets held nd.sets
  match evalNext held' nd.next with
  | some n => if n < nodes then some ⟨id, n, held'⟩ else none
  | none => none

/-- The routine goes on or returns. -/
def finishNode (id : RoutineId) (nodes : Nat) (nd : RNode) (held : List Half) (s : State) : Out :=
  match afterNode id nodes nd held with
  | some r => .next (s.setRoutine (some r))
  | none => .next (routineReturns s)

/-- One step of a routine: its next SMI operation, with the semantics of R104 or R105 (R112). -/
def advance (s : State) (r : Running) : Out :=
  let rt := routineOf s.cfg r.id
  match rt.nodes[r.node]? with
  | none => .next (routineReturns s)
  | some nd =>
    match nd.act with
    | .read reg into =>
      smiReadStep s (evalExpr r.held reg).toNat fun v t =>
        finishNode r.id rt.nodes.length nd (r.held.set into v) t
    | .write reg val =>
      smiWriteStep s (evalExpr r.held reg).toNat (evalExpr r.held val) fun t =>
        finishNode r.id rt.nodes.length nd r.held t

/-- The call of a routine: it starts at node 0 with every variable 0, and its first SMI operation is
this step (R112): DEDUCED (log entry 9), safe. -/
def startRoutine (id : RoutineId) (s : State) : Out :=
  swStep s (advance s ⟨id, 0, List.replicate (routineOf s.cfg id).vars 0⟩)

/-- `SW`'s turn inside a routine in progress (R112). -/
def routineTurn (s : State) : Out :=
  if s.fault.isSome then .fault .quiescent
  else match s.routine with
    | some r => advance s r
    | none => .fault .noRoutine

/-! ### poll_link (R111, R114) -/

/-- The reads of `poll_link` in order: the values, the PHY after them, and their events. -/
def pollReads (c : Config) : List Nat → PhyState → List Half × PhyState × List Event
  | [], p => ([], p, [])
  | reg :: regs, p =>
    let vp := phyRead c.phyModel p c.phyAddr (BitVec.ofNat 5 reg)
    let rest := pollReads c regs vp.2
    (vp.1 :: rest.1, rest.2.1, .smiRd reg vp.1 :: rest.2.2)

/-- `PhyDriver.poll_link` inside one step: `k` goes on with its Boolean, the PHY after the reads and
their events. A register above 31 raises `SMI_REG_RANGE` before anything is written (R104, R128):
DEDUCED (log entries 12 and 13), safe. -/
def pollLink (s : State) (k : Bool → PhyState → List Event → Out) : Out :=
  let poll := s.cfg.driver.poll
  match poll.reads.find? (fun reg => !regInRange reg) with
  | some reg => raise s (.smiRegRange reg)
  | none =>
    let r := pollReads s.cfg poll.reads s.phy
    k (evalCond r.1 poll.linkUp && evalCond r.1 poll.ready) r.2.1 r.2.2

end Sys2Proof.Machine
end

