-- ==== Sys2Proof/Machine/AdapterFamily.lean ====
section
/-! DEFINITION. The async device adapter (42_adapter.md). -/

namespace Sys2Proof.Machine

/-- Not ready: the caller's task is registered, the last registrant winning (R96, R103). -/
def notReady (s : State) (task : TaskId) (r : Ret) : Out := .next ((s.setWaker (some task)).setRet r)

/-- ADP_RECEIVE (R94). -/
def execAdpReceive (task : TaskId) (s : State) : Out :=
  swStep s <|
    if s.initialised then
      withDesc s.rx s.rx.next fun dr =>
        withDesc s.tx s.tx.next fun dt =>
          if s.rx.live = none ∧ dr.loadAcquire = .sw ∧ s.tx.live = none ∧ dt.loadAcquire = .sw then
            .next { s with
              rx := s.rx.issue s.tokGen
              tx := s.tx.issue (s.tokGen + 1)
              tokGen := s.tokGen + 2
              ret := .tokens (some (⟨.rx, s.rx.next, s.tokGen⟩, ⟨.tx, s.tx.next, s.tokGen + 1⟩)) }
          else notReady s task (.tokens none)
    else raise s (.notInitialised .adpReceive)

/-- ADP_TRANSMIT (R95). -/
def execAdpTransmit (task : TaskId) (s : State) : Out :=
  swStep s <|
    withDesc s.tx s.tx.next fun d =>
      if s.tx.live = none ∧ d.loadAcquire = .sw then
        .next { s with
          tx := s.tx.issue s.tokGen
          tokGen := s.tokGen + 1
          ret := .token (some ⟨.tx, s.tx.next, s.tokGen⟩) }
      else notReady s task (.token none)

/-- ADP_LINK (R97): the caller's task is woken on every call, then the PHY is polled. -/
def execAdpLink (task : TaskId) (s : State) : Out :=
  swStep s <|
    pollLink s fun b p es =>
      .next (((s.setPhy p).emit (.woken task :: es)).setRet (.link b))

/-- ADP_CAPS (R98): the parameters `MTU` and `MAX_BURST`. -/
def execAdpCaps (s : State) : Out :=
  swStep s <| .next (s.setRet (.caps s.cfg.mtu s.cfg.maxBurst))

/-- ADP_HWADDR (R99). -/
def execAdpHwaddr (s : State) : Out :=
  swStep s <| .next (s.setRet (.hwaddr s.cfg.macAddr))

/-- ADP_ENDPOLL (R100): every unconsumed token expires. -/
def execAdpEndpoll (s : State) : Out :=
  swStep s <| .next (((s.setTx s.tx.expire).setRx s.rx.expire).setRet .unit)

end Sys2Proof.Machine
end

