-- ==== Sys2Proof/Machine/DmaFamily.lean ====
section
/-! DEFINITION. The DMA engine and completion events (44_dma_engine.md). -/

namespace Sys2Proof.Machine

/-- The status a DMA step draws: any value of `STATUS_W` bits (R24, R116, R117), a free value of the step. -/
def drawnStatus (s : State) : Nat := s.oob.status % 2 ^ s.cfg.statusW

/-- DMA_TX (R116). -/
def execDmaTx (s : State) : Out :=
  agentStep s <|
    withDesc s.tx s.tx.hw fun d =>
      if d.loadAcquire = .hw then
        withBuf s.cfg .tx s.tx.hw d.len fun a =>
          .next { s with
            hist := s.hist ++ [.sent (s.mem.readBytes a d.len)]
            tx := s.tx.handBack s.cfg.nTx { d with status := drawnStatus s }
            irqPending := true }
      else .fault .txNotEnabled

/-- A frame the wire can offer (R118). -/
def frameOffered (c : Config) (f : List Byte) : Bool := decide (1 ≤ f.length ∧ f.length ≤ c.rxBufSize)

/-- DMA_RX (R117): the drawn frame is `oob.frame`. -/
def execDmaRx (s : State) : Out :=
  agentStep s <|
    withDesc s.rx s.rx.hw fun d =>
      if d.loadAcquire = .hw then
        if frameOffered s.cfg s.oob.frame then
          withBuf s.cfg .rx s.rx.hw s.oob.frame.length fun a =>
            .next { s with
              mem := s.mem.writeBytes a s.oob.frame
              hist := s.hist ++ [.landed s.rx.hw s.oob.frame]
              rx := s.rx.handBack s.cfg.nRx
                { d with len := s.oob.frame.length, status := drawnStatus s }
              irqPending := true }
        else .fault .frameNotOffered
      else .fault .rxNotEnabled

/-- IRQ_DELIVER (R123). -/
def execIrqDeliver (s : State) : Out :=
  agentStep s <|
    if s.irqPending then
      match s.waker with
      | some t =>
        .next { s with
          irqPending := false
          hist := s.hist ++ [.woken t]
          waker := if s.cfg.wakeClears then none else some t }
      | none => .next (s.setIrqPending false)
    else .fault .irqNotEnabled

end Sys2Proof.Machine
end

