-- ==== Sys2Proof/Machine/RingFamily.lean ====
section
/-! DEFINITION. Ring initialisation, availability checks and finalising a slot (40_ring.md). -/

namespace Sys2Proof.Machine

/-- Q_INIT (R75). -/
def execQInit (s : State) : Out :=
  swStep s <|
    if s.initialised then raise s .initTwice
    else match s.tx.firstHw with
      | some i => raise s (.initBusy .tx i)
      | none =>
        .next { s with
          tx := Ring.armed s.cfg.txAddr .sw
          rx := Ring.armed s.cfg.rxAddr .hw
          irqPending := false
          initialised := true
          ret := .unit }

/-- TXR_AVAIL (R76). -/
def execTxrAvail (s : State) : Out :=
  swStep s <|
    withDesc s.tx s.tx.next fun d =>
      .next (s.setRet (.txSlot (if d.loadAcquire = .sw then some s.tx.next else none)))

/-- RXR_AVAIL (R77). It hands out the view `rx_buf[s][0:len)` and reads no buffer byte itself: `SW`
reads a buffer only inside a consume (R41, R57, R91). DESIGN CHOICE (log entry 22), safe. -/
def execRxrAvail (s : State) : Out :=
  swStep s <|
    if s.initialised then
      withDesc s.rx s.rx.next fun d =>
        if d.loadAcquire = .sw then
          withBuf s.cfg .rx s.rx.next d.len fun a => .next (s.setRet (.rxFrame (some (s.rx.next, ⟨a, d.len⟩))))
        else .next (s.setRet (.rxFrame none))
    else raise s (.notInitialised .rxrAvail)

/-- TXR_TRANSMIT (R78). -/
def execTxrTransmit (len : Half) (s : State) : Out :=
  swStep s <|
    withTxToken .txrTransmit len s fun i d =>
      .next ((s.setTx (s.tx.submit s.cfg.nTx i d len)).setRet .unit)

/-- RXR_POP (R79). -/
def execRxrPop (s : State) : Out :=
  swStep s <|
    withRxToken .rxrPop s fun i d =>
      .next ((s.setRx (s.rx.retire s.cfg.nRx i d)).setRet .unit)

end Sys2Proof.Machine
end

