-- ==== Sys2Proof/Machine/SmiFamily.lean ====
section
/-! DEFINITION. The Station Management Interface and the PHY driver's operations (43_smi_phy.md). -/

namespace Sys2Proof.Machine

/-- SMI_READ (R104). -/
def execSmiRead (reg : Nat) (s : State) : Out :=
  swStep s <| smiReadStep s reg fun v t => .next (t.setRet (.smi v))

/-- SMI_WRITE (R105). -/
def execSmiWrite (reg : Nat) (val : Half) (s : State) : Out :=
  swStep s <| smiWriteStep s reg val fun t => .next (t.setRet .unit)

/-- PHY_RESET (R112). -/
def execPhyReset (s : State) : Out := startRoutine .reset s

/-- PHY_INIT (R113). -/
def execPhyInit (s : State) : Out := startRoutine .init s

/-- PHY_POLL (R114). -/
def execPhyPoll (s : State) : Out :=
  swStep s <|
    pollLink s fun b p es => .next (((s.setPhy p).emit es).setRet (.flag b))

end Sys2Proof.Machine
end

