-- ==== Sys2Proof/Machine/TokenFamily.lean ====
section
/-! DEFINITION. The token consumes (41_tokens.md). -/

namespace Sys2Proof.Machine

/-- TXT_CONSUME (R88): `F` runs on the slot's first `len` bytes, then exactly `len` bytes are submitted. -/
def execTxtConsume (len : Half) (s : State) : Out :=
  swStep s <|
    withTxToken .txtConsume len s fun i d =>
      withBuf s.cfg .tx i len.toNat fun a =>
        let out := applyTxFun s.oob.txFun (s.mem.readBytes a len.toNat)
        .next (((s.setMem (s.mem.writeBytes a out.1)).setTx (s.tx.submit s.cfg.nTx i d len)).setRet (.caller out.2))

/-- RXT_CONSUME (R89): `G` reads the received bytes, then the slot is retired. -/
def execRxtConsume (s : State) : Out :=
  swStep s <|
    withRxToken .rxtConsume s fun i d =>
      withBuf s.cfg .rx i d.len fun a =>
        let v := s.mem.readBytes a d.len
        .next (((s.emit [.delivered i v]).setRx (s.rx.retire s.cfg.nRx i d)).setRet
          (.caller (applyRxFun s.oob.rxFun v)))

end Sys2Proof.Machine
end

