-- ==== Sys2Proof/Machine/Dispatch.lean ====
section
/-! DEFINITION. One arm per operation (R67). -/

namespace Sys2Proof.Machine

def exec (i : Instr) (s : State) : Host.Outcome State Fault Refusal :=
  match i with
  | .qInit => Sys2Proof.Machine.execQInit s
  | .txrAvail => Sys2Proof.Machine.execTxrAvail s
  | .txrTransmit len => Sys2Proof.Machine.execTxrTransmit len s
  | .txtConsume len => Sys2Proof.Machine.execTxtConsume len s
  | .rxrAvail => Sys2Proof.Machine.execRxrAvail s
  | .rxrPop => Sys2Proof.Machine.execRxrPop s
  | .rxtConsume => Sys2Proof.Machine.execRxtConsume s
  | .adpReceive task => Sys2Proof.Machine.execAdpReceive task s
  | .adpTransmit task => Sys2Proof.Machine.execAdpTransmit task s
  | .adpLink task => Sys2Proof.Machine.execAdpLink task s
  | .adpCaps => Sys2Proof.Machine.execAdpCaps s
  | .adpHwaddr => Sys2Proof.Machine.execAdpHwaddr s
  | .adpEndpoll => Sys2Proof.Machine.execAdpEndpoll s
  | .smiRead reg => Sys2Proof.Machine.execSmiRead reg s
  | .smiWrite reg val => Sys2Proof.Machine.execSmiWrite reg val s
  | .phyReset => Sys2Proof.Machine.execPhyReset s
  | .phyInit => Sys2Proof.Machine.execPhyInit s
  | .phyPoll => Sys2Proof.Machine.execPhyPoll s
  | .dmaTx => Sys2Proof.Machine.execDmaTx s
  | .dmaRx => Sys2Proof.Machine.execDmaRx s
  | .irqDeliver => Sys2Proof.Machine.execIrqDeliver s

end Sys2Proof.Machine
end

