-- ==== Sys2Proof/Machine/Turn.lean ====
section
/-! DEFINITION. Whose step comes next (R8, R18, R67, R112), and the pseudo-operations (R74). -/

namespace Sys2Proof.Machine

/-- `SW` is inside a PHY routine, and the operation is `SW`'s: it waits until the routine returns (R112). -/
def mustWait (s : State) (i : Instr) : Bool := s.routine.isSome && decide (i.agent = .sw)

/-- One step of the machine. The schedule names the agent whose step comes next. An issued word is
decoded and run with its operands; a word that spells no operation is refused (R69). An operation of
`SW` issued while a PHY routine is in progress stays in the schedule, and the step is the routine's
next SMI operation (R112); so is the step of an empty schedule. Nothing steps once a fault is recorded (R127).
DESIGN CHOICE (log entries 1 and 9), safe. -/
def takeTurn (s : State) : Out :=
  if s.fault.isSome then .fault .quiescent
  else match s.sched with
    | [] => if s.routine.isSome then routineTurn s else .fault .noTurn
    | .routine :: rest => routineTurn (s.setSched rest)
    | .issue w oob :: rest =>
      match decode w with
      | .error why => .refused (.decode why)
      | .ok i =>
        if mustWait s i then routineTurn s
        else exec i ((s.setSched rest).setOob oob)

/-- `s` with the word issued next, with the operands `s` holds; `SW` stands at an operation boundary
when the word is one of its own. -/
def placeWord (s : State) (w : OpWord) : State :=
  let s' := s.setSched (.issue w s.oob :: s.sched)
  match decode w with
  | .ok i => if mustWait s i then s'.setRoutine none else s'
  | .error _ => s'

/-- The pseudo-operation `transmit(L, F)` (R74): `adp.transmit task`, then the consume of the token it
issues, if it issues one. It returns whether a token was issued; a faulting consume returns nothing (R126). -/
def transmitPseudo (task : TaskId) (len : Half) (f : TxFun) (s : State) : Out :=
  match exec (.adpTransmit task) s with
  | .next t =>
    match t.ret with
    | .token (some tok) =>
      match exec (.txtConsume len) (t.setOob { t.oob with tok := tok, txFun := f }) with
      | .next u => .next (if u.fault.isSome then u else u.setRet (.flag true))
      | o => o
    | _ => .next (t.setRet (.flag false))
  | o => o

/-- The pseudo-operation `receive(G)` (R74): `adp.receive task`, then the consume of the RX token it
issues, if it issues one. -/
def receivePseudo (task : TaskId) (g : RxFun) (s : State) : Out :=
  match exec (.adpReceive task) s with
  | .next t =>
    if t.fault.isSome then .next t
    else match t.ret with
    | .tokens (some (r, _)) => exec .rxtConsume (t.setOob { t.oob with tok := r, rxFun := g })
    | _ => .next t
  | o => o

end Sys2Proof.Machine
end

