-- ==== Sys2Proof/Machine/Step.lean ====
section
/-! DEFINITION. One step of the machine, and placing a word to be run next. -/

namespace Sys2Proof.Machine

/-- One step (see `takeTurn`). -/
def step (s : State) : Host.Outcome State Fault Refusal := takeTurn s

/-- `s` with the operation whose `nbits` bits are `w` issued next (see `placeWord`). -/
def State.withFetchWord (s : State) (nbits w : Nat) : State := placeWord s (BitVec.ofNat 32 (w % 2 ^ nbits))

end Sys2Proof.Machine
end

