-- ==== Sys2Proof/Safety.lean ====
section
/-! DEFINITION. The terms the claims are stated in: when an agent may step, the invariants of the rings,
tokens and memory (R22, R23, R28, R29, R32, R84), the launch premise (R145), and who writes what (R41). -/

namespace Sys2Proof.Machine

/-! ### Enabling -/

/-- `SW` stands at an operation boundary of an unfaulted machine (R127, R112). -/
abbrev State.SwReady (s : State) : Prop := s.fault = none ∧ s.routine = none

/-- The token operand is the TX ring's live token (R30, R78). -/
abbrev State.LiveTx (s : State) : Prop :=
  s.oob.tok.ring = .tx ∧ s.tx.live = some ⟨s.oob.tok.slot, s.oob.tok.gen⟩

/-- The token operand is the RX ring's live token (R30, R79). -/
abbrev State.LiveRx (s : State) : Prop :=
  s.oob.tok.ring = .rx ∧ s.rx.live = some ⟨s.oob.tok.slot, s.oob.tok.gen⟩

/-- A token is live (R30): its ring's live register names it. -/
def State.TokenLive (s : State) (tok : Token) : Prop :=
  match tok.ring with
  | .tx => s.tx.live = some ⟨tok.slot, tok.gen⟩
  | .rx => s.rx.live = some ⟨tok.slot, tok.gen⟩

/-! ### Ring invariants -/

/-- Every descriptor is bound to its buffer (R22) and the cursors are slots of the ring (R26, R27). -/
structure Ring.Shaped (r : Ring) (addrs : List Addr) : Prop where
  bound : r.desc.map (·.addr) = addrs
  next_lt : r.next < addrs.length
  hw_lt : r.hw < addrs.length

/-- The slots owned by `o` are exactly the circular interval from `a` up to but excluding `b` on a
ring of `n` slots: `k` slots from `a` on, and where `a = b` all of them or none (R28, R29). -/
def Ring.OwnedInterval (r : Ring) (n : Nat) (o : Owner) (a b : Nat) : Prop :=
  ∃ k ≤ n, b = (a + k) % n ∧
    ∀ i < n, (r.desc[(a + i) % n]?).map (·.own) = some o ↔ i < k

/-- A live token names the cursor's slot (R32), which is software-owned (R84), and its generation has
been issued (R31). -/
def Ring.TokenOk (r : Ring) (tokGen : Nat) : Prop :=
  ∀ l, r.live = some l →
    l.slot = r.next ∧ (r.desc[r.next]?).map (·.own) = some .sw ∧ l.gen < tokGen

/-- A descriptor's length is a frame of its buffer (R23). -/
abbrev Desc.LenIn (d : Desc) (size : Nat) : Prop := 1 ≤ d.len ∧ d.len ≤ size

/-- A descriptor's fields fit their widths `ADDR_W`, `LEN_W` and `STATUS_W` (R9, R19). -/
abbrev Desc.Fits (d : Desc) (c : Config) : Prop :=
  d.addr < 2 ^ c.addrW ∧ d.len < 2 ^ c.lenW ∧ d.status < 2 ^ c.statusW

/-- The TX ring's invariant (R19, R22, R23, R28, R32, R84). -/
structure State.TxInv (s : State) : Prop where
  shaped : s.tx.Shaped s.cfg.txAddr
  fits : ∀ d ∈ s.tx.desc, d.Fits s.cfg
  lens : ∀ d ∈ s.tx.desc, d.own = .hw → d.LenIn s.cfg.txBufSize
  flight : s.tx.OwnedInterval s.cfg.nTx .hw s.tx.hw s.tx.next
  token : s.tx.TokenOk s.tokGen

/-- The RX ring's invariant (R19, R22, R23, R29, R32, R84). Before Q_INIT nothing has happened on it. -/
structure State.RxInv (s : State) : Prop where
  shaped : s.rx.Shaped s.cfg.rxAddr
  fits : ∀ d ∈ s.rx.desc, d.Fits s.cfg
  before : s.initialised = false →
    (∀ d ∈ s.rx.desc, d.own = .sw ∧ d.len = 0) ∧ s.rx.live = none
  lens : s.initialised = true → ∀ d ∈ s.rx.desc, d.own = .sw → d.LenIn s.cfg.rxBufSize
  landed : s.initialised = true → s.rx.OwnedInterval s.cfg.nRx .sw s.rx.next s.rx.hw
  token : s.rx.TokenOk s.tokGen

/-- The machine's invariant. -/
structure State.Inv (s : State) : Prop where
  mem : s.mem.wf
  tx : s.TxInv
  rx : s.RxInv

/-- The launch premise `BOOTED` (R145). -/
structure State.Booted (s : State) : Prop where
  initialised : s.initialised = true
  fault : s.fault = none
  txOwn : ∀ d ∈ s.tx.desc, d.own = .sw
  rxOwn : ∀ d ∈ s.rx.desc, d.own = .hw
  cursors : s.tx.next = 0 ∧ s.tx.hw = 0 ∧ s.rx.next = 0 ∧ s.rx.hw = 0
  live : s.tx.live = none ∧ s.rx.live = none
  irq : s.irqPending = false
  txBound : s.tx.desc.map (·.addr) = s.cfg.txAddr
  rxBound : s.rx.desc.map (·.addr) = s.cfg.rxAddr

/-! ### Buffers -/

/-- `x` is the address of a byte of slot `i`'s buffer (R44). -/
def InBuf (c : Config) (ring : RingId) (i x : Nat) : Prop :=
  ∃ a, bufAddr c ring i = some a ∧ a ≤ x ∧ x < a + bufSize c ring

/-- The slot's descriptor is owned by `o`. -/
abbrev Ring.Owns (r : Ring) (o : Owner) (i : Nat) : Prop := (r.desc[i]?).map (·.own) = some o

/-- The ring of that name. -/
def State.ring (s : State) : RingId → Ring
  | .tx => s.tx
  | .rx => s.rx

/-- The owner on whose behalf an agent reaches buffers (R14, R21). -/
def sideOf : Agent → Owner
  | .sw => .sw
  | .txdma | .rxdma | .irq => .hw

/-- The slots whose buffer an operation reads (R49): the live token's at a token consume, the one at
`tx_hw` at DMA_TX. No other operation reads a buffer (R41, R57, R91). -/
def State.Reads (s : State) (i : Instr) (ring : RingId) (k : Nat) : Prop :=
  match i with
  | .txtConsume _ => ring = .tx ∧ s.LiveTx ∧ k = s.oob.tok.slot
  | .rxtConsume => ring = .rx ∧ s.LiveRx ∧ k = s.oob.tok.slot
  | .dmaTx => ring = .tx ∧ k = s.tx.hw
  | .qInit | .txrAvail | .rxrAvail | .txrTransmit _ | .rxrPop | .adpReceive _ | .adpTransmit _ | .adpLink _
  | .adpCaps | .adpHwaddr | .adpEndpoll | .smiRead _ | .smiWrite _ _ | .phyReset | .phyInit | .phyPoll
  | .dmaRx | .irqDeliver => False

/-! ### `poll_link`'s reads (R111) -/

/-- `smi.read` of each register in order (R104): the values read, and the PHY after them. -/
def smiReads (c : Config) (regs : List Nat) (p : PhyState) : List Half × PhyState :=
  regs.foldl (fun acc reg =>
    let vp := phyRead c.phyModel acc.2 c.phyAddr (BitVec.ofNat 5 reg)
    (acc.1 ++ [vp.1], vp.2)) ([], p)

/-! ### Who writes what (R41) -/

/-- The operations that write an element of the TX ring. -/
def writesTx : Instr → Bool
  | .qInit | .txrTransmit _ | .txtConsume _ | .adpReceive _ | .adpTransmit _ | .adpEndpoll | .dmaTx => true
  | .txrAvail | .rxrAvail | .rxrPop | .rxtConsume | .adpLink _ | .adpCaps | .adpHwaddr
  | .smiRead _ | .smiWrite _ _ | .phyReset | .phyInit | .phyPoll | .dmaRx | .irqDeliver => false

/-- The operations that write an element of the RX ring. -/
def writesRx : Instr → Bool
  | .qInit | .rxrPop | .rxtConsume | .adpReceive _ | .adpEndpoll | .dmaRx => true
  | .txrAvail | .rxrAvail | .txrTransmit _ | .txtConsume _ | .adpTransmit _ | .adpLink _ | .adpCaps
  | .adpHwaddr | .smiRead _ | .smiWrite _ _ | .phyReset | .phyInit | .phyPoll | .dmaTx | .irqDeliver => false

/-- The operations that write the PHY's state, through SMI. -/
def writesPhy : Instr → Bool
  | .smiRead _ | .smiWrite _ _ | .phyReset | .phyInit | .phyPoll | .adpLink _ => true
  | .qInit | .txrAvail | .rxrAvail | .txrTransmit _ | .txtConsume _ | .rxrPop | .rxtConsume
  | .adpReceive _ | .adpTransmit _ | .adpCaps | .adpHwaddr | .adpEndpoll | .dmaTx | .dmaRx
  | .irqDeliver => false

/-- The operations that append events to `hist` (R40). -/
def emits : Instr → Bool
  | .smiRead _ | .smiWrite _ _ | .phyReset | .phyInit | .phyPoll | .adpLink _ | .rxtConsume
  | .dmaTx | .dmaRx | .irqDeliver => true
  | .qInit | .txrAvail | .rxrAvail | .txrTransmit _ | .txtConsume _ | .rxrPop
  | .adpReceive _ | .adpTransmit _ | .adpCaps | .adpHwaddr | .adpEndpoll => false

/-! ### The match and mask table (R68) -/

/-- A row of R68's table. -/
structure MaskRow where
  name : OpName
  pattern : OpWord
  mask : OpWord
deriving DecidableEq, Repr

/-- R68's table, copied from the spec; the decoder does not use it. -/
def maskTable : List MaskRow :=
  [ ⟨.qInit, 0x01000000, 0xFFFFFFFF⟩, ⟨.txrAvail, 0x10000000, 0xFFFFFFFF⟩,
    ⟨.txrTransmit, 0x11000000, 0xFFFF0000⟩, ⟨.txtConsume, 0x14000000, 0xFFFF0000⟩,
    ⟨.rxrAvail, 0x18000000, 0xFFFFFFFF⟩, ⟨.rxrPop, 0x19000000, 0xFFFFFFFF⟩,
    ⟨.rxtConsume, 0x1C000000, 0xFFFFFFFF⟩ ] ++
  [ ⟨.adpReceive, 0x20000000, 0xFFFF0000⟩, ⟨.adpTransmit, 0x21000000, 0xFFFF0000⟩,
    ⟨.adpLink, 0x22000000, 0xFFFF0000⟩, ⟨.adpCaps, 0x23000000, 0xFFFFFFFF⟩,
    ⟨.adpHwaddr, 0x24000000, 0xFFFFFFFF⟩, ⟨.adpEndpoll, 0x25000000, 0xFFFFFFFF⟩ ] ++
  [ ⟨.smiRead, 0x30000000, 0xFFE0FFFF⟩, ⟨.smiWrite, 0x31000000, 0xFFE00000⟩,
    ⟨.phyReset, 0x38000000, 0xFFFFFFFF⟩, ⟨.phyInit, 0x39000000, 0xFFFFFFFF⟩,
    ⟨.phyPoll, 0x3A000000, 0xFFFFFFFF⟩ ] ++
  [ ⟨.dmaTx, 0x80000000, 0xFFFFFFFF⟩, ⟨.dmaRx, 0x81000000, 0xFFFFFFFF⟩,
    ⟨.irqDeliver, 0x82000000, 0xFFFFFFFF⟩ ]

/-! ### The capacity law's runs (R83) -/

/-- `n` submissions in a row, each a `transmit(len, F)` that returns `true` (R74), with no TXDMA step in
between; it stops at the first that is not ready, faults or stops itself. -/
def submitMany (task : TaskId) (len : Half) (f : TxFun) : Nat → State → Out
  | 0, s => .next s
  | n + 1, s =>
    match transmitPseudo task len f s with
    | .next t => if t.ret = .flag true then submitMany task len f n t else .next t
    | o => o

/-- `n` turns in a row of the PHY routine in progress (R112). -/
def routineTurns : Nat → State → Out
  | 0, s => .next s
  | n + 1, s =>
    match routineTurns n s with
    | .next t => routineTurn t
    | o => o

end Sys2Proof.Machine
end

