-- ==== Sys2Proof/Certificates/Slice0/Obligations.lean ====
section
/-! DEFINITION. The statements for the provers. Each docstring names the rule of the spec it formalises.
In every next state `ret` is what the operation hands back to `SW` (R13 `return`): `.unit` where it
returns without a value, and unchanged where it raises a fault (the representation of log entry 8). -/

open Sys2Proof Sys2Proof.Machine

/-! ### The operation word -/

/-- Decode and encode agree: the decoder reads every well-formed operation, with every operand at
every value its field admits, back from its word (R63, R64, R65, R67). -/
def Obligations.DecodeOfEncodeIsInstr : Prop :=
  ∀ i : Instr, i.wellFormed = true → decode (encode i) = .ok i

/-- The other direction: a word the decoder accepts is the word of a well-formed operation, so no word
has two spellings (R63, R64). -/
def Obligations.EncodeOfDecodeIsWord : Prop :=
  ∀ w i, decode w = .ok i → encode i = w ∧ i.wellFormed = true

/-- A few words of test vector V-ENC, written out, decode to the operations they stand for (R67). -/
def Obligations.SpecWordsDecode : Prop :=
  decode 0x01000000 = .ok .qInit ∧
  decode 0x110005EA = .ok (.txrTransmit 1514) ∧
  decode 0x1400FFFF = .ok (.txtConsume 65535) ∧
  decode 0x20000005 = .ok (.adpReceive 5) ∧
  decode 0x301F0000 = .ok (.smiRead 31) ∧
  decode 0x31041801 = .ok (.smiWrite 4 0x1801) ∧
  decode 0x82000000 = .ok .irqDeliver ∧
  decode 0x3B000000 = .error .noSuchOperation ∧
  decode 0x31E01801 = .error .reservedBitsSet

/-- R68: the decoder reads a row's operation from exactly the words with `w & mask = match`, and no two
rows match one word. -/
def Obligations.MaskAndMatchSelectRow : Prop :=
  (∀ r ∈ maskTable, ∀ w : OpWord,
    (∃ i, decode w = .ok i ∧ i.opName = r.name) ↔ w &&& r.mask = r.pattern) ∧
  (∀ w i, decode w = .ok i → ∃ r ∈ maskTable, r.name = i.opName) ∧
  (maskTable.Pairwise fun r q => ∀ w : OpWord, w &&& r.mask = r.pattern → w &&& q.mask ≠ q.pattern)

/-- R69: a word whose opcode no row has is refused with `NoSuchOperation`; a word whose opcode a row
has, but which does not match the row, has a reserved bit set and is refused with `ReservedBitsSet`;
and a step at such a word is that refusal, with no next state. -/
def Obligations.ReservedWordsAreRefused : Prop :=
  ∀ w : OpWord,
    ((∀ r ∈ maskTable, r.pattern.extractLsb' 24 8 ≠ w.extractLsb' 24 8) →
      decode w = .error .noSuchOperation) ∧
    (∀ r ∈ maskTable, r.pattern.extractLsb' 24 8 = w.extractLsb' 24 8 → w &&& r.mask ≠ r.pattern →
      decode w = .error .reservedBitsSet) ∧
    (∀ (s : State) oob rest why, s.fault = none → s.sched = .issue w oob :: rest →
      decode w = .error why → step s = .refused (.decode why))

/-! ### A step -/

/-- A step runs the decoded operation: when the next turn issues a word that spells an operation, the
step is the operation's meaning, on the state with that turn taken from the schedule and its
out-of-band operands in place. An operation of `SW` is run so when no PHY routine is in progress. -/
def Obligations.StepRunsTheIssuedOperation : Prop :=
  ∀ (s : State) w oob rest i,
    s.sched = .issue w oob :: rest → decode w = .ok i → (i.agent = .sw → s.routine = none) →
    step s = exec i { s with sched := rest, oob := oob }

/-- While a PHY routine is in progress an operation of `SW` is not enabled; issued, it stays in the
schedule and the step is the routine's next turn (R112). A step at a routine's turn is that turn, taken
from the schedule; a step at an empty schedule is the routine's next turn while one is in progress, and
none when none is (the schedule is the model's, log entries 1 and 9). -/
def Obligations.SoftwareWaitsForRoutine : Prop :=
  (∀ (s : State) i, s.fault = none → s.routine ≠ none → i.agent = .sw → exec i s = .fault .softwareBusy) ∧
  (∀ (s : State) w oob rest i,
    s.routine ≠ none → s.sched = .issue w oob :: rest → decode w = .ok i → i.agent = .sw →
    step s = routineTurn s) ∧
  (∀ (s : State) rest, s.sched = .routine :: rest → step s = routineTurn { s with sched := rest }) ∧
  (∀ s : State, s.routine = none → s.fault = none → routineTurn s = .fault .noRoutine) ∧
  (∀ s : State, s.sched = [] →
    (s.routine ≠ none → step s = routineTurn s) ∧
    (s.routine = none → s.fault = none → step s = .fault .noTurn))

/-- R127: while a fault is recorded no agent has an enabled step: no operation, no turn of a routine and
no step; so no operation clears it. -/
def Obligations.FaultedMachineIsQuiescent : Prop :=
  ∀ s : State, s.fault ≠ none →
    (∀ i, exec i s = .fault .quiescent) ∧ routineTurn s = .fault .quiescent ∧ step s = .fault .quiescent

/-- R126: a step that records a fault makes no other write and returns no result. -/
def Obligations.RaisedFaultIsTheOnlyWrite : Prop :=
  (∀ i (s t : State), exec i s = .next t → t.fault ≠ none → ∃ v, t = { s with fault := some v }) ∧
  (∀ s t : State, routineTurn s = .next t → t.fault ≠ none → ∃ v, t = { s with fault := some v })

/-! ### Ring operations -/

/-- R75: Q_INIT, its two faults in order, and its effect. -/
def Obligations.QInitArmsTheRings : Prop :=
  decode 0x01000000 = .ok .qInit ∧
  ∀ s : State, s.SwReady →
    (s.initialised = true → exec .qInit s = .next { s with fault := some .initTwice }) ∧
    (s.initialised = false → ∀ i, s.tx.Owns .hw i → (∀ j < i, ¬s.tx.Owns .hw j) →
      exec .qInit s = .next { s with fault := some (.initBusy .tx i) }) ∧
    (s.initialised = false → (∀ i, ¬s.tx.Owns .hw i) →
      exec .qInit s = .next { s with
        tx := { desc := s.cfg.txAddr.map fun a => ⟨a, 0, .sw, 0⟩, next := 0, hw := 0, live := none }
        rx := { desc := s.cfg.rxAddr.map fun a => ⟨a, 0, .hw, 0⟩, next := 0, hw := 0, live := none }
        irqPending := false
        initialised := true
        ret := .unit })

/-- R76: TXR_AVAIL reports the cursor's slot exactly when its descriptor is software-owned. -/
def Obligations.TxrAvailReportsFreeSlot : Prop :=
  decode 0x10000000 = .ok .txrAvail ∧
  ∀ (s : State) d, s.SwReady → s.tx.desc[s.tx.next]? = some d →
    exec .txrAvail s = .next { s with ret := .txSlot (if d.own = .sw then some s.tx.next else none) }

/-- R77: RXR_AVAIL faults before Q_INIT; after it, it hands out the view of exactly the `len` received
bytes of a software-owned slot at the cursor, and reports none for a hardware-owned one. The result holds
the view by its place, and the view shows the buffer's bytes (the representation of log entry 22). -/
def Obligations.RxrAvailExposesReceivedBytes : Prop :=
  decode 0x18000000 = .ok .rxrAvail ∧
  ∀ s : State, s.SwReady →
    (s.initialised = false → exec .rxrAvail s = .next { s with fault := some (.notInitialised .rxrAvail) }) ∧
    (∀ d a, s.initialised = true → s.rx.desc[s.rx.next]? = some d → d.own = .sw →
      d.len ≤ s.cfg.rxBufSize → bufAddr s.cfg .rx s.rx.next = some a →
      exec .rxrAvail s =
        .next { s with ret := .rxFrame (some (s.rx.next, ⟨a, d.len⟩)) } ∧
      viewBytes s.mem ⟨a, d.len⟩ = s.mem.readBytes a d.len) ∧
    (∀ d, s.initialised = true → s.rx.desc[s.rx.next]? = some d → d.own = .hw →
      exec .rxrAvail s = .next { s with ret := .rxFrame none })

/-- R78: TXR_TRANSMIT, its three faults in order, and its effect. -/
def Obligations.TxrTransmitSubmitsSlot : Prop :=
  (∀ len : Half, decode (0x11000000 ||| len.setWidth 32) = .ok (.txrTransmit len)) ∧
  ∀ (s : State) (len : Half), s.SwReady →
    (¬s.LiveTx → exec (.txrTransmit len) s =
      .next { s with fault := some (.noLiveToken .txrTransmit s.oob.tok) }) ∧
    (∀ d, s.LiveTx → s.tx.desc[s.oob.tok.slot]? = some d →
      (d.own = .hw → exec (.txrTransmit len) s =
        .next { s with fault := some (.slotNotSw .tx s.oob.tok.slot) }) ∧
      (d.own = .sw → ¬(1 ≤ len.toNat ∧ len.toNat ≤ s.cfg.txBufSize) → exec (.txrTransmit len) s =
        .next { s with fault := some (.txLenRange len.toNat) }) ∧
      (d.own = .sw → 1 ≤ len.toNat → len.toNat ≤ s.cfg.txBufSize → exec (.txrTransmit len) s =
        .next { s with
          tx := { desc := s.tx.desc.set s.oob.tok.slot { d with len := len.toNat, own := .hw }
                  next := (s.tx.next + 1) % s.cfg.nTx
                  hw := s.tx.hw
                  live := none }
          ret := .unit }))

/-- R79: RXR_POP, its three faults in order, and its effect. -/
def Obligations.RxrPopRetiresSlot : Prop :=
  decode 0x19000000 = .ok .rxrPop ∧
  ∀ s : State, s.SwReady →
    (s.initialised = false → exec .rxrPop s = .next { s with fault := some (.notInitialised .rxrPop) }) ∧
    (s.initialised = true → ¬s.LiveRx → exec .rxrPop s =
      .next { s with fault := some (.noLiveToken .rxrPop s.oob.tok) }) ∧
    (∀ d, s.initialised = true → s.LiveRx → s.rx.desc[s.oob.tok.slot]? = some d →
      (d.own = .hw → exec .rxrPop s = .next { s with fault := some (.slotNotSw .rx s.oob.tok.slot) }) ∧
      (d.own = .sw → exec .rxrPop s =
        .next { s with
          rx := { desc := s.rx.desc.set s.oob.tok.slot { d with len := 0, own := .hw, status := 0 }
                  next := (s.rx.next + 1) % s.cfg.nRx
                  hw := s.rx.hw
                  live := none }
          ret := .unit }))

/-! ### Token consumes -/

/-- R88: TXT_CONSUME, its three faults in order, and its effect: `F` runs on the slot's first `len`
bytes, they become its new contents, and exactly `len` bytes are submitted. -/
def Obligations.TxtConsumeWritesAndSubmits : Prop :=
  (∀ len : Half, decode (0x14000000 ||| len.setWidth 32) = .ok (.txtConsume len)) ∧
  ∀ (s : State) (len : Half), s.SwReady →
    (¬s.LiveTx → exec (.txtConsume len) s =
      .next { s with fault := some (.noLiveToken .txtConsume s.oob.tok) }) ∧
    (∀ d, s.LiveTx → s.tx.desc[s.oob.tok.slot]? = some d →
      (d.own = .hw → exec (.txtConsume len) s =
        .next { s with fault := some (.slotNotSw .tx s.oob.tok.slot) }) ∧
      (d.own = .sw → ¬(1 ≤ len.toNat ∧ len.toNat ≤ s.cfg.txBufSize) → exec (.txtConsume len) s =
        .next { s with fault := some (.txLenRange len.toNat) }) ∧
      (∀ a, d.own = .sw → 1 ≤ len.toNat → len.toNat ≤ s.cfg.txBufSize →
        bufAddr s.cfg .tx s.oob.tok.slot = some a → exec (.txtConsume len) s =
        .next { s with
          mem := s.mem.writeBytes a (applyTxFun s.oob.txFun (s.mem.readBytes a len.toNat)).1
          tx := { desc := s.tx.desc.set s.oob.tok.slot { d with len := len.toNat, own := .hw }
                  next := (s.tx.next + 1) % s.cfg.nTx
                  hw := s.tx.hw
                  live := none }
          ret := .caller (applyTxFun s.oob.txFun (s.mem.readBytes a len.toNat)).2 }))

/-- R89: RXT_CONSUME, its three faults in order, and its effect: `G` reads exactly the `len` bytes
received, they are recorded as delivered, and the slot is retired. -/
def Obligations.RxtConsumeDeliversAndRetires : Prop :=
  decode 0x1C000000 = .ok .rxtConsume ∧
  ∀ s : State, s.SwReady →
    (s.initialised = false → exec .rxtConsume s =
      .next { s with fault := some (.notInitialised .rxtConsume) }) ∧
    (s.initialised = true → ¬s.LiveRx → exec .rxtConsume s =
      .next { s with fault := some (.noLiveToken .rxtConsume s.oob.tok) }) ∧
    (∀ d, s.initialised = true → s.LiveRx → s.rx.desc[s.oob.tok.slot]? = some d →
      (d.own = .hw → exec .rxtConsume s =
        .next { s with fault := some (.slotNotSw .rx s.oob.tok.slot) }) ∧
      (∀ a, d.own = .sw → d.len ≤ s.cfg.rxBufSize → bufAddr s.cfg .rx s.oob.tok.slot = some a →
        exec .rxtConsume s =
        .next { s with
          hist := s.hist ++ [.delivered s.oob.tok.slot (s.mem.readBytes a d.len)]
          rx := { desc := s.rx.desc.set s.oob.tok.slot { d with len := 0, own := .hw, status := 0 }
                  next := (s.rx.next + 1) % s.cfg.nRx
                  hw := s.rx.hw
                  live := none }
          ret := .caller (applyRxFun s.oob.rxFun (s.mem.readBytes a d.len)) }))

/-! ### The adapter -/

/-- R94: ADP_RECEIVE faults before Q_INIT; it issues both tokens when both rings are ready, and
otherwise registers the caller's task and returns none. -/
def Obligations.AdpReceiveIssuesBothTokensOrNone : Prop :=
  (∀ task < 65536, decode (0x20000000 ||| BitVec.ofNat 32 task) = .ok (.adpReceive task)) ∧
  ∀ (s : State) task, s.SwReady →
    (s.initialised = false → exec (.adpReceive task) s =
      .next { s with fault := some (.notInitialised .adpReceive) }) ∧
    (∀ dr dt, s.initialised = true → s.rx.desc[s.rx.next]? = some dr → s.tx.desc[s.tx.next]? = some dt →
      ((s.rx.live = none ∧ dr.own = .sw) ∧ (s.tx.live = none ∧ dt.own = .sw) →
        exec (.adpReceive task) s =
        .next { s with
          rx := { s.rx with live := some ⟨s.rx.next, s.tokGen⟩ }
          tx := { s.tx with live := some ⟨s.tx.next, s.tokGen + 1⟩ }
          tokGen := s.tokGen + 2
          ret := .tokens (some (⟨.rx, s.rx.next, s.tokGen⟩, ⟨.tx, s.tx.next, s.tokGen + 1⟩)) }) ∧
      (¬((s.rx.live = none ∧ dr.own = .sw) ∧ (s.tx.live = none ∧ dt.own = .sw)) →
        exec (.adpReceive task) s = .next { s with waker := some task, ret := .tokens none }))

/-- R95: ADP_TRANSMIT issues a token for the cursor's slot when no TX token is live and the slot is
software-owned, and otherwise registers the caller's task and returns none. -/
def Obligations.AdpTransmitIssuesTokenOrNone : Prop :=
  (∀ task < 65536, decode (0x21000000 ||| BitVec.ofNat 32 task) = .ok (.adpTransmit task)) ∧
  ∀ (s : State) task d, s.SwReady → s.tx.desc[s.tx.next]? = some d →
    (s.tx.live = none → d.own = .sw → exec (.adpTransmit task) s =
      .next { s with
        tx := { s.tx with live := some ⟨s.tx.next, s.tokGen⟩ }
        tokGen := s.tokGen + 1
        ret := .token (some ⟨.tx, s.tx.next, s.tokGen⟩) }) ∧
    (¬(s.tx.live = none ∧ d.own = .sw) → exec (.adpTransmit task) s =
      .next { s with waker := some task, ret := .token none })

/-- R97 and R114: ADP_LINK wakes its caller on every call, before the reads of `poll_link`; PHY_POLL
makes the same reads. Both return the routine's Boolean; a register number above 31 faults before
anything is written. -/
def Obligations.LinkPollsReadThePhy : Prop :=
  ∀ (s : State) task, s.SwReady →
    ((∀ reg ∈ s.cfg.driver.poll.reads, reg ≤ 31) →
      ∃ vals p es b, pollReads s.cfg s.cfg.driver.poll.reads s.phy = (vals, p, es) ∧
        b = (evalCond vals s.cfg.driver.poll.linkUp && evalCond vals s.cfg.driver.poll.ready) ∧
        exec (.adpLink task) s =
          .next { s with phy := p, hist := s.hist ++ .woken task :: es, ret := .link b } ∧
        exec .phyPoll s = .next { s with phy := p, hist := s.hist ++ es, ret := .flag b }) ∧
    (∀ pre reg post, s.cfg.driver.poll.reads = pre ++ reg :: post → (∀ r ∈ pre, r ≤ 31) → 31 < reg →
      exec (.adpLink task) s = .next { s with fault := some (.smiRegRange reg) } ∧
      exec .phyPoll s = .next { s with fault := some (.smiRegRange reg) })

/-- R111 law 1: `poll_link` reads its fixed registers in order, each once, and nothing else reaches the
PHY: the values read and the PHY after them are those of the `smi.read`s in a row, their events are one
`SmiRd` for each, and ADP_LINK and PHY_POLL leave exactly that PHY and emit no other SMI event. -/
def Obligations.PollReadsAreFixedSequence : Prop :=
  (∀ (c : Config) (regs : List Nat) (p : PhyState),
    ((pollReads c regs p).1, (pollReads c regs p).2.1) = smiReads c regs p ∧
    (pollReads c regs p).1.length = regs.length ∧
    (pollReads c regs p).2.2 = List.zipWith Event.smiRd regs (pollReads c regs p).1) ∧
  (∀ (s : State) task regs vals p, s.SwReady → regs = s.cfg.driver.poll.reads → (∀ reg ∈ regs, reg ≤ 31) →
    smiReads s.cfg regs s.phy = (vals, p) →
    ∃ b,
      exec (.adpLink task) s = .next { s with
        phy := p
        hist := s.hist ++ .woken task :: List.zipWith Event.smiRd regs vals
        ret := .link b } ∧
      exec .phyPoll s = .next { s with
        phy := p
        hist := s.hist ++ List.zipWith Event.smiRd regs vals
        ret := .flag b })

/-- R111 law 2: when the values read show the link down, ADP_LINK returns `Down` and PHY_POLL returns
`false`, whatever the duplex and speed fields say. "The values show the link down" is the test `linkUp`
of the model's driver form, by which law 2 holds of every driver (DESIGN CHOICE, log entry 5). -/
def Obligations.LinkDownIsReportedAsDown : Prop :=
  ∀ (s : State) task, s.SwReady → (∀ reg ∈ s.cfg.driver.poll.reads, reg ≤ 31) →
    evalCond (pollReads s.cfg s.cfg.driver.poll.reads s.phy).1 s.cfg.driver.poll.linkUp = false →
    ∃ t u, exec (.adpLink task) s = .next t ∧ t.ret = .link false ∧
      exec .phyPoll s = .next u ∧ u.ret = .flag false

/-- The reference driver on the simulated PHY: `true` exactly when register 1 has bits 5 and 2 set and
register 31 has bit 12 set and 0b110 in bits 4:2 (R115, Scenario D). -/
def Obligations.ReferencePollOnSimulatedPhy : Prop :=
  ∀ s : State, s.SwReady → s.cfg.driver = Driver.reference → s.cfg.phyModel = .simulated →
    exec .phyPoll s =
      .next { s with
        hist := s.hist ++ [.smiRd 1 s.phy.regs[1], .smiRd 31 s.phy.regs[31]]
        ret := .flag (s.phy.regs[1].getLsbD 5 && s.phy.regs[1].getLsbD 2 &&
          s.phy.regs[31].getLsbD 12 && decide (s.phy.regs[31].extractLsb' 2 3 = 0b110)) }

/-- R98 and R99: in every state ADP_CAPS returns the parameters `MTU` and `MAX_BURST`, which is
`TX_BUF_SIZE` and `min(N_TX, N_RX)` where they have R9's defaults, and ADP_HWADDR returns `MAC_ADDR`. -/
def Obligations.StaticFacetsAreConstant : Prop :=
  decode 0x23000000 = .ok .adpCaps ∧ decode 0x24000000 = .ok .adpHwaddr ∧
  ∀ s : State, s.SwReady →
    exec .adpCaps s = .next { s with ret := .caps s.cfg.mtu s.cfg.maxBurst } ∧
    (s.cfg.mtu = s.cfg.txBufSize → s.cfg.maxBurst = min s.cfg.nTx s.cfg.nRx →
      exec .adpCaps s = .next { s with ret := .caps s.cfg.txBufSize (min s.cfg.nTx s.cfg.nRx) }) ∧
    exec .adpHwaddr s = .next { s with ret := .hwaddr s.cfg.macAddr }

/-- R100: ADP_ENDPOLL ends both rings' tokens and changes no descriptor, cursor or buffer. -/
def Obligations.AdpEndpollExpiresTokens : Prop :=
  decode 0x25000000 = .ok .adpEndpoll ∧
  ∀ s : State, s.SwReady →
    exec .adpEndpoll s =
      .next { s with tx := { s.tx with live := none }, rx := { s.rx with live := none }, ret := .unit }

/-! ### SMI and PHY routines -/

/-- R104: SMI_READ. -/
def Obligations.SmiReadReturnsPhyValue : Prop :=
  (∀ reg ≤ 31, decode (0x30000000 ||| BitVec.ofNat 32 reg <<< 16) = .ok (.smiRead reg)) ∧
  ∀ (s : State) reg, s.SwReady →
    (31 < reg → exec (.smiRead reg) s = .next { s with fault := some (.smiRegRange reg) }) ∧
    (∀ v p, reg ≤ 31 → phyRead s.cfg.phyModel s.phy s.cfg.phyAddr (BitVec.ofNat 5 reg) = (v, p) →
      exec (.smiRead reg) s = .next { s with phy := p, hist := s.hist ++ [.smiRd reg v], ret := .smi v })

/-- R105: SMI_WRITE. -/
def Obligations.SmiWriteReachesPhy : Prop :=
  (∀ reg ≤ 31, ∀ val : Half,
    decode (0x31000000 ||| BitVec.ofNat 32 reg <<< 16 ||| val.setWidth 32) = .ok (.smiWrite reg val)) ∧
  ∀ (s : State) reg val, s.SwReady →
    (31 < reg → exec (.smiWrite reg val) s = .next { s with fault := some (.smiRegRange reg) }) ∧
    (reg ≤ 31 → exec (.smiWrite reg val) s =
      .next { s with
        phy := phyWrite s.cfg.phyModel s.phy s.cfg.phyAddr (BitVec.ofNat 5 reg) val
        hist := s.hist ++ [.smiWr reg val]
        ret := .unit })

/-- R109: on the simulated PHY a write followed by a read of the same register returns the written
value, and a read of another register returns what it would have returned. -/
def Obligations.SimulatedPhyLoopsBack : Prop :=
  ∀ (s : State) reg other val, s.SwReady → s.cfg.phyModel = .simulated → reg ≤ 31 → other ≤ 31 → other ≠ reg →
    ∃ t u v r, exec (.smiWrite reg val) s = .next t ∧
      exec (.smiRead reg) t = .next u ∧ u.ret = .smi val ∧
      exec (.smiRead other) t = .next v ∧ exec (.smiRead other) s = .next r ∧ v.ret = r.ret

/-- R112 and R113: PHY_RESET and PHY_INIT start their routine, and the step is its first SMI
operation, with the semantics of R104 and R105; the routine then goes on or has returned. -/
def Obligations.PhyRoutineStartsWithFirstSmi : Prop :=
  ∀ (s : State) id i, s.SwReady → (id = .reset ∧ i = .phyReset ∨ id = .init ∧ i = .phyInit) →
    ((routineOf s.cfg id).nodes = [] → exec i s = .next { s with ret := .unit }) ∧
    (∀ nd rest held, (routineOf s.cfg id).nodes = nd :: rest →
      held = List.replicate (routineOf s.cfg id).vars 0 →
      (∀ reg val, nd.act = .write reg val → (evalExpr held reg).toNat ≤ 31 → ∀ next,
        next = afterNode id (rest.length + 1) nd held →
        exec i s = .next { s with
          phy := phyWrite s.cfg.phyModel s.phy s.cfg.phyAddr
            (BitVec.ofNat 5 (evalExpr held reg).toNat) (evalExpr held val)
          hist := s.hist ++ [.smiWr (evalExpr held reg).toNat (evalExpr held val)]
          routine := next
          ret := if next = none then .unit else s.ret }) ∧
      (∀ reg into v p, nd.act = .read reg into → (evalExpr held reg).toNat ≤ 31 →
        phyRead s.cfg.phyModel s.phy s.cfg.phyAddr (BitVec.ofNat 5 (evalExpr held reg).toNat) = (v, p) →
        ∀ next, next = afterNode id (rest.length + 1) nd (held.set into v) →
        exec i s = .next { s with
          phy := p
          hist := s.hist ++ [.smiRd (evalExpr held reg).toNat v]
          routine := next
          ret := if next = none then .unit else s.ret }))

/-- R112: every further turn of a routine is one SMI operation, with the semantics of R104 and R105,
and reaches no state of the block but `phy` (R110). -/
def Obligations.PhyRoutineTurnIsOneSmi : Prop :=
  ∀ (s : State) r nd, s.fault = none → s.routine = some r → (routineOf s.cfg r.id).nodes[r.node]? = some nd →
    (∀ reg val, nd.act = .write reg val → (evalExpr r.held reg).toNat ≤ 31 → ∀ next,
      next = afterNode r.id (routineOf s.cfg r.id).nodes.length nd r.held →
      routineTurn s = .next { s with
        phy := phyWrite s.cfg.phyModel s.phy s.cfg.phyAddr
          (BitVec.ofNat 5 (evalExpr r.held reg).toNat) (evalExpr r.held val)
        hist := s.hist ++ [.smiWr (evalExpr r.held reg).toNat (evalExpr r.held val)]
        routine := next
        ret := if next = none then .unit else s.ret }) ∧
    (∀ reg into v p, nd.act = .read reg into → (evalExpr r.held reg).toNat ≤ 31 →
      phyRead s.cfg.phyModel s.phy s.cfg.phyAddr (BitVec.ofNat 5 (evalExpr r.held reg).toNat) = (v, p) →
      ∀ next, next = afterNode r.id (routineOf s.cfg r.id).nodes.length nd (r.held.set into v) →
      routineTurn s = .next { s with
        phy := p
        hist := s.hist ++ [.smiRd (evalExpr r.held reg).toNat v]
        routine := next
        ret := if next = none then .unit else s.ret })

/-- A register number above 31 in a routine faults with `SMI_REG_RANGE` (R125 code 4), at its start and
at every further turn; what earlier turns wrote stays (R128). -/
def Obligations.PhyRoutineRegisterRange : Prop :=
  (∀ (s : State) id i nd rest held, s.SwReady → (id = .reset ∧ i = .phyReset ∨ id = .init ∧ i = .phyInit) →
    (routineOf s.cfg id).nodes = nd :: rest → held = List.replicate (routineOf s.cfg id).vars 0 →
    ∀ reg, ((∃ into, nd.act = .read reg into) ∨ ∃ val, nd.act = .write reg val) → 31 < (evalExpr held reg).toNat →
      exec i s = .next { s with fault := some (.smiRegRange (evalExpr held reg).toNat) }) ∧
  (∀ (s : State) r nd, s.fault = none → s.routine = some r → (routineOf s.cfg r.id).nodes[r.node]? = some nd →
    ∀ reg, ((∃ into, nd.act = .read reg into) ∨ ∃ val, nd.act = .write reg val) → 31 < (evalExpr r.held reg).toNat →
      routineTurn s = .next { s with fault := some (.smiRegRange (evalExpr r.held reg).toNat) })

/-- The reference driver's reset on the plain simulated PHY never returns (R112's example, R152):
from the call on, after any number of further turns the routine is still in progress, and each of
them has read 0x8000 from register 0. That the step of the call is itself the routine's first SMI
operation, the write of 0x8000, is DEDUCED (log entry 9). -/
def Obligations.ReferenceResetHangsOnPlainPhy : Prop :=
  ∀ s : State, s.SwReady → s.cfg.driver = Driver.reference → s.cfg.phyModel = .simulated →
    ∃ t, exec .phyReset s = .next t ∧ t.hist = s.hist ++ [.smiWr 0 0x8000] ∧
      ∀ n, ∃ u, routineTurns n t = .next u ∧
        u.routine ≠ none ∧ u.hist = t.hist ++ List.replicate n (.smiRd 0 0x8000)

/-- The reference driver's init writes 0x3200 to register 0 and returns in that step (R113's example,
R115). That the step of the call is itself the routine's one SMI operation is DEDUCED (log entry 9). -/
def Obligations.ReferenceInitWritesControl : Prop :=
  ∀ s : State, s.SwReady → s.cfg.driver = Driver.reference →
    exec .phyInit s = .next { s with
      phy := phyWrite s.cfg.phyModel s.phy s.cfg.phyAddr 0 0x3200
      hist := s.hist ++ [.smiWr 0 0x3200]
      ret := .unit }

/-- DMA and IRQ steps interleave with a PHY routine (R112): what they do does not depend on the
routine in progress, and leaves it as it stands. -/
def Obligations.HardwareAgentsInterleaveWithRoutines : Prop :=
  ∀ (s t : State) i r, i.agent ≠ .sw → exec i s = .next t →
    exec i { s with routine := r } = .next { t with routine := r }

/-! ### DMA and completion -/

/-- R116: DMA_TX is enabled exactly on a hardware-owned slot at `tx_hw`; it sends exactly the slot's
`len` bytes, writes the drawn status (any value of `STATUS_W` bits) and hands the slot back. -/
def Obligations.DmaTxSendsFrame : Prop :=
  decode 0x80000000 = .ok .dmaTx ∧
  ∀ (s : State) d, s.fault = none → s.tx.desc[s.tx.hw]? = some d →
    (d.own = .sw → exec .dmaTx s = .fault .txNotEnabled) ∧
    (∀ a, d.own = .hw → d.len ≤ s.cfg.txBufSize → bufAddr s.cfg .tx s.tx.hw = some a →
      exec .dmaTx s =
      .next { s with
        hist := s.hist ++ [.sent (s.mem.readBytes a d.len)]
        tx := { s.tx with
          desc := s.tx.desc.set s.tx.hw { d with own := .sw, status := s.oob.status % 2 ^ s.cfg.statusW }
          hw := (s.tx.hw + 1) % s.cfg.nTx }
        irqPending := true })

/-- R117 and R118: DMA_RX is enabled exactly on a hardware-owned slot at `rx_hw` with a frame of 1 to
`RX_BUF_SIZE` bytes; it writes the frame, its length and the drawn status and hands the slot over. -/
def Obligations.DmaRxLandsFrame : Prop :=
  decode 0x81000000 = .ok .dmaRx ∧
  ∀ (s : State) d, s.fault = none → s.rx.desc[s.rx.hw]? = some d →
    (d.own = .sw → exec .dmaRx s = .fault .rxNotEnabled) ∧
    (d.own = .hw → ¬(1 ≤ s.oob.frame.length ∧ s.oob.frame.length ≤ s.cfg.rxBufSize) →
      exec .dmaRx s = .fault .frameNotOffered) ∧
    (∀ a, d.own = .hw → 1 ≤ s.oob.frame.length → s.oob.frame.length ≤ s.cfg.rxBufSize →
      bufAddr s.cfg .rx s.rx.hw = some a →
      exec .dmaRx s =
      .next { s with
        mem := s.mem.writeBytes a s.oob.frame
        hist := s.hist ++ [.landed s.rx.hw s.oob.frame]
        rx := { s.rx with
          desc := s.rx.desc.set s.rx.hw
            { d with len := s.oob.frame.length, own := .sw, status := s.oob.status % 2 ^ s.cfg.statusW }
          hw := (s.rx.hw + 1) % s.cfg.nRx }
        irqPending := true })

/-- R123: IRQ_DELIVER is enabled exactly while `irq_pending` is 1; it clears the bit and wakes the
registered task once; the cell is emptied when `WAKE_CLEARS` holds. -/
def Obligations.IrqDeliverWakesRegisteredTask : Prop :=
  decode 0x82000000 = .ok .irqDeliver ∧
  ∀ s : State, s.fault = none →
    (s.irqPending = false → exec .irqDeliver s = .fault .irqNotEnabled) ∧
    (s.irqPending = true → s.waker = none → exec .irqDeliver s = .next { s with irqPending := false }) ∧
    (∀ t, s.irqPending = true → s.waker = some t → exec .irqDeliver s =
      .next { s with
        irqPending := false
        hist := s.hist ++ [.woken t]
        waker := if s.cfg.wakeClears = true then none else some t })

/-- Completions coalesce (R132): after any two DMA steps, of either engine and each with drawn values of
its own, one delivery gives the registered task one wake and clears the one pending bit, so a second
delivery is not enabled. -/
def Obligations.CompletionsCoalesce : Prop :=
  ∀ (s t u : State) i j oob task, (i = .dmaTx ∨ i = .dmaRx) → (j = .dmaTx ∨ j = .dmaRx) →
    exec i s = .next t → exec j { t with oob := oob } = .next u → s.waker = some task →
    ∃ v e f, exec .irqDeliver u = .next v ∧ v.hist = s.hist ++ [e, f, .woken task] ∧
      (i = .dmaTx → ∃ b, e = .sent b) ∧ (i = .dmaRx → e = .landed s.rx.hw s.oob.frame) ∧
      (j = .dmaTx → ∃ b, f = .sent b) ∧ (j = .dmaRx → f = .landed t.rx.hw oob.frame) ∧
      v.irqPending = false ∧ exec .irqDeliver v = .fault .irqNotEnabled

/-! ### Memory and frames -/

/-- Every step keeps the memory's canonical form. That form, with the bytes that are not listed reading 0,
is the model's representation of the buffers' bytes (DESIGN CHOICE, log entry 18). -/
def Obligations.StepKeepsMemoryCanonical : Prop :=
  ∀ s t : State, s.mem.wf → step s = .next t → t.mem.wf

/-- No operation but TXT_CONSUME and DMA_RX writes a byte of memory (R49). -/
def Obligations.FrameOfNonStoringOperations : Prop :=
  ∀ i (s t : State), exec i s = .next t → (∀ len, i ≠ .txtConsume len) → i ≠ .dmaRx →
    ∀ x, t.mem.read x = s.mem.read x

/-- TXT_CONSUME's frame (R88): outside the first `len` bytes of the token's TX buffer memory is
unchanged, and so is every element but the TX ring, the result and a recorded fault; of the TX ring,
the hardware cursor, every other slot's descriptor, and the slot's address and status. -/
def Obligations.FrameOfTxtConsume : Prop :=
  ∀ (len : Half) (s t : State), exec (.txtConsume len) s = .next t →
    (∀ a, bufRange s.cfg .tx s.oob.tok.slot len.toNat = some a →
      ∀ x, ¬(a ≤ x ∧ x < a + len.toNat) → t.mem.read x = s.mem.read x) ∧
    { t with mem := s.mem, tx := s.tx, ret := s.ret, fault := s.fault } = s ∧
    t.tx.hw = s.tx.hw ∧
    (∀ k : Nat, k ≠ s.oob.tok.slot → t.tx.desc[k]? = s.tx.desc[k]?) ∧
    (∀ k : Nat, (t.tx.desc[k]?).map (fun d : Desc => (d.addr, d.status)) = (s.tx.desc[k]?).map (fun d : Desc => (d.addr, d.status)))

/-- DMA_RX's frame (R117): outside the frame's bytes at the buffer of slot `rx_hw` memory is unchanged,
and so is every element but the RX ring, `hist` and `irq_pending`; of the RX ring, the software
cursor, the live token, every other slot's descriptor and the slot's address. -/
def Obligations.FrameOfDmaRx : Prop :=
  ∀ s t : State, exec .dmaRx s = .next t →
    (∀ a, bufRange s.cfg .rx s.rx.hw s.oob.frame.length = some a →
      ∀ x, ¬(a ≤ x ∧ x < a + s.oob.frame.length) → t.mem.read x = s.mem.read x) ∧
    { t with mem := s.mem, rx := s.rx, hist := s.hist, irqPending := s.irqPending } = s ∧
    t.rx.next = s.rx.next ∧ t.rx.live = s.rx.live ∧
    (∀ k : Nat, k ≠ s.rx.hw → t.rx.desc[k]? = s.rx.desc[k]?) ∧
    (∀ k : Nat, (t.rx.desc[k]?).map Desc.addr = (s.rx.desc[k]?).map Desc.addr)

/-- Who writes what, over all operations (R41): the configuration, the schedule and the operands are
written by none; memory, each ring, and every other element only by the operations the table names. A
ring's elements are told apart by `CursorAndDescriptorFrames`, and the bytes of memory by
`FrameOfTxtConsume`, `FrameOfDmaRx` and `BuffersAreWrittenByOwnerOnly`. -/
def Obligations.AccessTable : Prop :=
  ∀ i (s t : State), exec i s = .next t →
    t.cfg = s.cfg ∧ t.sched = s.sched ∧ t.oob = s.oob ∧
    (t.mem ≠ s.mem → (∃ len, i = .txtConsume len) ∨ i = .dmaRx) ∧
    (writesTx i = false → t.tx = s.tx) ∧
    (writesRx i = false → t.rx = s.rx) ∧
    (writesPhy i = false → t.phy = s.phy) ∧
    (emits i = false → t.hist = s.hist) ∧
    (t.initialised ≠ s.initialised → i = .qInit) ∧
    (t.irqPending ≠ s.irqPending → i = .qInit ∨ i = .dmaTx ∨ i = .dmaRx ∨ i = .irqDeliver) ∧
    (t.waker ≠ s.waker → (∃ k, i = .adpReceive k ∨ i = .adpTransmit k) ∨ i = .irqDeliver) ∧
    (t.tokGen ≠ s.tokGen → ∃ k, i = .adpReceive k ∨ i = .adpTransmit k) ∧
    (t.routine ≠ s.routine → i = .phyReset ∨ i = .phyInit) ∧
    (i.agent ≠ .sw → t.fault = s.fault ∧ t.ret = s.ret ∧ t.tx.live = s.tx.live ∧ t.rx.live = s.rx.live)

/-- The rings' cursors and descriptors, over all operations (R26, R27, R92): the software cursors move
only at a consume and at Q_INIT, the hardware cursors only at a DMA step and at Q_INIT, and issuing
or expiring a token writes no descriptor. -/
def Obligations.CursorAndDescriptorFrames : Prop :=
  ∀ i (s t : State), exec i s = .next t → i ≠ .qInit →
    ((∀ len, i ≠ .txrTransmit len ∧ i ≠ .txtConsume len) → t.tx.next = s.tx.next) ∧
    (i ≠ .dmaTx → t.tx.hw = s.tx.hw) ∧
    ((∀ len, i ≠ .txrTransmit len ∧ i ≠ .txtConsume len) → i ≠ .dmaTx → t.tx.desc = s.tx.desc) ∧
    (i ≠ .rxrPop → i ≠ .rxtConsume → t.rx.next = s.rx.next) ∧
    (i ≠ .dmaRx → t.rx.hw = s.rx.hw) ∧
    (i ≠ .rxrPop → i ≠ .rxtConsume → i ≠ .dmaRx → t.rx.desc = s.rx.desc)

/-- Hand-offs of ownership, over all operations (R21): software gives a TX slot away only by consuming
a token for it, and an RX slot so or in Q_INIT; the DMA engine hands back only the slot at its cursor. -/
def Obligations.OwnershipFlipsOnlyAtHandOffs : Prop :=
  ∀ i (s t : State) k, exec i s = .next t →
    (s.tx.Owns .sw k → t.tx.Owns .hw k →
      (∃ len, i = .txrTransmit len ∨ i = .txtConsume len) ∧ s.LiveTx ∧ k = s.oob.tok.slot) ∧
    (s.tx.Owns .hw k → t.tx.Owns .sw k → i = .dmaTx ∧ k = s.tx.hw) ∧
    (s.rx.Owns .sw k → t.rx.Owns .hw k →
      i = .qInit ∨ ((i = .rxrPop ∨ i = .rxtConsume) ∧ s.LiveRx ∧ k = s.oob.tok.slot)) ∧
    (s.rx.Owns .hw k → t.rx.Owns .sw k → i = .dmaRx ∧ k = s.rx.hw)

/-! ### Invariants -/

/-- The value of every state element after reset, for every configuration (R42); of memory, every byte of
every buffer. -/
def Obligations.ResetValues : Prop :=
  ∀ c : Config,
    (State.resetOf c).cfg = c ∧
    (State.resetOf c).tx.desc = c.txAddr.map (fun a => ⟨a, 0, .sw, 0⟩) ∧
    (State.resetOf c).rx.desc = c.rxAddr.map (fun a => ⟨a, 0, .sw, 0⟩) ∧
    (∀ ring k x, InBuf c ring k x → (State.resetOf c).mem.read x = 0) ∧
    (State.resetOf c).tx.next = 0 ∧ (State.resetOf c).tx.hw = 0 ∧ (State.resetOf c).tx.live = none ∧
    (State.resetOf c).rx.next = 0 ∧ (State.resetOf c).rx.hw = 0 ∧ (State.resetOf c).rx.live = none ∧
    (State.resetOf c).tokGen = 0 ∧ (State.resetOf c).waker = none ∧
    (State.resetOf c).irqPending = false ∧ (State.resetOf c).initialised = false ∧
    (State.resetOf c).fault = none ∧ (State.resetOf c).phy = c.phyResetRegs ∧ (State.resetOf c).hist = []

/-- R10: parameters outside R10 and R44 are refused at construction, the others construct the reset
state, and no state has a configuration outside them. -/
def Obligations.IllegalConfigurationIsRefused : Prop :=
  (∀ p : Params, ¬p.Legal → construct p = .refused .badConfiguration) ∧
  (∀ p : Params, p.Legal → ∃ c : Config, c.toParams = p ∧ construct p = .next (State.resetOf c)) ∧
  (∀ s : State, s.cfg.toParams.Legal)

/-- The invariant holds after reset, in every configuration. -/
def Obligations.ResetMeetsInvariant : Prop :=
  (∀ c : Config, (State.resetOf c).Inv) ∧ State.reset.Inv

/-- Every step keeps the invariant: canonical memory, bound descriptors and cursors in range (R22, R26,
R27), fields within their widths (R9, R19), lengths (R23), the circular intervals of both rings (R28, R29), and live tokens naming
software-owned cursor slots (R32, R84). -/
def Obligations.StepKeepsInvariant : Prop :=
  ∀ s t : State, s.Inv → step s = .next t → t.Inv

/-- Every step keeps the descriptors bound to their buffers and the cursors in range, with no other
premise (R22, R26, R27, R81), and never writes the configuration. -/
def Obligations.StepKeepsRingShape : Prop :=
  ∀ s t : State, s.tx.Shaped s.cfg.txAddr → s.rx.Shaped s.cfg.rxAddr → step s = .next t →
    t.cfg = s.cfg ∧ t.tx.Shaped t.cfg.txAddr ∧ t.rx.Shaped t.cfg.rxAddr

/-- R84: under the invariant a live token names a software-owned slot, so no step records
`SLOT_NOT_SW`; and no step reaches outside the rings or the buffers. -/
def Obligations.SlotNotSwIsUnreachable : Prop :=
  ∀ s : State, s.Inv →
    (∀ l, s.tx.live = some l → s.tx.Owns .sw l.slot) ∧ (∀ l, s.rx.live = some l → s.rx.Owns .sw l.slot) ∧
    (∀ t ring k, step s = .next t → t.fault ≠ some (.slotNotSw ring k)) ∧
    step s ≠ .fault .noSuchSlot ∧ step s ≠ .fault .outsideBuffer

/-- The last sentences of R28 and R29: when a ring's two cursors meet, every slot of it has one owner,
and the descriptor at the software cursor tells which: a full from an empty TX ring (`tx_hw = tx_next`),
and on the RX ring `N_RX` unread frames from none (`rx_next = rx_hw`). -/
def Obligations.FullOrEmptyToldByCursorSlot : Prop :=
  ∀ s : State, s.Inv →
    (s.tx.hw = s.tx.next → ∀ o, s.tx.Owns o s.tx.next → ∀ k < s.cfg.nTx, s.tx.Owns o k) ∧
    (s.rx.next = s.rx.hw → ∀ o, s.rx.Owns o s.rx.next → ∀ k < s.cfg.nRx, s.rx.Owns o k)

/-- Every step only appends to the history (R40), leaves `initialised` set once Q_INIT has run (R35) and
never takes the generation counter back (R31). -/
def Obligations.HistoryAndCountersOnlyGrow : Prop :=
  ∀ s t : State, step s = .next t →
    (∃ es, t.hist = s.hist ++ es) ∧ (s.initialised = true → t.initialised = true) ∧ s.tokGen ≤ t.tokGen

/-- R31: a token issued before, and not live, is never live again. -/
def Obligations.DeadTokenStaysDead : Prop :=
  ∀ (s t : State) tok, step s = .next t → tok.gen < s.tokGen → ¬s.TokenLive tok →
    tok.gen < t.tokGen ∧ ¬t.TokenLive tok

/-- R90: a second consume of the same token, by any of the four consuming operations, faults with
`NO_LIVE_TOKEN`, and so does a consume of a token after ADP_ENDPOLL. -/
def Obligations.SecondConsumeFaults : Prop :=
  ∀ (s t : State) i j,
    ((∃ len, i = .txrTransmit len ∨ i = .txtConsume len) ∨ i = .rxrPop ∨ i = .rxtConsume ∨ i = .adpEndpoll) →
    ((∃ len, j = .txrTransmit len ∨ j = .txtConsume len) ∨ j = .rxrPop ∨ j = .rxtConsume) →
    s.initialised = true → exec i s = .next t → t.fault = none →
    ∃ op, exec j t = .next { t with fault := some (.noLiveToken op s.oob.tok) }

/-- R91 and R120, the writes, by agent and ring. No operation of `SW` changes a byte of a hardware-owned
slot's buffer, and none of the DMA engine a byte of a software-owned slot's, on either ring. A byte that
changes lies, at a TXT_CONSUME, in the first `len` bytes of the live token's software-owned TX slot, and
at a DMA_RX in the frame's bytes of the hardware-owned RX slot at `rx_hw`. A routine's turn changes none,
and a step none of a hardware-owned TX slot, of a software-owned RX slot, or outside the buffers (R43). -/
def Obligations.BuffersAreWrittenByOwnerOnly : Prop :=
  (∀ i (s t : State), exec i s = .next t → ∀ ring k x o,
    (s.ring ring).Owns o k → o ≠ sideOf i.agent → InBuf s.cfg ring k x → t.mem.read x = s.mem.read x) ∧
  (∀ i (s t : State), exec i s = .next t → ∀ x, t.mem.read x ≠ s.mem.read x →
    (∃ len a, i = .txtConsume len ∧ s.LiveTx ∧ s.tx.Owns .sw s.oob.tok.slot ∧
      bufAddr s.cfg .tx s.oob.tok.slot = some a ∧ len.toNat ≤ s.cfg.txBufSize ∧ a ≤ x ∧ x < a + len.toNat) ∨
    (∃ a, i = .dmaRx ∧ s.rx.Owns .hw s.rx.hw ∧ bufAddr s.cfg .rx s.rx.hw = some a ∧
      s.oob.frame.length ≤ s.cfg.rxBufSize ∧ a ≤ x ∧ x < a + s.oob.frame.length)) ∧
  (∀ s t : State, routineTurn s = .next t → t.mem = s.mem) ∧
  (∀ s t : State, step s = .next t → ∀ x,
    ((∃ k, s.tx.Owns .hw k ∧ InBuf s.cfg .tx k x) ∨ (∃ k, s.rx.Owns .sw k ∧ InBuf s.cfg .rx k x) ∨
      (∀ ring k, ¬InBuf s.cfg ring k x)) →
    t.mem.read x = s.mem.read x)

/-- R145: Q_INIT from reset reaches a state that meets `BOOTED`, in every configuration. -/
def Obligations.QInitFromResetBoots : Prop :=
  ∀ c : Config, ∃ t, exec .qInit (State.resetOf c) = .next t ∧ t.Booted

/-! ### Whole exchanges -/

/-- Round trip (R88, R116): on a TX ring with nothing in flight, a `transmit(L, F)` returns `true` (R74),
and what it leaves in its `L` bytes is exactly what the next DMA_TX sends. -/
def Obligations.TransmittedBytesAreSent : Prop :=
  ∀ (s : State) task (len : Half) f a, s.Inv → s.SwReady → s.tx.live = none → s.tx.hw = s.tx.next →
    s.tx.Owns .sw s.tx.next → 1 ≤ len.toNat → len.toNat ≤ s.cfg.txBufSize →
    bufAddr s.cfg .tx s.tx.next = some a →
    ∃ t u, transmitPseudo task len f s = .next t ∧ t.ret = .flag true ∧ exec .dmaTx t = .next u ∧
      u.hist = s.hist ++ [.sent (applyTxFun f (s.mem.readBytes a len.toNat)).1]

/-- Receive (R117, R89): on an RX ring with every slot armed, the frame the next DMA_RX lands is
exactly what the next `receive(G)` delivers. -/
def Obligations.LandedBytesAreDelivered : Prop :=
  ∀ (s : State) task g, s.Inv → s.SwReady → s.initialised = true →
    s.rx.live = none → s.rx.hw = s.rx.next → s.rx.Owns .hw s.rx.next →
    s.tx.live = none → s.tx.Owns .sw s.tx.next →
    1 ≤ s.oob.frame.length → s.oob.frame.length ≤ s.cfg.rxBufSize →
    ∃ t u, exec .dmaRx s = .next t ∧ receivePseudo task g t = .next u ∧
      u.hist = s.hist ++ [.landed s.rx.next s.oob.frame, .delivered s.rx.next s.oob.frame] ∧
      u.ret = .caller (applyRxFun g s.oob.frame)

/-- The capacity law (R83), for every ring depth: from a TX ring with every slot software-owned,
`N_TX` submissions in a row succeed (each `transmit` returns `true`, R74), then TXR_AVAIL returns none and
a further `transmit` returns `false` and registers its task; after one DMA_TX exactly one more succeeds,
and TXR_AVAIL returns none again. -/
def Obligations.RingTakesExactlyItsDepth : Prop :=
  ∀ (s : State) task (len : Half) f, s.Inv → s.SwReady → s.tx.live = none →
    (∀ k < s.cfg.nTx, s.tx.Owns .sw k) → 1 ≤ len.toNat → len.toNat ≤ s.cfg.txBufSize →
    ∃ t t' r u u' v v', submitMany task len f s.cfg.nTx s = .next t ∧ t.ret = .flag true ∧ t.waker = s.waker ∧
      exec .txrAvail t = .next t' ∧ t'.ret = .txSlot none ∧
      transmitPseudo task len f t = .next r ∧ r.ret = .flag false ∧ r.waker = some task ∧
      exec .dmaTx t = .next u ∧ exec .txrAvail u = .next u' ∧ u'.ret = .txSlot (some s.tx.next) ∧
      transmitPseudo task len f u = .next v ∧ v.ret = .flag true ∧ v.waker = s.waker ∧
      exec .txrAvail v = .next v' ∧ v'.ret = .txSlot none

/-! ### Reads of buffers -/

/-- R91 and R120, the reads, by operation and slot. What an operation does depends on memory only through
the buffers it reads: at a token consume that of the live token's slot, at DMA_TX that of the slot at
`tx_hw`, each owned by the agent's side, and at every other operation none (R57: RXR_AVAIL hands out a
view and reads no byte of it). On two memories that agree there, the next states agree but for memory, and
there wherever the two memories agreed. A routine's turn reads none. As long as a view is the result, its
slot stays software-owned and it shows the same bytes, through every step (log entry 22). -/
def Obligations.BuffersAreReadByOwnerOnly : Prop :=
  (∀ i (s t : State) m, exec i s = .next t →
    (∀ ring k x, s.Reads i ring k → (s.ring ring).Owns (sideOf i.agent) k → InBuf s.cfg ring k x →
      m.read x = s.mem.read x) →
    ∃ m', exec i { s with mem := m } = .next { t with mem := m' } ∧
      (m.wf → s.mem.wf → ∀ x, m.read x = s.mem.read x → m'.read x = t.mem.read x)) ∧
  (∀ (s t : State) m, routineTurn s = .next t → routineTurn { s with mem := m } = .next { t with mem := m }) ∧
  (∀ (s t : State) k v, s.ret = .rxFrame (some (k, v)) → s.rx.Owns .sw k →
    bufRange s.cfg .rx k v.len = some v.addr → step s = .next t →
    viewBytes t.mem v = viewBytes s.mem v ∧ (t.ret = s.ret → t.rx.Owns .sw k))
end

