-- ==== Sys2Proof/Laws/Decode.lean ====
section
/-! SUPPORT. The fields of a laid word (R63, R64), read back by the decoder's accessors. -/

namespace Sys2Proof

/-- Every bit of a laid word. -/
theorem layWord_getLsbD (op : BitVec 8) (reg : Nat) (low : Half) (i : Nat) :
    (layWord op reg low).getLsbD i =
      if i < 16 then low.getLsbD i else if i < 21 then (BitVec.ofNat 5 reg).getLsbD (i - 16)
      else if i < 24 then false else op.getLsbD (i - 24) := by
  have e : layWord op reg low = BitVec.cast (n := 8 + (3 + (5 + 16))) (by decide : 8 + (3 + (5 + 16)) = 32)
      (op ++ (0#3 ++ (BitVec.ofNat 5 reg ++ low))) := rfl
  rw [e, BitVec.getLsbD_cast, BitVec.getLsbD_append, BitVec.getLsbD_append, BitVec.getLsbD_append]
  by_cases h1 : i < 16
  · simp [h1, show i < 21 by omega, show i < 24 by omega]
  by_cases h2 : i < 21
  · simp only [h1, h2, show i < 24 by omega]; simp
  by_cases h3 : i < 24
  · simp [h1, h2, h3]
  · simp [h1, h2, h3]

theorem opcodeField_layWord (op : BitVec 8) (reg : Nat) (low : Half) : opcodeField (layWord op reg low) = op := by
  apply BitVec.eq_of_getLsbD_eq; intro i hi
  rw [opcodeField, BitVec.getLsbD_extractLsb', layWord_getLsbD]
  simp [hi, show ¬24 + i < 16 by omega, show ¬24 + i < 21 by omega]

theorem lowField_layWord (op : BitVec 8) (reg : Nat) (low : Half) : lowField (layWord op reg low) = low := by
  apply BitVec.eq_of_getLsbD_eq; intro i hi
  rw [lowField, BitVec.getLsbD_extractLsb', layWord_getLsbD]
  simp [hi]

theorem regField_layWord (op : BitVec 8) (reg : Nat) (low : Half) (h : reg ≤ 31) :
    regField (layWord op reg low) = reg := by
  have e : (layWord op reg low).extractLsb' 16 5 = BitVec.ofNat 5 reg := by
    apply BitVec.eq_of_getLsbD_eq; intro i hi
    rw [BitVec.getLsbD_extractLsb', layWord_getLsbD]
    simp [hi, show 16 + i < 21 by omega]
  rw [regField, e, BitVec.toNat_ofNat]; omega

/-- A laid word as the rules write it: opcode, register and low field joined by a bitwise or. -/
theorem layWord_eq_or (op : BitVec 8) (reg : Nat) (low : Half) (h : reg ≤ 31) :
    layWord op reg low = (op.setWidth 32 <<< 24) ||| (BitVec.ofNat 32 reg <<< 16) ||| low.setWidth 32 := by
  apply BitVec.eq_of_getLsbD_eq; intro i hi
  have hr : ∀ k, 5 ≤ k → reg.testBit k = false := fun k hk =>
    Nat.testBit_lt_two_pow (lt_of_le_of_lt h (lt_of_lt_of_le (by decide : 31 < 2 ^ 5) (Nat.pow_le_pow_right (by decide) hk)))
  rw [layWord_getLsbD]
  simp only [BitVec.getLsbD_or, BitVec.getLsbD_shiftLeft, BitVec.getLsbD_setWidth, BitVec.getLsbD_ofNat, hi]
  by_cases h1 : i < 16
  · simp [h1, show i < 24 by omega]
  have hl : low.getLsbD i = false := BitVec.getLsbD_of_ge _ _ (by omega)
  by_cases h2 : i < 21
  · simp [h1, h2, hl, show i < 24 by omega, show i - 16 < 5 by omega, show i - 16 < 32 by omega]
  by_cases h3 : i < 24
  · simp [h1, h2, h3, hl, hr (i - 16) (by omega)]
  · simp [h1, h2, h3, hl, hr (i - 16) (by omega), show i - 24 < 32 by omega]

end Sys2Proof
end

