-- ==== Sys2Proof/Laws/Memory.lean ====
section
/-! SUPPORT. Memory keeps its canonical form, and a byte reads as it was last written. -/

namespace Sys2Proof.Machine

@[simp] theorem Memory.read_nil (a : Nat) : Memory.read [] a = Memory.unlisted := rfl

@[simp] theorem Memory.writeBytes_nil (m : Memory) (a : Nat) : m.writeBytes a [] = m := rfl

@[simp] theorem Memory.writeBytes_cons (m : Memory) (a : Nat) (b : Byte) (bs : List Byte) :
    m.writeBytes a (b :: bs) = (m.write a b).writeBytes (a + 1) bs := rfl

@[simp] theorem Memory.length_readBytes (m : Memory) (a n : Nat) : (m.readBytes a n).length = n := by
  simp [Memory.readBytes]

theorem Memory.getElem_readBytes (m : Memory) (a n k : Nat) (h : k < (m.readBytes a n).length) :
    (m.readBytes a n)[k] = m.read (a + k) := by
  simp [Memory.readBytes]

@[simp] theorem length_viewBytes (m : Memory) (v : View) : (viewBytes m v).length = v.len :=
  Memory.length_readBytes m v.addr v.len

/-- A byte sequence depends on memory only through its own bytes. -/
theorem Memory.readBytes_congr {m m' : Memory} {a n : Nat} (h : ∀ x, a ≤ x → x < a + n → m.read x = m'.read x) :
    m.readBytes a n = m'.readBytes a n := by
  unfold Memory.readBytes
  refine List.map_congr_left fun k hk => h _ (by omega) ?_
  have := List.mem_range.1 hk
  omega

/-- A view shows the same bytes in two memories that agree on them. -/
theorem viewBytes_congr {m m' : Memory} {v : View}
    (h : ∀ x, v.addr ≤ x → x < v.addr + v.len → m.read x = m'.read x) : viewBytes m v = viewBytes m' v :=
  Memory.readBytes_congr h

/-- A listed cell after a write is the written one or was listed before. -/
theorem Memory.mem_write {m : Memory} {a : Nat} {b : Byte} {c : Host.Cell} (h : c ∈ m.write a b) :
    c = (a, b) ∨ c ∈ m := by
  induction m with
  | nil => unfold Memory.write at h; split at h <;> simp_all
  | cons d m ih =>
    unfold Memory.write at h
    split_ifs at h <;> simp only [List.mem_cons] at h ⊢ <;> tauto

/-- A cell written above a bound leaves every cell above that bound. -/
theorem Memory.write_above (m : Memory) (a x : Nat) (b : Byte) (h : ∀ c ∈ m, x < c.1) (hx : x < a) :
    ∀ c ∈ m.write a b, x < c.1 := by
  intro c hc
  rcases Memory.mem_write hc with rfl | hc
  · exact hx
  · exact h c hc

/-- Writing a byte keeps the canonical form. -/
theorem Memory.write_wf {m : Memory} (h : m.wf) (a : Nat) (b : Byte) : (m.write a b).wf := by
  obtain ⟨hp, hn⟩ := h
  induction m with
  | nil => unfold Memory.write; split <;> simp_all [Memory.wf]
  | cons c m ih =>
    rw [List.pairwise_cons] at hp
    have hn' : ∀ d ∈ m, d.2 ≠ Memory.unlisted := fun d hd => hn d (by simp [hd])
    have hm := ih hp.2 hn'
    unfold Memory.write
    by_cases h1 : a < c.1
    · by_cases hb : b = Memory.unlisted
      · simp only [h1, hb, if_true]
        exact ⟨List.pairwise_cons.2 hp, hn⟩
      · simp only [h1, hb, if_true, if_false]
        refine ⟨List.pairwise_cons.2 ⟨?_, List.pairwise_cons.2 hp⟩, ?_⟩
        · intro d hd
          rcases List.mem_cons.1 hd with rfl | hd
          · exact h1
          · exact lt_trans h1 (hp.1 d hd)
        · intro d hd
          rcases List.mem_cons.1 hd with rfl | hd
          · exact hb
          · exact hn d hd
    · by_cases h2 : a = c.1
      · by_cases hb : b = Memory.unlisted
        · simp only [h2, hb, if_true, lt_irrefl, if_false]
          exact ⟨hp.2, hn'⟩
        · simp only [h2, hb, if_true, if_false, lt_irrefl]
          refine ⟨List.pairwise_cons.2 ⟨hp.1, hp.2⟩, ?_⟩
          intro d hd
          rcases List.mem_cons.1 hd with rfl | hd
          · exact hb
          · exact hn' d hd
      · simp only [h1, h2, if_false]
        refine ⟨List.pairwise_cons.2 ⟨Memory.write_above m a c.1 b hp.1 (by omega), hm.1⟩, ?_⟩
        intro d hd
        rcases List.mem_cons.1 hd with rfl | hd
        · exact hn _ (by simp)
        · exact hm.2 d hd

/-- Writing a byte sequence keeps the canonical form. -/
theorem Memory.writeBytes_wf {m : Memory} (h : m.wf) (a : Nat) (bs : List Byte) : (m.writeBytes a bs).wf := by
  induction bs generalizing m a with
  | nil => exact h
  | cons b bs ih => exact ih (Memory.write_wf h a b) (a + 1)

theorem Memory.nil_wf : Memory.wf [] := by simp [Memory.wf]

/-- In a canonical memory, an address below every listed one is unlisted. -/
theorem Memory.read_below (m : Memory) (x : Nat) (h : ∀ c ∈ m, x < c.1) : m.read x = Memory.unlisted := by
  induction m with
  | nil => rfl
  | cons c m ih =>
    have hc := h c (by simp)
    unfold Memory.read
    rw [if_neg (by omega)]
    exact ih fun d hd => h d (by simp [hd])

/-- A byte reads as written, and every other address reads as before. -/
theorem Memory.read_write {m : Memory} (h : m.wf) (a x : Nat) (b : Byte) :
    (m.write a b).read x = if x = a then b else m.read x := by
  obtain ⟨hp, hn⟩ := h
  induction m with
  | nil =>
    unfold Memory.write
    by_cases hb : b = Memory.unlisted
    · simp [hb]
    · by_cases hx : x = a
      · simp [hb, hx, Memory.read]
      · simp [hb, hx, Memory.read, Ne.symm hx]
  | cons c m ih =>
    rw [List.pairwise_cons] at hp
    have hn' : ∀ d ∈ m, d.2 ≠ Memory.unlisted := fun d hd => hn d (by simp [hd])
    have hr := ih hp.2 hn'
    unfold Memory.write
    by_cases h1 : a < c.1
    · have hlow : Memory.read (c :: m) a = Memory.unlisted :=
        Memory.read_below _ a fun d hd => by
          rcases List.mem_cons.1 hd with rfl | hd
          · exact h1
          · exact lt_trans h1 (hp.1 d hd)
      by_cases hb : b = Memory.unlisted
      · simp only [h1, hb, if_true]
        by_cases hx : x = a
        · simp [hx, hlow]
        · simp [hx]
      · simp only [h1, hb, if_true, if_false]
        by_cases hx : x = a
        · simp [hx, Memory.read]
        · rw [Memory.read]; simp [hx, Ne.symm hx]
    · by_cases h2 : a = c.1
      · have hlow : Memory.read m a = Memory.unlisted :=
          Memory.read_below _ a fun d hd => by rw [h2]; exact hp.1 d hd
        subst h2
        by_cases hb : b = Memory.unlisted
        · simp only [hb, if_true, if_false, lt_irrefl]
          by_cases hx : x = c.1
          · simp [hx, hlow]
          · rw [if_neg hx]; conv_rhs => rw [Memory.read]
            rw [if_neg (Ne.symm hx)]
        · simp only [hb, if_true, if_false, lt_irrefl]
          by_cases hx : x = c.1
          · simp [hx, Memory.read]
          · simp [hx, Memory.read, Ne.symm hx]
      · simp only [h1, h2, if_false]
        rw [Memory.read, hr]
        by_cases hx : x = a
        · subst hx
          rw [if_neg (fun h => h2 h.symm)]
          simp
        · simp [hx, Memory.read]

/-- A byte sequence reads as written, and every address outside it reads as before. -/
theorem Memory.read_writeBytes {m : Memory} (h : m.wf) (a x : Nat) (bs : List Byte) :
    (m.writeBytes a bs).read x =
      if hx : a ≤ x ∧ x < a + bs.length then bs[x - a]'(by omega) else m.read x := by
  induction bs generalizing m a with
  | nil =>
    simp only [Memory.writeBytes_nil, List.length_nil]
    rw [dif_neg (by omega)]
  | cons b bs ih =>
    rw [Memory.writeBytes_cons, ih (Memory.write_wf h a b) (a + 1), Memory.read_write h]
    simp only [List.length_cons]
    by_cases h1 : a + 1 ≤ x ∧ x < a + 1 + bs.length
    · rw [dif_pos h1, dif_pos (by omega)]
      obtain ⟨k, rfl⟩ : ∃ k, x = a + 1 + k := ⟨x - (a + 1), by omega⟩
      have e1 : a + 1 + k - (a + 1) = k := by omega
      have e2 : a + 1 + k - a = k + 1 := by omega
      simp [e1, e2]
    · rw [dif_neg h1]
      by_cases h2 : x = a
      · subst h2
        simp
      · rw [if_neg h2, dif_neg (by omega)]

/-- What was written is read back. -/
theorem Memory.readBytes_writeBytes {m : Memory} (h : m.wf) (a : Nat) (bs : List Byte) :
    (m.writeBytes a bs).readBytes a bs.length = bs := by
  apply List.ext_getElem
  · simp
  · intro k h1 h2
    rw [Memory.getElem_readBytes, Memory.read_writeBytes h, dif_pos (by omega)]
    simp

/-- A write leaves every other address as it was, whatever form the memory has. -/
theorem Memory.read_write_ne (m : Memory) {a x : Nat} (b : Byte) (h : x ≠ a) : (m.write a b).read x = m.read x := by
  induction m with
  | nil => unfold Memory.write; split <;> simp [Memory.read, Ne.symm h]
  | cons c m ih =>
    unfold Memory.write
    have h' : a ≠ x := Ne.symm h
    split_ifs <;> simp_all [Memory.read]

/-- A byte sequence leaves every address outside it as it was, whatever form the memory has. -/
theorem Memory.read_writeBytes_outside (m : Memory) {a x : Nat} (bs : List Byte)
    (h : ¬(a ≤ x ∧ x < a + bs.length)) : (m.writeBytes a bs).read x = m.read x := by
  induction bs generalizing m a with
  | nil => rfl
  | cons b bs ih =>
    simp only [List.length_cons] at h
    rw [Memory.writeBytes_cons, ih _ (by omega), Memory.read_write_ne _ _ (by omega)]

end Sys2Proof.Machine
end

