-- ==== Sys2Proof/Laws/State.lean ====
section
/-! SUPPORT. What each named field update gives at each field, and the fields of reset. -/

namespace Sys2Proof.Machine

variable (s : State)

section setTx
variable (v : Ring)
@[simp] theorem State.setTx_cfg : (s.setTx v).cfg = s.cfg := rfl
@[simp] theorem State.setTx_tx : (s.setTx v).tx = v := rfl
@[simp] theorem State.setTx_rx : (s.setTx v).rx = s.rx := rfl
@[simp] theorem State.setTx_mem : (s.setTx v).mem = s.mem := rfl
@[simp] theorem State.setTx_tokGen : (s.setTx v).tokGen = s.tokGen := rfl
@[simp] theorem State.setTx_waker : (s.setTx v).waker = s.waker := rfl
@[simp] theorem State.setTx_irqPending : (s.setTx v).irqPending = s.irqPending := rfl
@[simp] theorem State.setTx_initialised : (s.setTx v).initialised = s.initialised := rfl
@[simp] theorem State.setTx_fault : (s.setTx v).fault = s.fault := rfl
@[simp] theorem State.setTx_phy : (s.setTx v).phy = s.phy := rfl
@[simp] theorem State.setTx_hist : (s.setTx v).hist = s.hist := rfl
@[simp] theorem State.setTx_routine : (s.setTx v).routine = s.routine := rfl
@[simp] theorem State.setTx_oob : (s.setTx v).oob = s.oob := rfl
@[simp] theorem State.setTx_sched : (s.setTx v).sched = s.sched := rfl
@[simp] theorem State.setTx_ret : (s.setTx v).ret = s.ret := rfl
end setTx

section setRx
variable (v : Ring)
@[simp] theorem State.setRx_cfg : (s.setRx v).cfg = s.cfg := rfl
@[simp] theorem State.setRx_tx : (s.setRx v).tx = s.tx := rfl
@[simp] theorem State.setRx_rx : (s.setRx v).rx = v := rfl
@[simp] theorem State.setRx_mem : (s.setRx v).mem = s.mem := rfl
@[simp] theorem State.setRx_tokGen : (s.setRx v).tokGen = s.tokGen := rfl
@[simp] theorem State.setRx_waker : (s.setRx v).waker = s.waker := rfl
@[simp] theorem State.setRx_irqPending : (s.setRx v).irqPending = s.irqPending := rfl
@[simp] theorem State.setRx_initialised : (s.setRx v).initialised = s.initialised := rfl
@[simp] theorem State.setRx_fault : (s.setRx v).fault = s.fault := rfl
@[simp] theorem State.setRx_phy : (s.setRx v).phy = s.phy := rfl
@[simp] theorem State.setRx_hist : (s.setRx v).hist = s.hist := rfl
@[simp] theorem State.setRx_routine : (s.setRx v).routine = s.routine := rfl
@[simp] theorem State.setRx_oob : (s.setRx v).oob = s.oob := rfl
@[simp] theorem State.setRx_sched : (s.setRx v).sched = s.sched := rfl
@[simp] theorem State.setRx_ret : (s.setRx v).ret = s.ret := rfl
end setRx

section setMem
variable (v : Memory)
@[simp] theorem State.setMem_cfg : (s.setMem v).cfg = s.cfg := rfl
@[simp] theorem State.setMem_tx : (s.setMem v).tx = s.tx := rfl
@[simp] theorem State.setMem_rx : (s.setMem v).rx = s.rx := rfl
@[simp] theorem State.setMem_mem : (s.setMem v).mem = v := rfl
@[simp] theorem State.setMem_tokGen : (s.setMem v).tokGen = s.tokGen := rfl
@[simp] theorem State.setMem_waker : (s.setMem v).waker = s.waker := rfl
@[simp] theorem State.setMem_irqPending : (s.setMem v).irqPending = s.irqPending := rfl
@[simp] theorem State.setMem_initialised : (s.setMem v).initialised = s.initialised := rfl
@[simp] theorem State.setMem_fault : (s.setMem v).fault = s.fault := rfl
@[simp] theorem State.setMem_phy : (s.setMem v).phy = s.phy := rfl
@[simp] theorem State.setMem_hist : (s.setMem v).hist = s.hist := rfl
@[simp] theorem State.setMem_routine : (s.setMem v).routine = s.routine := rfl
@[simp] theorem State.setMem_oob : (s.setMem v).oob = s.oob := rfl
@[simp] theorem State.setMem_sched : (s.setMem v).sched = s.sched := rfl
@[simp] theorem State.setMem_ret : (s.setMem v).ret = s.ret := rfl
end setMem

section setTokGen
variable (v : Nat)
@[simp] theorem State.setTokGen_cfg : (s.setTokGen v).cfg = s.cfg := rfl
@[simp] theorem State.setTokGen_tx : (s.setTokGen v).tx = s.tx := rfl
@[simp] theorem State.setTokGen_rx : (s.setTokGen v).rx = s.rx := rfl
@[simp] theorem State.setTokGen_mem : (s.setTokGen v).mem = s.mem := rfl
@[simp] theorem State.setTokGen_tokGen : (s.setTokGen v).tokGen = v := rfl
@[simp] theorem State.setTokGen_waker : (s.setTokGen v).waker = s.waker := rfl
@[simp] theorem State.setTokGen_irqPending : (s.setTokGen v).irqPending = s.irqPending := rfl
@[simp] theorem State.setTokGen_initialised : (s.setTokGen v).initialised = s.initialised := rfl
@[simp] theorem State.setTokGen_fault : (s.setTokGen v).fault = s.fault := rfl
@[simp] theorem State.setTokGen_phy : (s.setTokGen v).phy = s.phy := rfl
@[simp] theorem State.setTokGen_hist : (s.setTokGen v).hist = s.hist := rfl
@[simp] theorem State.setTokGen_routine : (s.setTokGen v).routine = s.routine := rfl
@[simp] theorem State.setTokGen_oob : (s.setTokGen v).oob = s.oob := rfl
@[simp] theorem State.setTokGen_sched : (s.setTokGen v).sched = s.sched := rfl
@[simp] theorem State.setTokGen_ret : (s.setTokGen v).ret = s.ret := rfl
end setTokGen

section setWaker
variable (v : Option TaskId)
@[simp] theorem State.setWaker_cfg : (s.setWaker v).cfg = s.cfg := rfl
@[simp] theorem State.setWaker_tx : (s.setWaker v).tx = s.tx := rfl
@[simp] theorem State.setWaker_rx : (s.setWaker v).rx = s.rx := rfl
@[simp] theorem State.setWaker_mem : (s.setWaker v).mem = s.mem := rfl
@[simp] theorem State.setWaker_tokGen : (s.setWaker v).tokGen = s.tokGen := rfl
@[simp] theorem State.setWaker_waker : (s.setWaker v).waker = v := rfl
@[simp] theorem State.setWaker_irqPending : (s.setWaker v).irqPending = s.irqPending := rfl
@[simp] theorem State.setWaker_initialised : (s.setWaker v).initialised = s.initialised := rfl
@[simp] theorem State.setWaker_fault : (s.setWaker v).fault = s.fault := rfl
@[simp] theorem State.setWaker_phy : (s.setWaker v).phy = s.phy := rfl
@[simp] theorem State.setWaker_hist : (s.setWaker v).hist = s.hist := rfl
@[simp] theorem State.setWaker_routine : (s.setWaker v).routine = s.routine := rfl
@[simp] theorem State.setWaker_oob : (s.setWaker v).oob = s.oob := rfl
@[simp] theorem State.setWaker_sched : (s.setWaker v).sched = s.sched := rfl
@[simp] theorem State.setWaker_ret : (s.setWaker v).ret = s.ret := rfl
end setWaker

section setIrqPending
variable (v : Bool)
@[simp] theorem State.setIrqPending_cfg : (s.setIrqPending v).cfg = s.cfg := rfl
@[simp] theorem State.setIrqPending_tx : (s.setIrqPending v).tx = s.tx := rfl
@[simp] theorem State.setIrqPending_rx : (s.setIrqPending v).rx = s.rx := rfl
@[simp] theorem State.setIrqPending_mem : (s.setIrqPending v).mem = s.mem := rfl
@[simp] theorem State.setIrqPending_tokGen : (s.setIrqPending v).tokGen = s.tokGen := rfl
@[simp] theorem State.setIrqPending_waker : (s.setIrqPending v).waker = s.waker := rfl
@[simp] theorem State.setIrqPending_irqPending : (s.setIrqPending v).irqPending = v := rfl
@[simp] theorem State.setIrqPending_initialised : (s.setIrqPending v).initialised = s.initialised := rfl
@[simp] theorem State.setIrqPending_fault : (s.setIrqPending v).fault = s.fault := rfl
@[simp] theorem State.setIrqPending_phy : (s.setIrqPending v).phy = s.phy := rfl
@[simp] theorem State.setIrqPending_hist : (s.setIrqPending v).hist = s.hist := rfl
@[simp] theorem State.setIrqPending_routine : (s.setIrqPending v).routine = s.routine := rfl
@[simp] theorem State.setIrqPending_oob : (s.setIrqPending v).oob = s.oob := rfl
@[simp] theorem State.setIrqPending_sched : (s.setIrqPending v).sched = s.sched := rfl
@[simp] theorem State.setIrqPending_ret : (s.setIrqPending v).ret = s.ret := rfl
end setIrqPending

section setInitialised
variable (v : Bool)
@[simp] theorem State.setInitialised_cfg : (s.setInitialised v).cfg = s.cfg := rfl
@[simp] theorem State.setInitialised_tx : (s.setInitialised v).tx = s.tx := rfl
@[simp] theorem State.setInitialised_rx : (s.setInitialised v).rx = s.rx := rfl
@[simp] theorem State.setInitialised_mem : (s.setInitialised v).mem = s.mem := rfl
@[simp] theorem State.setInitialised_tokGen : (s.setInitialised v).tokGen = s.tokGen := rfl
@[simp] theorem State.setInitialised_waker : (s.setInitialised v).waker = s.waker := rfl
@[simp] theorem State.setInitialised_irqPending : (s.setInitialised v).irqPending = s.irqPending := rfl
@[simp] theorem State.setInitialised_initialised : (s.setInitialised v).initialised = v := rfl
@[simp] theorem State.setInitialised_fault : (s.setInitialised v).fault = s.fault := rfl
@[simp] theorem State.setInitialised_phy : (s.setInitialised v).phy = s.phy := rfl
@[simp] theorem State.setInitialised_hist : (s.setInitialised v).hist = s.hist := rfl
@[simp] theorem State.setInitialised_routine : (s.setInitialised v).routine = s.routine := rfl
@[simp] theorem State.setInitialised_oob : (s.setInitialised v).oob = s.oob := rfl
@[simp] theorem State.setInitialised_sched : (s.setInitialised v).sched = s.sched := rfl
@[simp] theorem State.setInitialised_ret : (s.setInitialised v).ret = s.ret := rfl
end setInitialised

section setFault
variable (v : Option Violation)
@[simp] theorem State.setFault_cfg : (s.setFault v).cfg = s.cfg := rfl
@[simp] theorem State.setFault_tx : (s.setFault v).tx = s.tx := rfl
@[simp] theorem State.setFault_rx : (s.setFault v).rx = s.rx := rfl
@[simp] theorem State.setFault_mem : (s.setFault v).mem = s.mem := rfl
@[simp] theorem State.setFault_tokGen : (s.setFault v).tokGen = s.tokGen := rfl
@[simp] theorem State.setFault_waker : (s.setFault v).waker = s.waker := rfl
@[simp] theorem State.setFault_irqPending : (s.setFault v).irqPending = s.irqPending := rfl
@[simp] theorem State.setFault_initialised : (s.setFault v).initialised = s.initialised := rfl
@[simp] theorem State.setFault_fault : (s.setFault v).fault = v := rfl
@[simp] theorem State.setFault_phy : (s.setFault v).phy = s.phy := rfl
@[simp] theorem State.setFault_hist : (s.setFault v).hist = s.hist := rfl
@[simp] theorem State.setFault_routine : (s.setFault v).routine = s.routine := rfl
@[simp] theorem State.setFault_oob : (s.setFault v).oob = s.oob := rfl
@[simp] theorem State.setFault_sched : (s.setFault v).sched = s.sched := rfl
@[simp] theorem State.setFault_ret : (s.setFault v).ret = s.ret := rfl
end setFault

section setPhy
variable (v : PhyState)
@[simp] theorem State.setPhy_cfg : (s.setPhy v).cfg = s.cfg := rfl
@[simp] theorem State.setPhy_tx : (s.setPhy v).tx = s.tx := rfl
@[simp] theorem State.setPhy_rx : (s.setPhy v).rx = s.rx := rfl
@[simp] theorem State.setPhy_mem : (s.setPhy v).mem = s.mem := rfl
@[simp] theorem State.setPhy_tokGen : (s.setPhy v).tokGen = s.tokGen := rfl
@[simp] theorem State.setPhy_waker : (s.setPhy v).waker = s.waker := rfl
@[simp] theorem State.setPhy_irqPending : (s.setPhy v).irqPending = s.irqPending := rfl
@[simp] theorem State.setPhy_initialised : (s.setPhy v).initialised = s.initialised := rfl
@[simp] theorem State.setPhy_fault : (s.setPhy v).fault = s.fault := rfl
@[simp] theorem State.setPhy_phy : (s.setPhy v).phy = v := rfl
@[simp] theorem State.setPhy_hist : (s.setPhy v).hist = s.hist := rfl
@[simp] theorem State.setPhy_routine : (s.setPhy v).routine = s.routine := rfl
@[simp] theorem State.setPhy_oob : (s.setPhy v).oob = s.oob := rfl
@[simp] theorem State.setPhy_sched : (s.setPhy v).sched = s.sched := rfl
@[simp] theorem State.setPhy_ret : (s.setPhy v).ret = s.ret := rfl
end setPhy

section emit
variable (v : List Event)
@[simp] theorem State.emit_cfg : (s.emit v).cfg = s.cfg := rfl
@[simp] theorem State.emit_tx : (s.emit v).tx = s.tx := rfl
@[simp] theorem State.emit_rx : (s.emit v).rx = s.rx := rfl
@[simp] theorem State.emit_mem : (s.emit v).mem = s.mem := rfl
@[simp] theorem State.emit_tokGen : (s.emit v).tokGen = s.tokGen := rfl
@[simp] theorem State.emit_waker : (s.emit v).waker = s.waker := rfl
@[simp] theorem State.emit_irqPending : (s.emit v).irqPending = s.irqPending := rfl
@[simp] theorem State.emit_initialised : (s.emit v).initialised = s.initialised := rfl
@[simp] theorem State.emit_fault : (s.emit v).fault = s.fault := rfl
@[simp] theorem State.emit_phy : (s.emit v).phy = s.phy := rfl
@[simp] theorem State.emit_hist : (s.emit v).hist = s.hist ++ v := rfl
@[simp] theorem State.emit_routine : (s.emit v).routine = s.routine := rfl
@[simp] theorem State.emit_oob : (s.emit v).oob = s.oob := rfl
@[simp] theorem State.emit_sched : (s.emit v).sched = s.sched := rfl
@[simp] theorem State.emit_ret : (s.emit v).ret = s.ret := rfl
end emit

section setRoutine
variable (v : Option Running)
@[simp] theorem State.setRoutine_cfg : (s.setRoutine v).cfg = s.cfg := rfl
@[simp] theorem State.setRoutine_tx : (s.setRoutine v).tx = s.tx := rfl
@[simp] theorem State.setRoutine_rx : (s.setRoutine v).rx = s.rx := rfl
@[simp] theorem State.setRoutine_mem : (s.setRoutine v).mem = s.mem := rfl
@[simp] theorem State.setRoutine_tokGen : (s.setRoutine v).tokGen = s.tokGen := rfl
@[simp] theorem State.setRoutine_waker : (s.setRoutine v).waker = s.waker := rfl
@[simp] theorem State.setRoutine_irqPending : (s.setRoutine v).irqPending = s.irqPending := rfl
@[simp] theorem State.setRoutine_initialised : (s.setRoutine v).initialised = s.initialised := rfl
@[simp] theorem State.setRoutine_fault : (s.setRoutine v).fault = s.fault := rfl
@[simp] theorem State.setRoutine_phy : (s.setRoutine v).phy = s.phy := rfl
@[simp] theorem State.setRoutine_hist : (s.setRoutine v).hist = s.hist := rfl
@[simp] theorem State.setRoutine_routine : (s.setRoutine v).routine = v := rfl
@[simp] theorem State.setRoutine_oob : (s.setRoutine v).oob = s.oob := rfl
@[simp] theorem State.setRoutine_sched : (s.setRoutine v).sched = s.sched := rfl
@[simp] theorem State.setRoutine_ret : (s.setRoutine v).ret = s.ret := rfl
end setRoutine

section setOob
variable (v : Oob)
@[simp] theorem State.setOob_cfg : (s.setOob v).cfg = s.cfg := rfl
@[simp] theorem State.setOob_tx : (s.setOob v).tx = s.tx := rfl
@[simp] theorem State.setOob_rx : (s.setOob v).rx = s.rx := rfl
@[simp] theorem State.setOob_mem : (s.setOob v).mem = s.mem := rfl
@[simp] theorem State.setOob_tokGen : (s.setOob v).tokGen = s.tokGen := rfl
@[simp] theorem State.setOob_waker : (s.setOob v).waker = s.waker := rfl
@[simp] theorem State.setOob_irqPending : (s.setOob v).irqPending = s.irqPending := rfl
@[simp] theorem State.setOob_initialised : (s.setOob v).initialised = s.initialised := rfl
@[simp] theorem State.setOob_fault : (s.setOob v).fault = s.fault := rfl
@[simp] theorem State.setOob_phy : (s.setOob v).phy = s.phy := rfl
@[simp] theorem State.setOob_hist : (s.setOob v).hist = s.hist := rfl
@[simp] theorem State.setOob_routine : (s.setOob v).routine = s.routine := rfl
@[simp] theorem State.setOob_oob : (s.setOob v).oob = v := rfl
@[simp] theorem State.setOob_sched : (s.setOob v).sched = s.sched := rfl
@[simp] theorem State.setOob_ret : (s.setOob v).ret = s.ret := rfl
end setOob

section setSched
variable (v : List Turn)
@[simp] theorem State.setSched_cfg : (s.setSched v).cfg = s.cfg := rfl
@[simp] theorem State.setSched_tx : (s.setSched v).tx = s.tx := rfl
@[simp] theorem State.setSched_rx : (s.setSched v).rx = s.rx := rfl
@[simp] theorem State.setSched_mem : (s.setSched v).mem = s.mem := rfl
@[simp] theorem State.setSched_tokGen : (s.setSched v).tokGen = s.tokGen := rfl
@[simp] theorem State.setSched_waker : (s.setSched v).waker = s.waker := rfl
@[simp] theorem State.setSched_irqPending : (s.setSched v).irqPending = s.irqPending := rfl
@[simp] theorem State.setSched_initialised : (s.setSched v).initialised = s.initialised := rfl
@[simp] theorem State.setSched_fault : (s.setSched v).fault = s.fault := rfl
@[simp] theorem State.setSched_phy : (s.setSched v).phy = s.phy := rfl
@[simp] theorem State.setSched_hist : (s.setSched v).hist = s.hist := rfl
@[simp] theorem State.setSched_routine : (s.setSched v).routine = s.routine := rfl
@[simp] theorem State.setSched_oob : (s.setSched v).oob = s.oob := rfl
@[simp] theorem State.setSched_sched : (s.setSched v).sched = v := rfl
@[simp] theorem State.setSched_ret : (s.setSched v).ret = s.ret := rfl
end setSched

section setRet
variable (v : Ret)
@[simp] theorem State.setRet_cfg : (s.setRet v).cfg = s.cfg := rfl
@[simp] theorem State.setRet_tx : (s.setRet v).tx = s.tx := rfl
@[simp] theorem State.setRet_rx : (s.setRet v).rx = s.rx := rfl
@[simp] theorem State.setRet_mem : (s.setRet v).mem = s.mem := rfl
@[simp] theorem State.setRet_tokGen : (s.setRet v).tokGen = s.tokGen := rfl
@[simp] theorem State.setRet_waker : (s.setRet v).waker = s.waker := rfl
@[simp] theorem State.setRet_irqPending : (s.setRet v).irqPending = s.irqPending := rfl
@[simp] theorem State.setRet_initialised : (s.setRet v).initialised = s.initialised := rfl
@[simp] theorem State.setRet_fault : (s.setRet v).fault = s.fault := rfl
@[simp] theorem State.setRet_phy : (s.setRet v).phy = s.phy := rfl
@[simp] theorem State.setRet_hist : (s.setRet v).hist = s.hist := rfl
@[simp] theorem State.setRet_routine : (s.setRet v).routine = s.routine := rfl
@[simp] theorem State.setRet_oob : (s.setRet v).oob = s.oob := rfl
@[simp] theorem State.setRet_sched : (s.setRet v).sched = s.sched := rfl
@[simp] theorem State.setRet_ret : (s.setRet v).ret = v := rfl
end setRet

@[simp] theorem State.resetOf_cfg (c : Config) : (State.resetOf c).cfg = c := rfl
@[simp] theorem State.resetOf_tx (c : Config) : (State.resetOf c).tx = Ring.reset c.txAddr := rfl
@[simp] theorem State.resetOf_rx (c : Config) : (State.resetOf c).rx = Ring.reset c.rxAddr := rfl
@[simp] theorem State.resetOf_mem (c : Config) : (State.resetOf c).mem = [] := rfl
@[simp] theorem State.resetOf_tokGen (c : Config) : (State.resetOf c).tokGen = 0 := rfl
@[simp] theorem State.resetOf_waker (c : Config) : (State.resetOf c).waker = none := rfl
@[simp] theorem State.resetOf_irqPending (c : Config) : (State.resetOf c).irqPending = false := rfl
@[simp] theorem State.resetOf_initialised (c : Config) : (State.resetOf c).initialised = false := rfl
@[simp] theorem State.resetOf_fault (c : Config) : (State.resetOf c).fault = none := rfl
@[simp] theorem State.resetOf_phy (c : Config) : (State.resetOf c).phy = c.phyResetRegs := rfl
@[simp] theorem State.resetOf_hist (c : Config) : (State.resetOf c).hist = [] := rfl
@[simp] theorem State.resetOf_routine (c : Config) : (State.resetOf c).routine = none := rfl
@[simp] theorem State.resetOf_sched (c : Config) : (State.resetOf c).sched = [] := rfl

end Sys2Proof.Machine
end

