-- ==== Sys2Proof/Laws/Ops.lean ====
section
/-! SUPPORT. For each shared operation, once, everything it can answer. -/

namespace Sys2Proof.Machine

variable {s t : State}

/-- In this sequentially consistent model an acquire reads the flag (R54, R56). -/
@[simp] theorem Desc.loadAcquire_eq (d : Desc) : d.loadAcquire = d.own := rfl

/-- In this sequentially consistent model a release sets the flag and nothing else (R55, R56). -/
@[simp] theorem Desc.storeRelease_eq (d : Desc) (o : Owner) : d.storeRelease o = { d with own := o } := rfl

@[simp] theorem raise_next {v : Violation} : raise s v = .next t ↔ t = s.setFault (some v) := by
  simp [raise, eq_comm]

@[simp] theorem swStep_ready {k : Out} (hf : s.fault = none) (hr : s.routine = none) : swStep s k = k := by
  simp [swStep, hf, hr]

@[simp] theorem agentStep_ready {k : Out} (hf : s.fault = none) : agentStep s k = k := by
  simp [agentStep, hf]

/-- An operation of `SW` has a next state only at an operation boundary of an unfaulted machine. -/
theorem swStep_next {k : Out} : swStep s k = .next t ↔ s.fault = none ∧ s.routine = none ∧ k = .next t := by
  unfold swStep
  cases s.fault <;> cases s.routine <;> simp

/-- A hardware agent has a next state only in an unfaulted machine. -/
theorem agentStep_next {k : Out} : agentStep s k = .next t ↔ s.fault = none ∧ k = .next t := by
  unfold agentStep
  cases s.fault <;> simp

theorem withDesc_next {r : Ring} {i : Nat} {k : Desc → Out} :
    withDesc r i k = .next t ↔ ∃ d, r.desc[i]? = some d ∧ k d = .next t := by
  unfold withDesc
  cases r.desc[i]? <;> simp

@[simp] theorem withDesc_some {r : Ring} {i : Nat} {k : Desc → Out} {d : Desc} (h : r.desc[i]? = some d) :
    withDesc r i k = k d := by
  simp [withDesc, h]

theorem withBuf_next {c : Config} {ring : RingId} {i n : Nat} {k : Nat → Out} :
    withBuf c ring i n k = .next t ↔ ∃ a, bufRange c ring i n = some a ∧ k a = .next t := by
  unfold withBuf
  cases bufRange c ring i n <;> simp

@[simp] theorem withBuf_some {c : Config} {ring : RingId} {i n a : Nat} {k : Nat → Out}
    (h : bufRange c ring i n = some a) : withBuf c ring i n k = k a := by
  simp [withBuf, h]

/-- The bytes lie in the slot's buffer. -/
theorem bufRange_eq_some {c : Config} {ring : RingId} {i n a : Nat} :
    bufRange c ring i n = some a ↔ n ≤ bufSize c ring ∧ bufAddr c ring i = some a := by
  simp [bufRange]

theorem isLive_iff {r : Ring} {ring : RingId} {tok : Token} :
    isLive r ring tok = true ↔ tok.ring = ring ∧ r.live = some ⟨tok.slot, tok.gen⟩ := by
  simp [isLive]

/-- The TX token checks raise one of three faults or go on (R129). -/
theorem withTxToken_next {op : FaultOp} {len : Half} {k : Nat → Desc → Out} :
    withTxToken op len s k = .next t →
      (t = s.setFault (some (.noLiveToken op s.oob.tok))) ∨
      (t = s.setFault (some (.slotNotSw .tx s.oob.tok.slot)) ∧ s.tx.live = some ⟨s.oob.tok.slot, s.oob.tok.gen⟩ ∧
        ∃ d, s.tx.desc[s.oob.tok.slot]? = some d ∧ d.own = .hw) ∨
      (t = s.setFault (some (.txLenRange len.toNat))) ∨
      (∃ d, s.tx.desc[s.oob.tok.slot]? = some d ∧ s.oob.tok.ring = .tx ∧
        s.tx.live = some ⟨s.oob.tok.slot, s.oob.tok.gen⟩ ∧ d.own = .sw ∧
        1 ≤ len.toNat ∧ len.toNat ≤ s.cfg.txBufSize ∧ k s.oob.tok.slot d = .next t) := by
  unfold withTxToken
  intro h
  dsimp only at h
  split at h
  next hl =>
    rw [isLive_iff] at hl
    obtain ⟨d, hd, h⟩ := withDesc_next.1 h
    split at h
    next ho =>
      split at h
      next hn => exact .inr (.inr (.inr ⟨d, hd, hl.1, hl.2, ho, hn.1, hn.2, h⟩))
      next hn => exact .inr (.inr (.inl (raise_next.1 h)))
    next ho =>
      refine .inr (.inl ⟨raise_next.1 h, hl.2, d, hd, ?_⟩)
      unfold Desc.loadAcquire at ho
      cases hd' : d.own <;> simp_all
  next hl => exact .inl (raise_next.1 h)

/-- The RX token checks raise one of three faults or go on (R129). -/
theorem withRxToken_next {op : FaultOp} {k : Nat → Desc → Out} :
    withRxToken op s k = .next t →
      (t = s.setFault (some (.notInitialised op)) ∧ s.initialised = false) ∨
      (t = s.setFault (some (.noLiveToken op s.oob.tok))) ∨
      (t = s.setFault (some (.slotNotSw .rx s.oob.tok.slot)) ∧ s.rx.live = some ⟨s.oob.tok.slot, s.oob.tok.gen⟩ ∧
        ∃ d, s.rx.desc[s.oob.tok.slot]? = some d ∧ d.own = .hw) ∨
      (∃ d, s.rx.desc[s.oob.tok.slot]? = some d ∧ s.initialised = true ∧ s.oob.tok.ring = .rx ∧
        s.rx.live = some ⟨s.oob.tok.slot, s.oob.tok.gen⟩ ∧ d.own = .sw ∧ k s.oob.tok.slot d = .next t) := by
  unfold withRxToken
  intro h
  dsimp only at h
  split at h
  next hi =>
    split at h
    next hl =>
      rw [isLive_iff] at hl
      obtain ⟨d, hd, h⟩ := withDesc_next.1 h
      split at h
      next ho => exact .inr (.inr (.inr ⟨d, hd, hi, hl.1, hl.2, ho, h⟩))
      next ho =>
        refine .inr (.inr (.inl ⟨raise_next.1 h, hl.2, d, hd, ?_⟩))
        unfold Desc.loadAcquire at ho
        cases hd' : d.own <;> simp_all
    next hl => exact .inr (.inl (raise_next.1 h))
  next hi => exact .inl ⟨raise_next.1 h, by simpa using hi⟩

/-- `F`'s new contents have the region's length (R87). -/
@[simp] theorem length_applyTxFun (f : TxFun) (x : List Byte) : (applyTxFun f x).1.length = x.length := by
  cases f <;> simp [applyTxFun]
  omega

/-- An SMI read of a register in range (R104). -/
theorem smiReadStep_inRange {reg : Nat} {v : Half} {p : PhyState} {k : Half → State → Out} (hr : reg ≤ 31)
    (hp : phyRead s.cfg.phyModel s.phy s.cfg.phyAddr (BitVec.ofNat 5 reg) = (v, p)) :
    smiReadStep s reg k = k v ((s.setPhy p).emit [.smiRd reg v]) := by
  unfold smiReadStep
  rw [if_pos (by simpa using hr), hp]

/-- An SMI write of a register in range (R105). -/
theorem smiWriteStep_inRange {reg : Nat} {val : Half} {k : State → Out} (hr : reg ≤ 31) :
    smiWriteStep s reg val k =
      k ((s.setPhy (phyWrite s.cfg.phyModel s.phy s.cfg.phyAddr (BitVec.ofNat 5 reg) val)).emit
        [.smiWr reg val]) := by
  unfold smiWriteStep
  rw [if_pos (by simpa using hr)]

/-- An SMI read of a register out of range (R104). -/
theorem smiReadStep_outOfRange {reg : Nat} {k : Half → State → Out} (hr : 31 < reg) :
    smiReadStep s reg k = .next (s.setFault (some (.smiRegRange reg))) := by
  unfold smiReadStep
  rw [if_neg (by simpa using hr)]
  rfl

/-- An SMI write of a register out of range (R105). -/
theorem smiWriteStep_outOfRange {reg : Nat} {val : Half} {k : State → Out} (hr : 31 < reg) :
    smiWriteStep s reg val k = .next (s.setFault (some (.smiRegRange reg))) := by
  unfold smiWriteStep
  rw [if_neg (by simpa using hr)]
  rfl

/-- After a routine's SMI operation there is always a next state. -/
theorem finishNode_eq {id : RoutineId} {n : Nat} {nd : RNode} {held : List Half} :
    finishNode id n nd held s =
      .next ((s.setRoutine (afterNode id n nd held)).setRet
        (if afterNode id n nd held = none then .unit else s.ret)) := by
  unfold finishNode
  cases afterNode id n nd held <;> rfl

/-- One SMI read: the PHY answers and its event is emitted, or the register number is out of range (R104). -/
theorem smiReadStep_next {reg : Nat} {k : Half → State → Out} :
    smiReadStep s reg k = .next t →
      (t = s.setFault (some (.smiRegRange reg)) ∧ 31 < reg) ∨
      (reg ≤ 31 ∧ ∃ v p, phyRead s.cfg.phyModel s.phy s.cfg.phyAddr (BitVec.ofNat 5 reg) = (v, p) ∧
        k v ((s.setPhy p).emit [.smiRd reg v]) = .next t) := by
  unfold smiReadStep
  intro h
  split at h
  next hr => exact .inr ⟨by simpa using hr, _, _, rfl, h⟩
  next hr => exact .inl ⟨raise_next.1 h, by simpa using hr⟩

/-- One SMI write: the PHY takes the value and its event is emitted, or the register number is out of range (R105). -/
theorem smiWriteStep_next {reg : Nat} {val : Half} {k : State → Out} :
    smiWriteStep s reg val k = .next t →
      (t = s.setFault (some (.smiRegRange reg)) ∧ 31 < reg) ∨
      (reg ≤ 31 ∧
        k ((s.setPhy (phyWrite s.cfg.phyModel s.phy s.cfg.phyAddr (BitVec.ofNat 5 reg) val)).emit
          [.smiWr reg val]) = .next t) := by
  unfold smiWriteStep
  intro h
  split at h
  next hr => exact .inr ⟨by simpa using hr, h⟩
  next hr => exact .inl ⟨raise_next.1 h, by simpa using hr⟩

/-- After a routine's SMI operation it goes on at a node or returns. -/
theorem finishNode_next {id : RoutineId} {n : Nat} {nd : RNode} {held : List Half} :
    finishNode id n nd held s = .next t → t = routineReturns s ∨ ∃ r, t = s.setRoutine (some r) := by
  unfold finishNode
  intro h
  split at h <;> simp only [Host.Outcome.next.injEq] at h
  · exact .inr ⟨_, h.symm⟩
  · exact .inl h.symm

/-- One step of a routine: it returns at once, or a register number is out of range, or one SMI
operation is performed, after which it goes on or returns (R112). -/
theorem advance_next {r : Running} (h : advance s r = .next t) :
    t = routineReturns s ∨ (∃ reg, t = s.setFault (some (.smiRegRange reg)) ∧ 31 < reg) ∨
    ∃ p e, let u := (s.setPhy p).emit [e]
      ((∃ reg v, e = .smiRd reg v) ∨ ∃ reg v, e = .smiWr reg v) ∧
      (t = routineReturns u ∨ ∃ r', t = u.setRoutine (some r')) := by
  unfold advance at h
  dsimp only at h
  split at h
  · simp only [Host.Outcome.next.injEq] at h
    exact .inl h.symm
  · split at h
    · rcases smiReadStep_next h with ⟨rfl, hr⟩ | ⟨-, v, p, -, h⟩
      · exact .inr (.inl ⟨_, rfl, hr⟩)
      · exact .inr (.inr ⟨p, _, .inl ⟨_, _, rfl⟩, finishNode_next h⟩)
    · rcases smiWriteStep_next h with ⟨rfl, hr⟩ | ⟨-, h⟩
      · exact .inr (.inl ⟨_, rfl, hr⟩)
      · exact .inr (.inr ⟨_, _, .inr ⟨_, _, rfl⟩, finishNode_next h⟩)

/-- `poll_link`: a register number is out of range, or all reads are made (R114). -/
theorem pollLink_next {k : Bool → PhyState → List Event → Out} :
    pollLink s k = .next t →
      (∃ reg, t = s.setFault (some (.smiRegRange reg)) ∧ 31 < reg) ∨
      ((∀ reg ∈ s.cfg.driver.poll.reads, reg ≤ 31) ∧ ∃ vals p es,
        pollReads s.cfg s.cfg.driver.poll.reads s.phy = (vals, p, es) ∧
        k (evalCond vals s.cfg.driver.poll.linkUp && evalCond vals s.cfg.driver.poll.ready) p es = .next t) := by
  unfold pollLink
  intro h
  dsimp only at h
  split at h
  next reg hf =>
    have := List.find?_some hf
    exact .inl ⟨reg, raise_next.1 h, by simpa using this⟩
  next hf =>
    rw [List.find?_eq_none] at hf
    exact .inr ⟨fun reg hr => by simpa using hf reg hr, _, _, _, rfl, h⟩

/-- `poll_link` with every register in range: all reads are made (R114). -/
theorem pollLink_inRange {k : Bool → PhyState → List Event → Out} {vals : List Half} {p : PhyState}
    {es : List Event} (hr : ∀ reg ∈ s.cfg.driver.poll.reads, reg ≤ 31)
    (hp : pollReads s.cfg s.cfg.driver.poll.reads s.phy = (vals, p, es)) :
    pollLink s k =
      k (evalCond vals s.cfg.driver.poll.linkUp && evalCond vals s.cfg.driver.poll.ready) p es := by
  have hn : s.cfg.driver.poll.reads.find? (fun reg => !regInRange reg) = none := by
    rw [List.find?_eq_none]
    intro reg hm
    simpa using hr reg hm
  simp only [pollLink, hn, hp]

end Sys2Proof.Machine
end

