-- ==== Sys2Proof/Laws/Exec.lean ====
section
/-! SUPPORT. For each operation, once, everything its next state can be. -/

namespace Sys2Proof.Machine

variable {s t : State}

/-- `t` is `s` with a fault recorded and nothing else written; the fault is not `SLOT_NOT_SW`. -/
def RaisedOnly (s t : State) : Prop :=
  s.fault = none ∧ ∃ v, t = s.setFault (some v) ∧ ∀ ring k, v ≠ .slotNotSw ring k

theorem execQInit_next (h : exec .qInit s = .next t) :
    RaisedOnly s t ∨
    (s.fault = none ∧ s.routine = none ∧ s.initialised = false ∧ s.tx.firstHw = none ∧
      t = { s with
        tx := Ring.armed s.cfg.txAddr .sw, rx := Ring.armed s.cfg.rxAddr .hw
        irqPending := false, initialised := true, ret := .unit }) := by
  obtain ⟨hf, hr, h⟩ := swStep_next.1 h
  split at h
  · exact .inl ⟨hf, _, raise_next.1 h, by rintro _ _ ⟨⟩⟩
  next hi =>
    split at h
    · exact .inl ⟨hf, _, raise_next.1 h, by rintro _ _ ⟨⟩⟩
    next hn => exact .inr ⟨hf, hr, by simpa using hi, hn, (Host.Outcome.next.inj h).symm⟩

theorem execTxrAvail_next (h : exec .txrAvail s = .next t) :
    s.fault = none ∧ s.routine = none ∧ ∃ d, s.tx.desc[s.tx.next]? = some d ∧
      t = s.setRet (.txSlot (if d.own = .sw then some s.tx.next else none)) := by
  obtain ⟨hf, hr, h⟩ := swStep_next.1 h
  obtain ⟨d, hd, h⟩ := withDesc_next.1 h
  exact ⟨hf, hr, d, hd, (Host.Outcome.next.inj h).symm⟩

theorem execRxrAvail_next (h : exec .rxrAvail s = .next t) :
    RaisedOnly s t ∨ (s.fault = none ∧ s.routine = none ∧ s.initialised = true ∧
      ∃ d, s.rx.desc[s.rx.next]? = some d ∧
        ((d.own = .sw ∧ ∃ a, bufRange s.cfg .rx s.rx.next d.len = some a ∧
            t = s.setRet (.rxFrame (some (s.rx.next, ⟨a, d.len⟩)))) ∨
          (d.own = .hw ∧ t = s.setRet (.rxFrame none)))) := by
  obtain ⟨hf, hr, h⟩ := swStep_next.1 h
  split at h
  next hi =>
    obtain ⟨d, hd, h⟩ := withDesc_next.1 h
    refine .inr ⟨hf, hr, hi, d, hd, ?_⟩
    split at h
    next ho =>
      obtain ⟨a, ha, h⟩ := withBuf_next.1 h
      exact .inl ⟨ho, a, ha, (Host.Outcome.next.inj h).symm⟩
    next ho =>
      refine .inr ⟨?_, (Host.Outcome.next.inj h).symm⟩
      rw [Desc.loadAcquire_eq] at ho
      cases hd' : d.own <;> simp_all
  · exact .inl ⟨hf, _, raise_next.1 h, by rintro _ _ ⟨⟩⟩

/-- A raise of a TX consume: the fault, and for `SLOT_NOT_SW` the hardware-owned slot of a live token. -/
def TxRaised (s t : State) : Prop :=
  s.fault = none ∧ ∃ v, t = s.setFault (some v) ∧
    ∀ ring k, v = .slotNotSw ring k → s.tx.live = some ⟨k, s.oob.tok.gen⟩ ∧
      ∃ d, s.tx.desc[k]? = some d ∧ d.own = .hw

/-- A raise of an RX consume, likewise. -/
def RxRaised (s t : State) : Prop :=
  s.fault = none ∧ ∃ v, t = s.setFault (some v) ∧
    ∀ ring k, v = .slotNotSw ring k → s.rx.live = some ⟨k, s.oob.tok.gen⟩ ∧
      ∃ d, s.rx.desc[k]? = some d ∧ d.own = .hw

/-- The token operand is the TX ring's live token, its slot's descriptor is `d`, software-owned, and
`len` is legal. -/
structure TxReady (s : State) (len : Half) (d : Desc) : Prop where
  fault : s.fault = none
  routine : s.routine = none
  desc : s.tx.desc[s.oob.tok.slot]? = some d
  ring : s.oob.tok.ring = .tx
  live : s.tx.live = some ⟨s.oob.tok.slot, s.oob.tok.gen⟩
  own : d.own = .sw
  pos : 1 ≤ len.toNat
  le : len.toNat ≤ s.cfg.txBufSize

/-- The token operand is the RX ring's live token and its slot's descriptor is `d`, software-owned. -/
structure RxReady (s : State) (d : Desc) : Prop where
  fault : s.fault = none
  routine : s.routine = none
  initialised : s.initialised = true
  desc : s.rx.desc[s.oob.tok.slot]? = some d
  ring : s.oob.tok.ring = .rx
  live : s.rx.live = some ⟨s.oob.tok.slot, s.oob.tok.gen⟩
  own : d.own = .sw

theorem withTxToken_cases {op : FaultOp} {len : Half} {k : Nat → Desc → Out} (hf : s.fault = none)
    (hr : s.routine = none) (h : withTxToken op len s k = .next t) :
    TxRaised s t ∨ ∃ d, TxReady s len d ∧ k s.oob.tok.slot d = .next t := by
  rcases withTxToken_next h with ht | ⟨ht, hl, d, hd, ho⟩ | ht | ⟨d, h1, h2, h3, h4, h5, h6, h7⟩
  · exact .inl ⟨hf, _, ht, by rintro _ _ ⟨⟩⟩
  · refine .inl ⟨hf, _, ht, ?_⟩
    rintro _ _ ⟨⟩
    exact ⟨hl, d, hd, ho⟩
  · exact .inl ⟨hf, _, ht, by rintro _ _ ⟨⟩⟩
  · exact .inr ⟨d, ⟨hf, hr, h1, h2, h3, h4, h5, h6⟩, h7⟩

theorem withRxToken_cases {op : FaultOp} {k : Nat → Desc → Out} (hf : s.fault = none)
    (hr : s.routine = none) (h : withRxToken op s k = .next t) :
    RxRaised s t ∨ ∃ d, RxReady s d ∧ k s.oob.tok.slot d = .next t := by
  rcases withRxToken_next h with ⟨ht, -⟩ | ht | ⟨ht, hl, d, hd, ho⟩ | ⟨d, h1, h2, h3, h4, h5, h6⟩
  · exact .inl ⟨hf, _, ht, by rintro _ _ ⟨⟩⟩
  · exact .inl ⟨hf, _, ht, by rintro _ _ ⟨⟩⟩
  · refine .inl ⟨hf, _, ht, ?_⟩
    rintro _ _ ⟨⟩
    exact ⟨hl, d, hd, ho⟩
  · exact .inr ⟨d, ⟨hf, hr, h2, h1, h3, h4, h5⟩, h6⟩

theorem execTxrTransmit_next {len : Half} (h : exec (.txrTransmit len) s = .next t) :
    TxRaised s t ∨ ∃ d, TxReady s len d ∧
      t = (s.setTx (s.tx.submit s.cfg.nTx s.oob.tok.slot d len)).setRet .unit := by
  obtain ⟨hf, hr, h⟩ := swStep_next.1 h
  rcases withTxToken_cases hf hr h with h | ⟨d, hd, h⟩
  · exact .inl h
  · exact .inr ⟨d, hd, (Host.Outcome.next.inj h).symm⟩

theorem execTxtConsume_next {len : Half} (h : exec (.txtConsume len) s = .next t) :
    TxRaised s t ∨ ∃ d a, TxReady s len d ∧ bufRange s.cfg .tx s.oob.tok.slot len.toNat = some a ∧
      ∃ b y, applyTxFun s.oob.txFun (s.mem.readBytes a len.toNat) = (b, y) ∧ b.length = len.toNat ∧
        t = ((s.setMem (s.mem.writeBytes a b)).setTx (s.tx.submit s.cfg.nTx s.oob.tok.slot d len)).setRet
          (.caller y) := by
  obtain ⟨hf, hr, h⟩ := swStep_next.1 h
  rcases withTxToken_cases hf hr h with h | ⟨d, hd, h⟩
  · exact .inl h
  · obtain ⟨a, ha, h⟩ := withBuf_next.1 h
    exact .inr ⟨d, a, hd, ha, _, _, rfl,
      (length_applyTxFun _ _).trans (Memory.length_readBytes _ _ _), (Host.Outcome.next.inj h).symm⟩

theorem execRxrPop_next (h : exec .rxrPop s = .next t) :
    RxRaised s t ∨ ∃ d, RxReady s d ∧
      t = (s.setRx (s.rx.retire s.cfg.nRx s.oob.tok.slot d)).setRet .unit := by
  obtain ⟨hf, hr, h⟩ := swStep_next.1 h
  rcases withRxToken_cases hf hr h with h | ⟨d, hd, h⟩
  · exact .inl h
  · exact .inr ⟨d, hd, (Host.Outcome.next.inj h).symm⟩

theorem execRxtConsume_next (h : exec .rxtConsume s = .next t) :
    RxRaised s t ∨ ∃ d a, RxReady s d ∧ bufRange s.cfg .rx s.oob.tok.slot d.len = some a ∧
      t = ((s.emit [.delivered s.oob.tok.slot (s.mem.readBytes a d.len)]).setRx
        (s.rx.retire s.cfg.nRx s.oob.tok.slot d)).setRet
          (.caller (applyRxFun s.oob.rxFun (s.mem.readBytes a d.len))) := by
  obtain ⟨hf, hr, h⟩ := swStep_next.1 h
  rcases withRxToken_cases hf hr h with h | ⟨d, hd, h⟩
  · exact .inl h
  · obtain ⟨a, ha, h⟩ := withBuf_next.1 h
    exact .inr ⟨d, a, hd, ha, (Host.Outcome.next.inj h).symm⟩

theorem execAdpReceive_next {task : TaskId} (h : exec (.adpReceive task) s = .next t) :
    RaisedOnly s t ∨
    (s.fault = none ∧ s.routine = none ∧ s.initialised = true ∧
      ((∃ dr dt, s.rx.desc[s.rx.next]? = some dr ∧ s.tx.desc[s.tx.next]? = some dt ∧
          s.rx.live = none ∧ dr.own = .sw ∧ s.tx.live = none ∧ dt.own = .sw ∧
          t = { s with
            rx := s.rx.issue s.tokGen, tx := s.tx.issue (s.tokGen + 1), tokGen := s.tokGen + 2
            ret := .tokens (some (⟨.rx, s.rx.next, s.tokGen⟩, ⟨.tx, s.tx.next, s.tokGen + 1⟩)) }) ∨
        t = (s.setWaker (some task)).setRet (.tokens none))) := by
  obtain ⟨hf, hr, h⟩ := swStep_next.1 h
  split at h
  next hi =>
    obtain ⟨dr, hdr, h⟩ := withDesc_next.1 h
    obtain ⟨dt, hdt, h⟩ := withDesc_next.1 h
    split at h
    next hc =>
      exact .inr ⟨hf, hr, hi, .inl ⟨dr, dt, hdr, hdt, hc.1, hc.2.1, hc.2.2.1, hc.2.2.2,
        (Host.Outcome.next.inj h).symm⟩⟩
    · exact .inr ⟨hf, hr, hi, .inr (Host.Outcome.next.inj h).symm⟩
  · exact .inl ⟨hf, _, raise_next.1 h, by rintro _ _ ⟨⟩⟩

theorem execAdpTransmit_next {task : TaskId} (h : exec (.adpTransmit task) s = .next t) :
    s.fault = none ∧ s.routine = none ∧
      ((∃ d, s.tx.desc[s.tx.next]? = some d ∧ s.tx.live = none ∧ d.own = .sw ∧
          t = { s with
            tx := s.tx.issue s.tokGen, tokGen := s.tokGen + 1
            ret := .token (some ⟨.tx, s.tx.next, s.tokGen⟩) }) ∨
        t = (s.setWaker (some task)).setRet (.token none)) := by
  obtain ⟨hf, hr, h⟩ := swStep_next.1 h
  obtain ⟨d, hd, h⟩ := withDesc_next.1 h
  refine ⟨hf, hr, ?_⟩
  split at h
  next hc => exact .inl ⟨d, hd, hc.1, hc.2, (Host.Outcome.next.inj h).symm⟩
  · exact .inr (Host.Outcome.next.inj h).symm

theorem execAdpLink_next {task : TaskId} (h : exec (.adpLink task) s = .next t) :
    RaisedOnly s t ∨ (s.fault = none ∧ s.routine = none ∧
      ∃ vals p es b, pollReads s.cfg s.cfg.driver.poll.reads s.phy = (vals, p, es) ∧
        b = (evalCond vals s.cfg.driver.poll.linkUp && evalCond vals s.cfg.driver.poll.ready) ∧
        t = ((s.setPhy p).emit (.woken task :: es)).setRet (.link b)) := by
  obtain ⟨hf, hr, h⟩ := swStep_next.1 h
  rcases pollLink_next h with ⟨reg, ht, -⟩ | ⟨-, vals, p, es, hp, h⟩
  · exact .inl ⟨hf, _, ht, by rintro _ _ ⟨⟩⟩
  · exact .inr ⟨hf, hr, vals, p, es, _, hp, rfl, (Host.Outcome.next.inj h).symm⟩

theorem execPhyPoll_next (h : exec .phyPoll s = .next t) :
    RaisedOnly s t ∨ (s.fault = none ∧ s.routine = none ∧
      ∃ vals p es b, pollReads s.cfg s.cfg.driver.poll.reads s.phy = (vals, p, es) ∧
        b = (evalCond vals s.cfg.driver.poll.linkUp && evalCond vals s.cfg.driver.poll.ready) ∧
        t = ((s.setPhy p).emit es).setRet (.flag b)) := by
  obtain ⟨hf, hr, h⟩ := swStep_next.1 h
  rcases pollLink_next h with ⟨reg, ht, -⟩ | ⟨-, vals, p, es, hp, h⟩
  · exact .inl ⟨hf, _, ht, by rintro _ _ ⟨⟩⟩
  · exact .inr ⟨hf, hr, vals, p, es, _, hp, rfl, (Host.Outcome.next.inj h).symm⟩

theorem execAdpCaps_next (h : exec .adpCaps s = .next t) :
    s.fault = none ∧ s.routine = none ∧ t = s.setRet (.caps s.cfg.mtu s.cfg.maxBurst) := by
  obtain ⟨hf, hr, h⟩ := swStep_next.1 h
  exact ⟨hf, hr, (Host.Outcome.next.inj h).symm⟩

theorem execAdpHwaddr_next (h : exec .adpHwaddr s = .next t) :
    s.fault = none ∧ s.routine = none ∧ t = s.setRet (.hwaddr s.cfg.macAddr) := by
  obtain ⟨hf, hr, h⟩ := swStep_next.1 h
  exact ⟨hf, hr, (Host.Outcome.next.inj h).symm⟩

theorem execAdpEndpoll_next (h : exec .adpEndpoll s = .next t) :
    s.fault = none ∧ s.routine = none ∧ t = ((s.setTx s.tx.expire).setRx s.rx.expire).setRet .unit := by
  obtain ⟨hf, hr, h⟩ := swStep_next.1 h
  exact ⟨hf, hr, (Host.Outcome.next.inj h).symm⟩

theorem execSmiRead_next {reg : Nat} (h : exec (.smiRead reg) s = .next t) :
    RaisedOnly s t ∨ (s.fault = none ∧ s.routine = none ∧
      ∃ v p, t = ((s.setPhy p).emit [.smiRd reg v]).setRet (.smi v)) := by
  obtain ⟨hf, hr, h⟩ := swStep_next.1 h
  rcases smiReadStep_next h with ⟨ht, -⟩ | ⟨-, v, p, -, h⟩
  · exact .inl ⟨hf, _, ht, by rintro _ _ ⟨⟩⟩
  · exact .inr ⟨hf, hr, v, p, (Host.Outcome.next.inj h).symm⟩

theorem execSmiWrite_next {reg : Nat} {val : Half} (h : exec (.smiWrite reg val) s = .next t) :
    RaisedOnly s t ∨ (s.fault = none ∧ s.routine = none ∧
      ∃ p, t = ((s.setPhy p).emit [.smiWr reg val]).setRet .unit) := by
  obtain ⟨hf, hr, h⟩ := swStep_next.1 h
  rcases smiWriteStep_next h with ⟨ht, -⟩ | ⟨-, h⟩
  · exact .inl ⟨hf, _, ht, by rintro _ _ ⟨⟩⟩
  · exact .inr ⟨hf, hr, _, (Host.Outcome.next.inj h).symm⟩

/-- A turn of a routine: a fault, or at most one SMI operation, after which it goes on or has returned.
It writes `phy`, `hist`, the routine in progress and the result, and nothing else (R110). -/
theorem advance_cases {r : Running} (hf : s.fault = none) (h : advance s r = .next t) :
    RaisedOnly s t ∨ ∃ p es ro re, es.length ≤ 1 ∧
      t = (((s.setPhy p).emit es).setRoutine ro).setRet re := by
  rcases advance_next h with ht | ⟨reg, ht, -⟩ | ⟨p, e, -, ht | ⟨r', ht⟩⟩
  · refine .inr ⟨s.phy, [], none, .unit, by simp, ?_⟩
    rw [ht]; cases s; simp [routineReturns, State.setPhy, State.emit, State.setRoutine, State.setRet]
  · exact .inl ⟨hf, _, ht, by rintro _ _ ⟨⟩⟩
  · exact .inr ⟨p, [e], none, .unit, by simp, ht⟩
  · refine .inr ⟨p, [e], some r', s.ret, by simp, ?_⟩
    rw [ht]; rfl

theorem execPhyReset_next (h : exec .phyReset s = .next t) :
    RaisedOnly s t ∨ (s.fault = none ∧ s.routine = none ∧ ∃ p es ro re, es.length ≤ 1 ∧
      t = (((s.setPhy p).emit es).setRoutine ro).setRet re) := by
  obtain ⟨hf, hr, h⟩ := swStep_next.1 h
  exact (advance_cases hf h).imp id fun h => ⟨hf, hr, h⟩

theorem execPhyInit_next (h : exec .phyInit s = .next t) :
    RaisedOnly s t ∨ (s.fault = none ∧ s.routine = none ∧ ∃ p es ro re, es.length ≤ 1 ∧
      t = (((s.setPhy p).emit es).setRoutine ro).setRet re) := by
  obtain ⟨hf, hr, h⟩ := swStep_next.1 h
  exact (advance_cases hf h).imp id fun h => ⟨hf, hr, h⟩

/-- The drawn status fits its width (R24). -/
theorem drawnStatus_lt (s : State) : drawnStatus s < 2 ^ s.cfg.statusW := Nat.mod_lt _ (Nat.two_pow_pos _)

theorem execDmaTx_next (h : exec .dmaTx s = .next t) :
    s.fault = none ∧ ∃ d a, s.tx.desc[s.tx.hw]? = some d ∧ d.own = .hw ∧
      bufRange s.cfg .tx s.tx.hw d.len = some a ∧
      t = { s with
        hist := s.hist ++ [.sent (s.mem.readBytes a d.len)]
        tx := s.tx.handBack s.cfg.nTx { d with status := drawnStatus s }
        irqPending := true } := by
  obtain ⟨hf, h⟩ := agentStep_next.1 h
  obtain ⟨d, hd, h⟩ := withDesc_next.1 h
  split at h
  next ho =>
    obtain ⟨a, ha, h⟩ := withBuf_next.1 h
    exact ⟨hf, d, a, hd, ho, ha, (Host.Outcome.next.inj h).symm⟩
  · cases h

theorem execDmaRx_next (h : exec .dmaRx s = .next t) :
    s.fault = none ∧ ∃ d a, s.rx.desc[s.rx.hw]? = some d ∧ d.own = .hw ∧
      1 ≤ s.oob.frame.length ∧ s.oob.frame.length ≤ s.cfg.rxBufSize ∧
      bufRange s.cfg .rx s.rx.hw s.oob.frame.length = some a ∧
      t = { s with
        mem := s.mem.writeBytes a s.oob.frame
        hist := s.hist ++ [.landed s.rx.hw s.oob.frame]
        rx := s.rx.handBack s.cfg.nRx
          { d with len := s.oob.frame.length, status := drawnStatus s }
        irqPending := true } := by
  obtain ⟨hf, h⟩ := agentStep_next.1 h
  obtain ⟨d, hd, h⟩ := withDesc_next.1 h
  split at h
  next ho =>
    split at h
    next hc =>
      obtain ⟨a, ha, h⟩ := withBuf_next.1 h
      simp only [frameOffered, decide_eq_true_eq] at hc
      exact ⟨hf, d, a, hd, ho, hc.1, hc.2, ha, (Host.Outcome.next.inj h).symm⟩
    · cases h
  · cases h

theorem execIrqDeliver_next (h : exec .irqDeliver s = .next t) :
    s.fault = none ∧ s.irqPending = true ∧
      ((s.waker = none ∧ t = s.setIrqPending false) ∨
        ∃ k, s.waker = some k ∧
          t = { s with
            irqPending := false, hist := s.hist ++ [.woken k]
            waker := if s.cfg.wakeClears then none else some k }) := by
  obtain ⟨hf, h⟩ := agentStep_next.1 h
  refine ⟨hf, ?_⟩
  split at h
  next hi =>
    refine ⟨hi, ?_⟩
    split at h
    next k hk => exact .inr ⟨k, hk, (Host.Outcome.next.inj h).symm⟩
    next hk => exact .inl ⟨hk, (Host.Outcome.next.inj h).symm⟩
  · cases h

end Sys2Proof.Machine
end

