-- ==== Sys2Proof/Laws/PerInstr.lean ====
section
/-! SUPPORT. Statements about every operation as syntax, one lemma per constructor. -/

namespace Sys2Proof.Laws.OpcodeByte

/-- The word of an operation carries, in bits 31 to 24, an opcode whose row of the opcode map (R67)
has the operation's name and agent. -/
def Statement (i : Instr) : Prop :=
  ∃ r ∈ opcodeMap, opcodeField (encode i) = r.opcode ∧ r.name = i.opName ∧ r.agent = i.agent

theorem qInit : Statement .qInit :=
  ⟨⟨0x01, .qInit, .n, .sw⟩, by decide, opcodeField_layWord _ _ _, rfl, rfl⟩

theorem txrAvail : Statement .txrAvail :=
  ⟨⟨0x10, .txrAvail, .n, .sw⟩, by decide, opcodeField_layWord _ _ _, rfl, rfl⟩

theorem txrTransmit (len : Half) : Statement (.txrTransmit len) :=
  ⟨⟨0x11, .txrTransmit, .l, .sw⟩, by decide, opcodeField_layWord _ _ _, rfl, rfl⟩

theorem txtConsume (len : Half) : Statement (.txtConsume len) :=
  ⟨⟨0x14, .txtConsume, .l, .sw⟩, by decide, opcodeField_layWord _ _ _, rfl, rfl⟩

theorem rxrAvail : Statement .rxrAvail :=
  ⟨⟨0x18, .rxrAvail, .n, .sw⟩, by decide, opcodeField_layWord _ _ _, rfl, rfl⟩

theorem rxrPop : Statement .rxrPop :=
  ⟨⟨0x19, .rxrPop, .n, .sw⟩, by decide, opcodeField_layWord _ _ _, rfl, rfl⟩

theorem rxtConsume : Statement .rxtConsume :=
  ⟨⟨0x1C, .rxtConsume, .n, .sw⟩, by decide, opcodeField_layWord _ _ _, rfl, rfl⟩

theorem adpReceive (task : TaskId) : Statement (.adpReceive task) :=
  ⟨⟨0x20, .adpReceive, .t, .sw⟩, by decide, opcodeField_layWord _ _ _, rfl, rfl⟩

theorem adpTransmit (task : TaskId) : Statement (.adpTransmit task) :=
  ⟨⟨0x21, .adpTransmit, .t, .sw⟩, by decide, opcodeField_layWord _ _ _, rfl, rfl⟩

theorem adpLink (task : TaskId) : Statement (.adpLink task) :=
  ⟨⟨0x22, .adpLink, .t, .sw⟩, by decide, opcodeField_layWord _ _ _, rfl, rfl⟩

theorem adpCaps : Statement .adpCaps :=
  ⟨⟨0x23, .adpCaps, .n, .sw⟩, by decide, opcodeField_layWord _ _ _, rfl, rfl⟩

theorem adpHwaddr : Statement .adpHwaddr :=
  ⟨⟨0x24, .adpHwaddr, .n, .sw⟩, by decide, opcodeField_layWord _ _ _, rfl, rfl⟩

theorem adpEndpoll : Statement .adpEndpoll :=
  ⟨⟨0x25, .adpEndpoll, .n, .sw⟩, by decide, opcodeField_layWord _ _ _, rfl, rfl⟩

theorem smiRead (reg : Nat) : Statement (.smiRead reg) :=
  ⟨⟨0x30, .smiRead, .r, .sw⟩, by decide, opcodeField_layWord _ _ _, rfl, rfl⟩

theorem smiWrite (reg : Nat) (val : Half) : Statement (.smiWrite reg val) :=
  ⟨⟨0x31, .smiWrite, .rv, .sw⟩, by decide, opcodeField_layWord _ _ _, rfl, rfl⟩

theorem phyReset : Statement .phyReset :=
  ⟨⟨0x38, .phyReset, .n, .sw⟩, by decide, opcodeField_layWord _ _ _, rfl, rfl⟩

theorem phyInit : Statement .phyInit :=
  ⟨⟨0x39, .phyInit, .n, .sw⟩, by decide, opcodeField_layWord _ _ _, rfl, rfl⟩

theorem phyPoll : Statement .phyPoll :=
  ⟨⟨0x3A, .phyPoll, .n, .sw⟩, by decide, opcodeField_layWord _ _ _, rfl, rfl⟩

theorem dmaTx : Statement .dmaTx :=
  ⟨⟨0x80, .dmaTx, .n, .txdma⟩, by decide, opcodeField_layWord _ _ _, rfl, rfl⟩

theorem dmaRx : Statement .dmaRx :=
  ⟨⟨0x81, .dmaRx, .n, .rxdma⟩, by decide, opcodeField_layWord _ _ _, rfl, rfl⟩

theorem irqDeliver : Statement .irqDeliver :=
  ⟨⟨0x82, .irqDeliver, .n, .irq⟩, by decide, opcodeField_layWord _ _ _, rfl, rfl⟩

end Sys2Proof.Laws.OpcodeByte
end

