-- ==== Sys2Proof/Laws/Safety.lean ====
section
/-! SUPPORT. The small lemmas of the terms the claims are stated in. -/

namespace Sys2Proof.Machine

@[simp] theorem State.ring_tx (s : State) : s.ring .tx = s.tx := rfl
@[simp] theorem State.ring_rx (s : State) : s.ring .rx = s.rx := rfl
@[simp] theorem sideOf_sw : sideOf .sw = .sw := rfl
@[simp] theorem sideOf_txdma : sideOf .txdma = .hw := rfl
@[simp] theorem sideOf_rxdma : sideOf .rxdma = .hw := rfl
@[simp] theorem sideOf_irq : sideOf .irq = .hw := rfl

@[simp] theorem smiReads_nil (c : Config) (p : PhyState) : smiReads c [] p = ([], p) := rfl

/-- One read more, after the others. -/
theorem smiReads_concat (c : Config) (regs : List Nat) (reg : Nat) (p : PhyState) :
    smiReads c (regs ++ [reg]) p =
      let r := smiReads c regs p
      let vp := phyRead c.phyModel r.2 c.phyAddr (BitVec.ofNat 5 reg)
      (r.1 ++ [vp.1], vp.2) := by
  simp [smiReads]

/-- The first `n` bytes of a slot, where the slot's buffer has them, lie in the slot's buffer. -/
theorem inBuf_of_bufRange {c : Config} {ring : RingId} {i n a x : Nat} (h : bufRange c ring i n = some a)
    (h1 : a ≤ x) (h2 : x < a + n) : InBuf c ring i x := by
  unfold bufRange at h
  split at h
  · exact ⟨a, h, h1, by omega⟩
  · cases h

end Sys2Proof.Machine
end

