-- ==== Sys2Proof/Laws/Step.lean ====
section
/-! SUPPORT. What one step can be. -/

namespace Sys2Proof.Machine

variable {s t : State}

/-- A step with a next state is a routine's turn or the decoded operation. -/
theorem step_next (h : step s = .next t) :
    s.fault = none ∧
    ((∃ r sch, s.routine = some r ∧ advance (s.setSched sch) r = .next t) ∨
      ∃ w oob rest i, s.sched = .issue w oob :: rest ∧ decode w = .ok i ∧
        exec i ((s.setSched rest).setOob oob) = .next t) := by
  unfold step takeTurn at h
  split at h
  · cases h
  next hf =>
    have hf' : s.fault = none := by simpa using hf
    refine ⟨hf', ?_⟩
    split at h
    · split at h
      · unfold routineTurn at h
        rw [if_neg hf] at h
        split at h
        next r hr => exact .inl ⟨r, s.sched, hr, h⟩
        · cases h
      · cases h
    · unfold routineTurn at h
      rw [State.setSched_fault, if_neg hf] at h
      split at h
      next r hr => exact .inl ⟨r, _, hr, h⟩
      · cases h
    next w oob rest hs =>
      split at h
      · cases h
      next i hi =>
        split at h
        · unfold routineTurn at h
          rw [if_neg hf] at h
          split at h
          next r hr => exact .inl ⟨r, s.sched, hr, h⟩
          · cases h
        · exact .inr ⟨w, oob, rest, i, hs, hi, h⟩

/-- `transmit(L, F)`: no token and `false`, or the consume of the token issued, and `true` unless it
faults (R74). -/
theorem transmitPseudo_next {task : TaskId} {len : Half} {f : TxFun} (h : transmitPseudo task len f s = .next t) :
    ∃ u, exec (.adpTransmit task) s = .next u ∧
      (((∀ tok, u.ret ≠ .token (some tok)) ∧ t = u.setRet (.flag false)) ∨
        ∃ tok v, u.ret = .token (some tok) ∧
          exec (.txtConsume len) (u.setOob { u.oob with tok := tok, txFun := f }) = .next v ∧
          t = if v.fault.isSome then v else v.setRet (.flag true)) := by
  unfold transmitPseudo at h
  split at h
  next u hu =>
    refine ⟨u, hu, ?_⟩
    split at h
    next tok hr =>
      split at h
      next v hv => exact .inr ⟨tok, v, hr, hv, (Host.Outcome.next.inj h).symm⟩
      next o ho => exact absurd h (ho t)
    next hr => exact .inl ⟨hr, (Host.Outcome.next.inj h).symm⟩
  next o ho => exact absurd h (ho t)

/-- `receive(G)`: a fault or no tokens, or the consume of the RX token issued (R74). -/
theorem receivePseudo_next {task : TaskId} {g : RxFun} (h : receivePseudo task g s = .next t) :
    ∃ u, exec (.adpReceive task) s = .next u ∧
      ((t = u ∧ (u.fault ≠ none ∨ ∀ p, u.ret ≠ .tokens (some p))) ∨
        ∃ r x, u.fault = none ∧ u.ret = .tokens (some (r, x)) ∧
          exec .rxtConsume (u.setOob { u.oob with tok := r, rxFun := g }) = .next t) := by
  unfold receivePseudo at h
  split at h
  next u hu =>
    refine ⟨u, hu, ?_⟩
    split at h
    next hf => exact .inl ⟨(Host.Outcome.next.inj h).symm, .inl (by rw [← Option.isSome_iff_ne_none]; exact hf)⟩
    next hf =>
      split at h
      next r x hr => exact .inr ⟨r, x, by simpa using hf, hr, h⟩
      next hr => exact .inl ⟨(Host.Outcome.next.inj h).symm, .inr fun p => hr p.1 p.2⟩
  next o ho => exact absurd h (ho t)

end Sys2Proof.Machine
end

