-- ==== Sys2Proof/Tests/Slice0.lean ====
section
/-! SUPPORT. Small tests of one step each, with the expected values of the spec's vectors, and for every
statement with hypotheses a witness that meets them. -/

namespace Sys2Proof.Tests

open Sys2Proof Sys2Proof.Machine

/-! ### Helpers: small states -/

/-- A ring from its slots' `(len, own)`, cursors and live token. -/
def ringOf (addrs : List Addr) (slots : List (Nat × Owner)) (next hw : Nat) (live : Option Live) : Ring where
  desc := List.zipWith (fun a p => { addr := a, len := p.1, own := p.2, status := 0 }) addrs slots
  next := next
  hw := hw
  live := live

/-- A TX ring of the default configuration. -/
def txOf (slots : List (Nat × Owner)) (next hw : Nat) (live : Option Live) : Ring :=
  ringOf Params.default.txAddr slots next hw live

/-- An RX ring of the default configuration. -/
def rxOf (slots : List (Nat × Owner)) (next hw : Nat) (live : Option Live) : Ring :=
  ringOf Params.default.rxAddr slots next hw live

/-- Reset. -/
def s0 : State := State.reset

/-- Reset with the given TX ring. -/
def withTx (slots : List (Nat × Owner)) (next hw : Nat) (live : Option Live) : State :=
  { s0 with tx := txOf slots next hw live }

/-- The spec's "Q": reset followed by `q.init`. -/
def q : State := { s0 with rx := rxOf [(0, .hw), (0, .hw)] 0 0 none, initialised := true }

/-- Q with the given RX ring. -/
def withRx (slots : List (Nat × Owner)) (next hw : Nat) (live : Option Live) : State :=
  { q with rx := rxOf slots next hw live }

/-- Reset after `adp.transmit 1`: the token `{TX,0,0}` is live, and is the operand. -/
def tokTx : State :=
  { s0 with tx := txOf [(0, .sw), (0, .sw)] 0 0 (some ⟨0, 0⟩), tokGen := 1, oob := { tok := ⟨.tx, 0, 0⟩ } }

/-- The TX ring full: the two frames of W-A are submitted. -/
def full : State :=
  { s0 with
    tx := txOf [(4, .hw), (4, .hw)] 0 0 none
    tokGen := 2
    mem := Memory.writeBytes (Memory.writeBytes [] 0x20000000 [1, 2, 3, 4]) 0x200005F0 [5, 6, 7, 8] }

/-- Q, then a frame `[7, 8, 9]` landed in slot 0. -/
def landed : State :=
  { withRx [(3, .sw), (0, .hw)] 0 1 none with mem := Memory.writeBytes [] 0x20010000 [7, 8, 9], irqPending := true }

/-- `landed` after `adp.receive 5`: both tokens live, the RX token the operand. -/
def tokRx : State :=
  { landed with
    rx := rxOf [(3, .sw), (0, .hw)] 0 1 (some ⟨0, 0⟩)
    tx := txOf [(0, .sw), (0, .sw)] 0 0 (some ⟨0, 1⟩)
    tokGen := 2
    oob := { tok := ⟨.rx, 0, 0⟩ } }

/-- A PHY with two registers set. -/
def phyOf (r1 r31 : Half) : PhyState := { regs := ((Vector.replicate 32 0).set 1 r1).set 31 r31 }

/-- The default configuration with another PHY, driver or wake parameter. -/
def cfgOf (m : PhyModel) (d : Driver) (w : Bool) : Config where
  toParams := { Params.default with phyModel := m, driver := d, wakeClears := w }
  isLegal := (by decide : Params.default.legal = true)

/-- Parameters with rings of depth `n` and `m`. -/
def depth (n m : Nat) : Params := Params.unplaced.place 0x20000000 0x20010000 n m

/-- Rings of depth 1. -/
def cfg1 : Config := { depth 1 1 with isLegal := by decide }

/-- The driver whose link poll reads register 32, and whose `reset` and `init` name it. -/
def badDriver : Driver where
  reset := { vars := 1, nodes := [{ act := .read (.lit 32) 0, next := .ret }] }
  init := { vars := 0, nodes := [{ act := .write (.lit 32) (.lit 0), next := .ret }] }
  poll := { reads := [1, 32], linkUp := .always, ready := .always }

/-- The driver whose `reset` is empty and whose `init` reads first. -/
def readDriver : Driver where
  reset := { vars := 0, nodes := [] }
  init := { vars := 1, nodes := [{ act := .read (.lit 1) 0, next := .goto 1 },
    { act := .write (.lit 32) (.var 0), next := .ret }] }
  poll := { reads := [], linkUp := .always, ready := .always }

/-- The state a step answers, if it answers one. -/
def nextOf : Out → Option State
  | .next t => some t
  | .fault _ => none
  | .refused _ => none

/-- The reason a step stops for, if it stops. -/
def stopOf : Out → Option Fault
  | .next _ => none
  | .fault f => some f
  | .refused _ => none

/-- `s` with an operation issued next. -/
def issue (i : Instr) (s : State) : State := { s with sched := [.issue (encode i) s.oob] }

/-! ### WellFormed: an ill-formed term for each check -/

theorem test_smiRead_register_32_is_ill_formed : (Instr.smiRead 32).wellFormed = false := by decide
theorem test_smiWrite_register_32_is_ill_formed : (Instr.smiWrite 32 0).wellFormed = false := by decide
theorem test_adpReceive_task_65536_is_ill_formed : (Instr.adpReceive 65536).wellFormed = false := by decide
theorem test_adpTransmit_task_65536_is_ill_formed : (Instr.adpTransmit 65536).wellFormed = false := by decide
theorem test_adpLink_task_65536_is_ill_formed : (Instr.adpLink 65536).wellFormed = false := by decide
theorem test_task_65535_is_well_formed : (Instr.adpReceive 65535).wellFormed = true ∧
    (Instr.adpTransmit 65535).wellFormed = true ∧ (Instr.adpLink 65535).wellFormed = true := by decide
theorem test_register_31_is_well_formed :
    (Instr.smiRead 31).wellFormed = true ∧ (Instr.smiWrite 31 0).wellFormed = true := by decide

/-! ### Decode: the words of test vector V-ENC (R67), and words written from the formats of R64 -/

/-- Each word decodes to the operation, and is the operation's word. -/
def Spells (l : List (OpWord × Instr)) : Bool := l.all fun p => decode p.1 == .ok p.2 && encode p.2 == p.1

theorem test_decode_ring_words : Spells
    [(0x01000000, .qInit), (0x10000000, .txrAvail), (0x1100003C, .txrTransmit 60),
     (0x110005EB, .txrTransmit 1515), (0x18000000, .rxrAvail), (0x19000000, .rxrPop)] = true := by decide
theorem test_decode_token_words : Spells
    [(0x1400FFFF, .txtConsume 65535), (0x14000004, .txtConsume 4), (0x1C000000, .rxtConsume)] = true := by decide
theorem test_decode_adapter_words : Spells
    [(0x20000005, .adpReceive 5), (0x2100FFFF, .adpTransmit 65535), (0x22000003, .adpLink 3),
     (0x23000000, .adpCaps), (0x24000000, .adpHwaddr), (0x25000000, .adpEndpoll)] = true := by decide
theorem test_decode_smi_words : Spells
    [(0x30040000, .smiRead 4), (0x301F0000, .smiRead 31), (0x31041801, .smiWrite 4 0x1801),
     (0x311FFFFF, .smiWrite 31 0xFFFF), (0x38000000, .phyReset), (0x39000000, .phyInit),
     (0x3A000000, .phyPoll)] = true := by decide
theorem test_decode_dma_words : Spells
    [(0x80000000, .dmaTx), (0x81000000, .dmaRx), (0x82000000, .irqDeliver)] = true := by decide

theorem test_decode_refuses_unassigned_opcodes :
    [0x00000000, 0x02000000, 0x12000000, 0x3B000000, 0xFF000000].all
      (fun w => decode w == .error .noSuchOperation) = true := by decide
theorem test_decode_refuses_reserved_bits :
    [0x10000001, 0x11010000, 0x11800000, 0x30200000, 0x30040001, 0x31E01801].all
      (fun w => decode w == .error .reservedBitsSet) = true := by decide

theorem test_tableWord_reads_the_word : decodeTableWord 32 0x31041801 = some (.smiWrite 4 0x1801) := by decide
theorem test_tableWord_refuses_wider_numbers : decodeTableWord 40 0x0131041801 = none := by decide
theorem test_withFetchWord_runs_first :
    step (State.reset.withFetchWord 32 0x23000000) = exec .adpCaps State.reset := rfl

/-! ### One step each: the expected values are those of the spec's vectors -/

/-- Ownership flags of a ring. -/
def owns (r : Ring) : List Owner := r.desc.map (·.own)

/-- VR1 -/
theorem test_qInit_arms : (nextOf (exec .qInit s0)).map (fun t => (owns t.tx, owns t.rx, t.initialised)) =
    some ([.sw, .sw], [.hw, .hw], true) := by decide
/-- VF3 -/
theorem test_qInit_busy_names_least_slot :
    (nextOf (exec .qInit (withTx [(4, .sw), (4, .hw)] 0 1 none))).map (·.fault) =
      some (some (.initBusy .tx 1)) := by decide
/-- VR2, VR6 -/
theorem test_txrAvail_ignores_live_token : (nextOf (exec .txrAvail tokTx)).map (·.ret) = some (.txSlot (some 0)) := by
  decide
/-- VR3 -/
theorem test_txrAvail_full : (nextOf (exec .txrAvail full)).map (·.ret) = some (.txSlot none) := by decide
/-- W-B step 2 -/
theorem test_rxrAvail_bytes :
    (nextOf (exec .rxrAvail landed)).map (fun t => (t.ret, viewBytes t.mem ⟨0x20010000, 3⟩)) =
      some (.rxFrame (some (0, ⟨0x20010000, 3⟩)), [7, 8, 9]) := by decide
/-- VF4 -/
theorem test_rxrAvail_before_init :
    (nextOf (exec .rxrAvail s0)).map (·.fault) = some (some (.notInitialised .rxrAvail)) := by decide
/-- VR7 -/
theorem test_txrTransmit : (nextOf (exec (.txrTransmit 60) tokTx)).map (·.tx) =
    some (txOf [(60, .hw), (0, .sw)] 1 0 none) := by decide
/-- VR9, VR10 -/
theorem test_txrTransmit_length_bound :
    (nextOf (exec (.txrTransmit 1514) tokTx)).map (·.fault) = some none ∧
    (nextOf (exec (.txrTransmit 1515) tokTx)).map (·.fault) = some (some (.txLenRange 1515)) := by decide
/-- VR11 -/
theorem test_rxrPop : (nextOf (exec .rxrPop tokRx)).map (fun t => (t.rx, t.tx.live, t.hist)) =
    some (rxOf [(0, .hw), (0, .hw)] 1 1 none, some ⟨0, 1⟩, []) := by decide
/-- R79's example: the cursor wraps -/
theorem test_rxrPop_wraps :
    (nextOf (exec .rxrPop { withRx [(0, .hw), (9, .sw)] 1 0 (some ⟨1, 4⟩) with oob := { tok := ⟨.rx, 1, 4⟩ } })).map
      (fun t => (owns t.rx, t.rx.next, t.rx.live)) = some ([.hw, .hw], 0, none) := by decide
/-- VT1 -/
theorem test_txtConsume : (nextOf (exec (.txtConsume 4)
      { tokTx with oob := { tok := ⟨.tx, 0, 0⟩, txFun := .store [0xDE, 0xAD, 0xBE, 0xEF] .unit } })).map
        (fun t => (t.mem.readBytes 0x20000000 5, t.tx, t.ret)) =
    some ([0xDE, 0xAD, 0xBE, 0xEF, 0], txOf [(4, .hw), (0, .sw)] 1 0 none, .caller .unit) := by decide
/-- VT10 -/
theorem test_txtConsume_identity : (nextOf (exec (.txtConsume 3) tokTx)).map (fun t => (t.mem, t.ret)) =
    some ([], .caller (.num 3)) := by decide
/-- VT11 -/
theorem test_rxtConsume : (nextOf (exec .rxtConsume tokRx)).map (fun t => (t.rx, t.hist, t.ret)) =
    some (rxOf [(0, .hw), (0, .hw)] 1 1 none, [.delivered 0 [7, 8, 9]], .caller (.num 3)) := by decide
/-- VT13: a token of the other ring -/
theorem test_rxtConsume_wrong_ring :
    (nextOf (exec .rxtConsume { tokRx with oob := { tok := ⟨.tx, 0, 1⟩ } })).map (·.fault) =
      some (some (.noLiveToken .rxtConsume ⟨.tx, 0, 1⟩)) := by decide
/-- VA1 -/
theorem test_adpReceive : (nextOf (exec (.adpReceive 5) landed)).map (fun t => (t.ret, t.tokGen, t.waker)) =
    some (.tokens (some (⟨.rx, 0, 0⟩, ⟨.tx, 0, 1⟩)), 2, none) := by decide
/-- W-B step 3 -/
theorem test_adpReceive_needs_both : (nextOf (exec (.adpReceive 5) { landed with tx := full.tx })).map
      (fun t => (t.ret, t.waker, t.rx.live)) = some (.tokens none, some 5, none) := by decide
/-- VA8 -/
theorem test_adpTransmit : (nextOf (exec (.adpTransmit 9) s0)).map (fun t => (t.ret, t.tokGen)) =
    some (.token (some ⟨.tx, 0, 0⟩), 1) := by decide
/-- VA9 -/
theorem test_adpTransmit_live_token : (nextOf (exec (.adpTransmit 9) tokTx)).map (fun t => (t.ret, t.waker)) =
    some (.token none, some 9) := by decide
/-- VA14, and W-D's case D-up -/
theorem test_adpLink_up : (nextOf (exec (.adpLink 3) { s0 with phy := phyOf 0x782D 0x1018, waker := some 4 })).map
      (fun t => (t.ret, t.waker, t.hist)) =
    some (.link true, some 4, [.woken 3, .smiRd 1 0x782D, .smiRd 31 0x1018]) := by decide
/-- W-D's case D-down1 -/
theorem test_adpLink_down : (nextOf (exec (.adpLink 3) { s0 with phy := phyOf 0x7829 0x1018 })).map (·.ret) =
    some (.link false) := by decide
/-- VA10, VA11 -/
theorem test_adpCaps :
    (nextOf (exec .adpCaps (State.resetOf { depth 4 8 with isLegal := by decide }))).map (·.ret) = some (.caps 1514 4) ∧
    (nextOf (exec .adpCaps (State.resetOf cfg1))).map (·.ret) = some (.caps 1514 1) := by decide
/-- VA12 -/
theorem test_adpHwaddr : (nextOf (exec .adpHwaddr s0)).map (·.ret) = some (.hwaddr 0x020000000001) := by decide
/-- VA13 -/
theorem test_adpEndpoll : (nextOf (exec .adpEndpoll tokRx)).map (fun t => (t.tx, t.rx, t.tokGen)) =
    some (txOf [(0, .sw), (0, .sw)] 0 0 none, rxOf [(3, .sw), (0, .hw)] 0 1 none, 2) := by decide
/-- VS8's register 1 -/
theorem test_smiRead : (nextOf (exec (.smiRead 1) { s0 with phy := phyOf 0x782D 0x1018 })).map
      (fun t => (t.ret, t.hist)) = some (.smi 0x782D, [.smiRd 1 0x782D]) := by decide
/-- VS4 -/
theorem test_smiRead_range : (nextOf (exec (.smiRead 32) s0)).map (·.fault) = some (some (.smiRegRange 32)) := by
  decide
/-- VS2 -/
theorem test_smiWrite : (nextOf (exec (.smiWrite 31 0xFFFF) s0)).map (fun t => (t.phy, t.hist)) =
    some (phyOf 0 0xFFFF, [.smiWr 31 0xFFFF]) := by decide
/-- VS7's first step -/
theorem test_phyReset_first_smi : (nextOf (exec .phyReset s0)).map (fun t => (t.hist, t.routine)) =
    some ([.smiWr 0 0x8000], some ⟨.reset, 1, [0]⟩) := by decide
/-- VS6's second step, on the self-clearing PHY: the routine returns -/
theorem test_phyReset_returns :
    (nextOf (routineTurn { State.resetOf (cfgOf .selfClearing .reference false) with
      routine := some ⟨.reset, 1, [0]⟩ })).map (fun t => (t.hist, t.routine, t.ret)) =
    some ([.smiRd 0 0], none, .unit) := by decide
/-- VS5 -/
theorem test_phyInit : (nextOf (exec .phyInit s0)).map (fun t => (t.hist, t.phy.regs[0], t.routine)) =
    some ([.smiWr 0 0x3200], 0x3200, none) := by decide
/-- VS8, VS9 -/
theorem test_phyPoll :
    (nextOf (exec .phyPoll { s0 with phy := phyOf 0x782D 0x1018 })).map (·.ret) = some (.flag true) ∧
    (nextOf (exec .phyPoll { s0 with phy := phyOf 0x782D 0x0018 })).map (·.ret) = some (.flag false) := by decide
/-- VD6's first step -/
theorem test_dmaTx : (nextOf (exec .dmaTx full)).map (fun t => (t.hist, owns t.tx, t.tx.hw, t.irqPending)) =
    some ([.sent [1, 2, 3, 4]], [.sw, .hw], 1, true) := by decide
/-- VD1 -/
theorem test_dmaTx_not_enabled : stopOf (exec .dmaTx s0) = some .txNotEnabled := by decide
/-- VD3's second step -/
theorem test_dmaRx_wraps :
    (nextOf (exec .dmaRx { withRx [(1, .sw), (0, .hw)] 0 1 none with
      oob := { frame := [2, 3], status := 0x80000000 } })).map
      (fun t => (t.rx.desc.map (fun d => (d.len, d.own, d.status)), t.rx.hw, t.mem.readBytes 0x20010600 2)) =
    some ([(1, .sw, 0), (2, .sw, 0x80000000)], 0, [2, 3]) := by decide
/-- VD5 -/
theorem test_dmaRx_not_enabled : stopOf (exec .dmaRx s0) = some .rxNotEnabled := by decide
/-- W-P5 step 4 -/
theorem test_irqDeliver : (nextOf (exec .irqDeliver { s0 with irqPending := true, waker := some 8 })).map
      (fun t => (t.hist, t.irqPending, t.waker)) = some ([.woken 8], false, some 8) := by decide
/-- VD9 -/
theorem test_irqDeliver_clears :
    (nextOf (exec .irqDeliver { State.resetOf (cfgOf .simulated .reference true) with
      irqPending := true, waker := some 1 })).map (fun t => (t.hist, t.waker)) = some ([.woken 1], none) := by decide

/-! ### Memory, configuration and turns -/

theorem test_memory_write_keeps_canonical_form :
    Memory.write [(1, 7), (4, 9)] 3 5 = [(1, 7), (3, 5), (4, 9)] ∧ Memory.write [(1, 7), (4, 9)] 4 0 = [(1, 7)] := by
  decide
/-- W-N: a stride of 1514 misaligns slot 1 and is refused -/
theorem test_construct_refuses_stride_1514 :
    ({ Params.default with txAddr := contiguous 0x20000000 1514 2 } : Params).legal = false ∧
    Params.default.txAddr = [0x20000000, 0x200005F0] ∧ Params.default.rxAddr = [0x20010000, 0x20010600] := by decide
/-- R9, R44: the widths are arguments; a buffer past the top of a 29-bit space, or of the default one, is refused -/
theorem test_construct_refuses_past_the_top :
    ({ Params.default with addrW := 29 } : Params).legal = false ∧ ({ Params.default with addrW := 30 } : Params).legal = true ∧
    (Params.unplaced.place 0xFFFFFA10 0x20010000 2 1).legal = false ∧
    (Params.unplaced.place 0xFFFFFA10 0x20010000 1 1).legal = true := by decide
/-- R10: a buffer size of 2^LEN_W is refused -/
theorem test_construct_refuses_narrow_length :
    ({ Params.default with lenW := 10 } : Params).legal = false ∧ ({ Params.default with lenW := 11 } : Params).legal = true := by
  decide
/-- R24: the drawn status is STATUS_W bits wide -/
theorem test_dmaTx_status_width : (nextOf (exec .dmaTx
      { full with cfg := { Params.default with statusW := 8, isLegal := (by decide : Params.default.legal = true) },
                  oob := { status := 0x1FF } })).map (fun t => t.tx.desc.map (·.status)) = some [0xFF, 0] := by decide
/-- R10: rings of depth 0 are refused -/
theorem test_construct_refuses_depth_0 : (depth 0 1).legal = false ∧ (depth 1 0).legal = false := by decide
/-- VF7 -/
theorem test_faulted_machine_stops :
    stopOf (step { issue .dmaTx full with fault := some (.txLenRange 0) }) = some .quiescent := by decide
/-- R112: an operation of `SW` waits for the routine in progress and stays scheduled -/
theorem test_software_waits :
    (nextOf (step { issue .adpCaps s0 with routine := some ⟨.reset, 1, [0]⟩ })).map
      (fun t => (t.hist, t.routine, t.sched.length)) = some ([.smiRd 0 0], none, 1) := by decide
/-- W-A step 5 in one pseudo-operation: not ready, so nothing is consumed -/
theorem test_transmit_not_ready : (nextOf (transmitPseudo 1 4 .keep full)).map (fun t => (t.waker, t.ret)) =
    some (some 1, .flag false) := by decide
/-- W-A step 1 in one pseudo-operation: it returns that a token was issued -/
theorem test_transmit_ready : (nextOf (transmitPseudo 1 4 (.store [1, 2, 3, 4] .unit) s0)).map
      (fun t => (owns t.tx, t.ret)) = some ([.hw, .sw], .flag true) := by decide

/-! ### Witnesses: states and operands that meet the hypotheses of each statement -/

theorem inv_of_lists {s : State} {k j : Nat} (hm : s.mem.wf)
    (hts : s.tx.desc.map (·.addr) = s.cfg.txAddr ∧ s.tx.next < s.cfg.nTx ∧ s.tx.hw < s.cfg.nTx)
    (hfits : (∀ d ∈ s.tx.desc, d.Fits s.cfg) ∧ ∀ d ∈ s.rx.desc, d.Fits s.cfg)
    (htl : ∀ d ∈ s.tx.desc, d.own = .hw → d.LenIn s.cfg.txBufSize)
    (htf : k ≤ s.cfg.nTx ∧ s.tx.next = (s.tx.hw + k) % s.cfg.nTx ∧
      ∀ i < s.cfg.nTx, s.tx.Owns .hw ((s.tx.hw + i) % s.cfg.nTx) ↔ i < k)
    (htt : s.tx.TokenOk s.tokGen)
    (hrs : s.rx.desc.map (·.addr) = s.cfg.rxAddr ∧ s.rx.next < s.cfg.nRx ∧ s.rx.hw < s.cfg.nRx)
    (hi : s.initialised = true)
    (hrl : ∀ d ∈ s.rx.desc, d.own = .sw → d.LenIn s.cfg.rxBufSize)
    (hrf : j ≤ s.cfg.nRx ∧ s.rx.hw = (s.rx.next + j) % s.cfg.nRx ∧
      ∀ i < s.cfg.nRx, s.rx.Owns .sw ((s.rx.next + i) % s.cfg.nRx) ↔ i < j)
    (hrt : s.rx.TokenOk s.tokGen) : s.Inv :=
  ⟨hm, ⟨⟨hts.1, hts.2.1, hts.2.2⟩, hfits.1, htl, ⟨k, htf⟩, htt⟩,
    ⟨⟨hrs.1, hrs.2.1, hrs.2.2⟩, hfits.2, by simp [hi], fun _ => hrl, fun _ => ⟨j, hrf⟩, hrt⟩⟩

theorem tokenOk_none {r : Ring} {g : Nat} (h : r.live = none) : r.TokenOk g := by
  intro l hl; simp [h] at hl

theorem tokenOk_some {r : Ring} {g : Nat} {l : Live} (h : r.live = some l)
    (hl : l.slot = r.next ∧ r.Owns .sw r.next ∧ l.gen < g) : r.TokenOk g := by
  intro l' hl'; obtain rfl : l = l' := by simpa [h] using hl'
  exact hl

/-- The legal and illegal TX lengths at their bounds. -/
theorem tx_lens {n : Nat} (h : n = 1514) :
    (∀ len ∈ [(0 : Half), 1515, 65535], ¬(1 ≤ len.toNat ∧ len.toNat ≤ n)) ∧
    (∀ len ∈ [(1 : Half), 1514], 1 ≤ len.toNat ∧ len.toNat ≤ n) := by subst h; simp

/-- Q: nothing in flight, every RX slot armed. -/
theorem inv_q : q.Inv :=
  inv_of_lists (k := 0) (j := 0) (by decide) (by decide) (by decide) (by decide) (by decide) (tokenOk_none rfl) (by decide) rfl
    (by decide) (by decide) (tokenOk_none rfl)

/-- Q with a full TX ring. -/
def qFull : State := { full with rx := q.rx, initialised := true }

theorem inv_qFull : qFull.Inv :=
  inv_of_lists (k := 2) (j := 0) (by decide) (by decide) (by decide) (by decide) (by decide) (tokenOk_none rfl) (by decide) rfl
    (by decide) (by decide) (tokenOk_none rfl)

/-- A landed frame and both tokens live. -/
theorem inv_tokRx : tokRx.Inv :=
  inv_of_lists (k := 0) (j := 1) (by decide) (by decide) (by decide) (by decide) (by decide) (tokenOk_some rfl (by decide))
    (by decide) rfl (by decide) (by decide) (tokenOk_some rfl (by decide))

theorem witness_DecodeOfEncodeIsInstr :
    (Instr.smiWrite 31 0xFFFF).wellFormed = true ∧ (Instr.txtConsume 0).wellFormed = true := by decide

theorem witness_EncodeOfDecodeIsWord : decode 0x311FFFFF = .ok (.smiWrite 31 0xFFFF) := by decide

theorem witness_MaskAndMatchSelectRow :
    (⟨.smiWrite, 0x31000000, 0xFFE00000⟩ : MaskRow) ∈ maskTable ∧ (0x311FFFFF &&& 0xFFE00000 : OpWord) = 0x31000000 ∧
    decode 0x311FFFFF = .ok (.smiWrite 31 0xFFFF) := by decide

theorem witness_ReservedWordsAreRefused :
    (∀ r ∈ maskTable, r.pattern.extractLsb' 24 8 ≠ (0x3B000000 : OpWord).extractLsb' 24 8) ∧
    (∃ r ∈ maskTable, r.pattern.extractLsb' 24 8 = (0x31E01801 : OpWord).extractLsb' 24 8 ∧
      (0x31E01801 : OpWord) &&& r.mask ≠ r.pattern) ∧
    (∃ s : State, s.fault = none ∧ s.sched = .issue 0x31E01801 {} :: [] ∧
      decode 0x31E01801 = .error .reservedBitsSet) :=
  ⟨by decide, ⟨⟨.smiWrite, 0x31000000, 0xFFE00000⟩, by decide, by decide, by decide⟩,
    { s0 with sched := [.issue 0x31E01801 {}] }, by decide, by decide, by decide⟩

theorem witness_StepRunsTheIssuedOperation :
    (∃ s : State, s.sched = .issue 0x23000000 {} :: [] ∧ decode 0x23000000 = .ok .adpCaps ∧
      (Instr.adpCaps.agent = .sw → s.routine = none)) ∧
    (∃ s : State, s.sched = .issue 0x80000000 {} :: [] ∧ decode 0x80000000 = .ok .dmaTx ∧ s.routine ≠ none ∧
      (Instr.dmaTx.agent = .sw → s.routine = none)) :=
  ⟨⟨{ s0 with sched := [.issue 0x23000000 {}] }, by decide, by decide, by decide⟩,
    { s0 with sched := [.issue 0x80000000 {}], routine := some ⟨.reset, 1, [0]⟩ },
    by decide, by decide, by decide, by decide⟩

theorem witness_SoftwareWaitsForRoutine :
    (∃ s : State, s.fault = none ∧ s.routine ≠ none ∧ Instr.adpCaps.agent = .sw ∧
      s.sched = .issue 0x23000000 {} :: [] ∧ decode 0x23000000 = .ok .adpCaps) ∧
    (∃ s : State, s.sched = .routine :: [] ∧ s.routine ≠ none) ∧ (∃ s : State, s.sched = [] ∧ s.routine ≠ none) ∧
    (s0.sched = [] ∧ s0.routine = none ∧ s0.fault = none) :=
  ⟨⟨{ s0 with sched := [.issue 0x23000000 {}], routine := some ⟨.reset, 1, [0]⟩ },
      by decide, by decide, by decide, by decide, by decide⟩,
    ⟨{ s0 with sched := [.routine], routine := some ⟨.reset, 1, [0]⟩ }, by decide⟩,
    ⟨{ s0 with routine := some ⟨.reset, 1, [0]⟩ }, by decide⟩, by decide⟩

theorem witness_FaultedMachineIsQuiescent : ∃ s : State, s.fault ≠ none :=
  ⟨{ s0 with fault := some .initTwice }, by decide⟩

theorem witness_RaisedFaultIsTheOnlyWrite :
    (∃ t, exec .rxrAvail s0 = .next t ∧ t.fault ≠ none) ∧
    (∃ s t : State, routineTurn s = .next t ∧ t.fault ≠ none) :=
  ⟨⟨_, rfl, by decide⟩,
    { State.resetOf (cfgOf .simulated badDriver false) with routine := some ⟨.reset, 0, [0]⟩ }, _, rfl, by decide⟩

theorem witness_QInitArmsTheRings :
    (q.SwReady ∧ q.initialised = true) ∧
    (∃ s : State, s.SwReady ∧ s.initialised = false ∧ s.tx.Owns .hw 1 ∧ ∀ j < 1, ¬s.tx.Owns .hw j) ∧
    (∃ s : State, s.SwReady ∧ s.initialised = false ∧ s.tx.Owns .hw 0 ∧ ∀ j < 0, ¬s.tx.Owns .hw j) ∧
    (s0.SwReady ∧ s0.initialised = false ∧ ∀ i, ¬s0.tx.Owns .hw i) :=
  ⟨by decide, ⟨withTx [(4, .sw), (4, .hw)] 0 1 none, by decide⟩, ⟨full, by decide⟩, by decide, by decide,
    fun i => match i with | 0 => by decide | 1 => by decide | _ + 2 => by simp [s0, State.reset, State.resetOf, Ring.reset, Config.default, Params.default]⟩

theorem witness_TxrAvailReportsFreeSlot :
    (s0.SwReady ∧ ∃ d, s0.tx.desc[s0.tx.next]? = some d ∧ d.own = .sw) ∧
    (full.SwReady ∧ ∃ d, full.tx.desc[full.tx.next]? = some d ∧ d.own = .hw) :=
  ⟨⟨by decide, _, rfl, by decide⟩, by decide, _, rfl, by decide⟩

theorem witness_RxrAvailExposesReceivedBytes :
    (s0.SwReady ∧ s0.initialised = false) ∧
    (∃ s : State, s.SwReady ∧ ∃ d a, s.initialised = true ∧ s.rx.desc[s.rx.next]? = some d ∧ d.own = .sw ∧
      d.len = 1536 ∧ d.len ≤ s.cfg.rxBufSize ∧ bufAddr s.cfg .rx s.rx.next = some a) ∧
    (∃ s : State, s.SwReady ∧ ∃ d a, s.initialised = true ∧ s.rx.desc[s.rx.next]? = some d ∧ d.own = .sw ∧
      d.len = 1 ∧ d.len ≤ s.cfg.rxBufSize ∧ bufAddr s.cfg .rx s.rx.next = some a) ∧
    (q.SwReady ∧ ∃ d, q.initialised = true ∧ q.rx.desc[q.rx.next]? = some d ∧ d.own = .hw) :=
  ⟨by decide, ⟨withRx [(1536, .sw), (0, .hw)] 0 1 none, by decide, _, _, by decide, rfl, by decide, by decide, by decide, rfl⟩,
    ⟨withRx [(0, .hw), (1, .sw)] 1 0 none, by decide, _, _, by decide, rfl, by decide, by decide, by decide, rfl⟩,
    by decide, _, by decide, rfl, by decide⟩

/-- The token is live but its slot is hardware-owned: only a state that no run reaches (R84). -/
def tokTxHw : State := { tokTx with tx := txOf [(4, .hw), (0, .sw)] 0 0 (some ⟨0, 0⟩) }

/-- As `tokTxHw`, on the RX ring. -/
def tokRxHw : State := { tokRx with rx := rxOf [(3, .hw), (0, .hw)] 0 1 (some ⟨0, 0⟩) }

theorem witness_TxrTransmitSubmitsSlot :
    (full.SwReady ∧ ¬full.LiveTx) ∧
    (tokTxHw.SwReady ∧ tokTxHw.LiveTx ∧ ∃ d, tokTxHw.tx.desc[tokTxHw.oob.tok.slot]? = some d ∧ d.own = .hw) ∧
    (tokTx.SwReady ∧ tokTx.LiveTx ∧ ∃ d, tokTx.tx.desc[tokTx.oob.tok.slot]? = some d ∧ d.own = .sw ∧
      (∀ len ∈ [(0 : Half), 1515, 65535], ¬(1 ≤ len.toNat ∧ len.toNat ≤ tokTx.cfg.txBufSize)) ∧
      (∀ len ∈ [(1 : Half), 1514], 1 ≤ len.toNat ∧ len.toNat ≤ tokTx.cfg.txBufSize)) :=
  ⟨by decide, ⟨by decide, by decide, _, rfl, by decide⟩, by decide, by decide, _, rfl, by decide, (tx_lens rfl).1, (tx_lens rfl).2⟩

theorem witness_RxrPopRetiresSlot :
    (s0.SwReady ∧ s0.initialised = false) ∧ (landed.SwReady ∧ landed.initialised = true ∧ ¬landed.LiveRx) ∧
    (tokRxHw.SwReady ∧ tokRxHw.initialised = true ∧ tokRxHw.LiveRx ∧
      ∃ d, tokRxHw.rx.desc[tokRxHw.oob.tok.slot]? = some d ∧ d.own = .hw) ∧
    (tokRx.SwReady ∧ tokRx.initialised = true ∧ tokRx.LiveRx ∧
      ∃ d, tokRx.rx.desc[tokRx.oob.tok.slot]? = some d ∧ d.own = .sw) :=
  ⟨by decide, by decide, ⟨by decide, by decide, by decide, _, rfl, by decide⟩, by decide, by decide, by decide, _, rfl, by decide⟩

theorem witness_TxtConsumeWritesAndSubmits :
    (full.SwReady ∧ ¬full.LiveTx) ∧
    (tokTxHw.SwReady ∧ tokTxHw.LiveTx ∧ ∃ d, tokTxHw.tx.desc[tokTxHw.oob.tok.slot]? = some d ∧ d.own = .hw) ∧
    (tokTx.SwReady ∧ tokTx.LiveTx ∧ ∃ d a, tokTx.tx.desc[tokTx.oob.tok.slot]? = some d ∧ d.own = .sw ∧
      bufAddr tokTx.cfg .tx tokTx.oob.tok.slot = some a ∧
      (∀ len ∈ [(0 : Half), 1515, 65535], ¬(1 ≤ len.toNat ∧ len.toNat ≤ tokTx.cfg.txBufSize)) ∧
      (∀ len ∈ [(1 : Half), 1514], 1 ≤ len.toNat ∧ len.toNat ≤ tokTx.cfg.txBufSize)) :=
  ⟨by decide, ⟨by decide, by decide, _, rfl, by decide⟩, by decide, by decide, _, _, rfl, by decide, rfl, (tx_lens rfl).1, (tx_lens rfl).2⟩

theorem witness_RxtConsumeDeliversAndRetires :
    (s0.SwReady ∧ s0.initialised = false) ∧ (landed.SwReady ∧ landed.initialised = true ∧ ¬landed.LiveRx) ∧
    (tokRxHw.SwReady ∧ tokRxHw.initialised = true ∧ tokRxHw.LiveRx ∧
      ∃ d, tokRxHw.rx.desc[tokRxHw.oob.tok.slot]? = some d ∧ d.own = .hw) ∧
    (∀ n ∈ [1, 3, 1536], ∃ s : State, s.SwReady ∧ s.initialised = true ∧ s.LiveRx ∧
      ∃ d a, s.rx.desc[s.oob.tok.slot]? = some d ∧ d.own = .sw ∧ d.len = n ∧ d.len ≤ s.cfg.rxBufSize ∧
        bufAddr s.cfg .rx s.oob.tok.slot = some a) := by
  refine ⟨by decide, by decide, ⟨by decide, by decide, by decide, _, rfl, by decide⟩, ?_⟩
  intro n hn
  refine ⟨{ tokRx with rx := rxOf [(n, .sw), (0, .hw)] 0 1 (some ⟨0, 0⟩) }, ⟨rfl, rfl⟩, rfl, ⟨rfl, rfl⟩, _, _, rfl, rfl, rfl, ?_, rfl⟩
  show n ≤ 1536
  revert n; simp

theorem witness_AdpReceiveIssuesBothTokensOrNone :
    (s0.SwReady ∧ s0.initialised = false) ∧
    (landed.SwReady ∧ landed.initialised = true ∧ ∃ dr dt, landed.rx.desc[landed.rx.next]? = some dr ∧
      landed.tx.desc[landed.tx.next]? = some dt ∧
      ((landed.rx.live = none ∧ dr.own = .sw) ∧ (landed.tx.live = none ∧ dt.own = .sw))) ∧
    (∀ s ∈ [q, tokRx, { landed with tx := full.tx }], s.SwReady ∧ s.initialised = true ∧
      ∃ dr dt, s.rx.desc[s.rx.next]? = some dr ∧ s.tx.desc[s.tx.next]? = some dt ∧
        ¬((s.rx.live = none ∧ dr.own = .sw) ∧ (s.tx.live = none ∧ dt.own = .sw))) := by
  refine ⟨by decide, ⟨by decide, by decide, _, _, rfl, rfl, by decide⟩, ?_⟩
  simp only [List.forall_mem_cons, List.not_mem_nil, false_imp_iff, implies_true, and_true]
  exact ⟨⟨by decide, by decide, _, _, rfl, rfl, by decide⟩, ⟨by decide, by decide, _, _, rfl, rfl, by decide⟩,
    by decide, by decide, _, _, rfl, rfl, by decide⟩

theorem witness_AdpTransmitIssuesTokenOrNone :
    (s0.SwReady ∧ ∃ d, s0.tx.desc[s0.tx.next]? = some d ∧ s0.tx.live = none ∧ d.own = .sw) ∧
    (tokTx.SwReady ∧ ∃ d, tokTx.tx.desc[tokTx.tx.next]? = some d ∧ ¬(tokTx.tx.live = none ∧ d.own = .sw)) ∧
    (full.SwReady ∧ ∃ d, full.tx.desc[full.tx.next]? = some d ∧ ¬(full.tx.live = none ∧ d.own = .sw)) :=
  ⟨⟨by decide, _, rfl, by decide, by decide⟩, ⟨by decide, _, rfl, by decide⟩, by decide, _, rfl, by decide⟩

/-- The default configuration with the driver `badDriver`. -/
def bad : State := State.resetOf (cfgOf .simulated badDriver false)

/-- The default configuration with the driver `readDriver`. -/
def reader : State := State.resetOf (cfgOf .simulated readDriver false)

theorem witness_LinkPollsReadThePhy :
    (s0.SwReady ∧ ∀ reg ∈ s0.cfg.driver.poll.reads, reg ≤ 31) ∧
    (bad.SwReady ∧ ∃ pre reg post, bad.cfg.driver.poll.reads = pre ++ reg :: post ∧ (∀ r ∈ pre, r ≤ 31) ∧ 31 < reg) :=
  ⟨by decide, by decide, [1], 32, [], by decide, by decide, by decide⟩

theorem witness_PollReadsAreFixedSequence :
    (∃ regs vals p, s0.SwReady ∧ regs = s0.cfg.driver.poll.reads ∧ (∀ reg ∈ regs, reg ≤ 31) ∧
      smiReads s0.cfg regs s0.phy = (vals, p) ∧ vals.length = 2) ∧
    (∃ regs vals p, reader.SwReady ∧ regs = reader.cfg.driver.poll.reads ∧ (∀ reg ∈ regs, reg ≤ 31) ∧
      smiReads reader.cfg regs reader.phy = (vals, p) ∧ vals.length = 0) :=
  ⟨⟨_, _, _, by decide, rfl, by decide, rfl, rfl⟩, _, _, _, by decide, rfl, by decide, rfl, rfl⟩

theorem witness_LinkDownIsReportedAsDown :
    ∃ s : State, s.SwReady ∧ (∀ reg ∈ s.cfg.driver.poll.reads, reg ≤ 31) ∧
      evalCond (pollReads s.cfg s.cfg.driver.poll.reads s.phy).1 s.cfg.driver.poll.linkUp = false :=
  ⟨{ s0 with phy := phyOf 0x7829 0x1018 }, by decide, by decide, by decide⟩

theorem witness_ReferencePollOnSimulatedPhy :
    s0.SwReady ∧ s0.cfg.driver = Driver.reference ∧ s0.cfg.phyModel = .simulated := by decide

theorem witness_StaticFacetsAreConstant :
    s0.SwReady ∧ s0.cfg.mtu = s0.cfg.txBufSize ∧ s0.cfg.maxBurst = min s0.cfg.nTx s0.cfg.nRx := by decide

theorem witness_AdpEndpollExpiresTokens : tokRx.SwReady ∧ tokRx.tx.live ≠ none ∧ tokRx.rx.live ≠ none := by decide

theorem witness_SmiReadReturnsPhyValue :
    s0.SwReady ∧ 31 < 32 ∧ ∀ reg ∈ [0, 31], reg ≤ 31 ∧
      ∃ v p, phyRead s0.cfg.phyModel s0.phy s0.cfg.phyAddr (BitVec.ofNat 5 reg) = (v, p) :=
  ⟨by decide, by decide, fun reg h => ⟨by revert reg; decide, _, _, rfl⟩⟩

theorem witness_SmiWriteReachesPhy : s0.SwReady ∧ 31 < 32 ∧ 31 ≤ 31 ∧ 0 ≤ 31 := by decide

theorem witness_SimulatedPhyLoopsBack :
    s0.SwReady ∧ s0.cfg.phyModel = .simulated ∧ 31 ≤ 31 ∧ 0 ≤ 31 ∧ 0 ≠ 31 := by decide

theorem witness_PhyRoutineStartsWithFirstSmi :
    (reader.SwReady ∧ (routineOf reader.cfg .reset).nodes = []) ∧
    (s0.SwReady ∧ ∃ nd rest held reg val, (routineOf s0.cfg .reset).nodes = nd :: rest ∧
      held = List.replicate (routineOf s0.cfg .reset).vars 0 ∧ nd.act = .write reg val ∧
      (evalExpr held reg).toNat ≤ 31 ∧ afterNode .reset (rest.length + 1) nd held ≠ none) ∧
    (s0.SwReady ∧ ∃ nd rest held reg val, (routineOf s0.cfg .init).nodes = nd :: rest ∧
      held = List.replicate (routineOf s0.cfg .init).vars 0 ∧ nd.act = .write reg val ∧
      (evalExpr held reg).toNat ≤ 31 ∧ afterNode .init (rest.length + 1) nd held = none) ∧
    (reader.SwReady ∧ ∃ nd rest held reg into v p, (routineOf reader.cfg .init).nodes = nd :: rest ∧
      held = List.replicate (routineOf reader.cfg .init).vars 0 ∧ nd.act = .read reg into ∧
      (evalExpr held reg).toNat ≤ 31 ∧
      phyRead reader.cfg.phyModel reader.phy reader.cfg.phyAddr (BitVec.ofNat 5 (evalExpr held reg).toNat) = (v, p)) :=
  ⟨by decide, ⟨by decide, _, _, _, _, _, rfl, rfl, rfl, by decide, by decide⟩,
    ⟨by decide, _, _, _, _, _, rfl, rfl, rfl, by decide, by decide⟩,
    by decide, _, _, _, _, _, _, _, rfl, rfl, rfl, by decide, rfl⟩

theorem witness_PhyRoutineTurnIsOneSmi :
    (∃ (s : State) (r : Running) (nd : RNode) (reg : RExpr) (into : Nat), s.fault = none ∧ s.routine = some r ∧
      (routineOf s.cfg r.id).nodes[r.node]? = some nd ∧ nd.act = .read reg into ∧ (evalExpr r.held reg).toNat ≤ 31 ∧
      ∃ v p, phyRead s.cfg.phyModel s.phy s.cfg.phyAddr (BitVec.ofNat 5 (evalExpr r.held reg).toNat) = (v, p)) ∧
    (∃ (s : State) (r : Running) (nd : RNode) (reg val : RExpr), s.fault = none ∧ s.routine = some r ∧
      (routineOf s.cfg r.id).nodes[r.node]? = some nd ∧ nd.act = .write reg val ∧ (evalExpr r.held reg).toNat ≤ 31) :=
  ⟨⟨{ s0 with routine := some ⟨.reset, 1, [0]⟩ }, _, _, _, _, rfl, rfl, rfl, rfl, by decide, _, _, rfl⟩,
    { s0 with routine := some ⟨.init, 0, []⟩ }, _, _, _, _, rfl, rfl, rfl, rfl, by decide⟩

theorem witness_PhyRoutineRegisterRange :
    (bad.SwReady ∧ ∃ nd rest held reg into, (routineOf bad.cfg .reset).nodes = nd :: rest ∧
      held = List.replicate (routineOf bad.cfg .reset).vars 0 ∧ nd.act = .read reg into ∧ 31 < (evalExpr held reg).toNat) ∧
    (bad.SwReady ∧ ∃ nd rest held reg val, (routineOf bad.cfg .init).nodes = nd :: rest ∧
      held = List.replicate (routineOf bad.cfg .init).vars 0 ∧ nd.act = .write reg val ∧ 31 < (evalExpr held reg).toNat) ∧
    (∃ (s : State) (r : Running) (nd : RNode) (reg val : RExpr), s.fault = none ∧ s.routine = some r ∧
      (routineOf s.cfg r.id).nodes[r.node]? = some nd ∧ nd.act = .write reg val ∧ 31 < (evalExpr r.held reg).toNat) :=
  ⟨⟨by decide, _, _, _, _, _, rfl, rfl, rfl, by decide⟩, ⟨by decide, _, _, _, _, _, rfl, rfl, rfl, by decide⟩,
    { reader with routine := some ⟨.init, 1, [5]⟩ }, _, _, _, _, rfl, rfl, rfl, rfl, by decide⟩

theorem witness_ReferenceResetHangsOnPlainPhy :
    s0.SwReady ∧ s0.cfg.driver = Driver.reference ∧ s0.cfg.phyModel = .simulated := by decide

theorem witness_ReferenceInitWritesControl : s0.SwReady ∧ s0.cfg.driver = Driver.reference := by decide

theorem witness_HardwareAgentsInterleaveWithRoutines :
    Instr.dmaTx.agent ≠ .sw ∧ ∃ t, exec .dmaTx full = .next t := ⟨by decide, _, rfl⟩

theorem witness_DmaTxSendsFrame :
    (s0.fault = none ∧ ∃ d, s0.tx.desc[s0.tx.hw]? = some d ∧ d.own = .sw) ∧
    (∀ n ∈ [1, 1514], ∃ s : State, s.fault = none ∧ ∃ d a, s.tx.desc[s.tx.hw]? = some d ∧ d.own = .hw ∧
      d.len = n ∧ d.len ≤ s.cfg.txBufSize ∧ bufAddr s.cfg .tx s.tx.hw = some a) := by
  refine ⟨⟨by decide, _, rfl, by decide⟩, fun n hn => ?_⟩
  refine ⟨withTx [(0, .sw), (n, .hw)] 0 1 none, rfl, _, _, rfl, rfl, rfl, ?_, rfl⟩
  show n ≤ 1514
  revert n; simp

theorem witness_DmaRxLandsFrame :
    (s0.fault = none ∧ ∃ d, s0.rx.desc[s0.rx.hw]? = some d ∧ d.own = .sw) ∧
    (∀ n ∈ [0, 1537], ∃ s : State, s.fault = none ∧ ∃ d, s.rx.desc[s.rx.hw]? = some d ∧ d.own = .hw ∧
      s.oob.frame.length = n ∧ ¬(1 ≤ s.oob.frame.length ∧ s.oob.frame.length ≤ s.cfg.rxBufSize)) ∧
    (∀ n ∈ [1, 1536], ∃ s : State, s.fault = none ∧ ∃ d a, s.rx.desc[s.rx.hw]? = some d ∧ d.own = .hw ∧
      s.oob.frame.length = n ∧ 1 ≤ s.oob.frame.length ∧ s.oob.frame.length ≤ s.cfg.rxBufSize ∧
      bufAddr s.cfg .rx s.rx.hw = some a) := by
  refine ⟨⟨by decide, _, rfl, by decide⟩, fun n hn => ?_, fun n hn => ?_⟩
  · refine ⟨{ q with oob := { frame := List.replicate n 0xAA } }, rfl, _, rfl, rfl, by simp, ?_⟩
    have h : q.cfg.rxBufSize = 1536 := by decide
    simp only [List.length_replicate]
    revert n; decide
  · refine ⟨{ q with oob := { frame := List.replicate n 0xAA } }, rfl, _, _, rfl, rfl, by simp, ?_, ?_, rfl⟩ <;>
    · simp only [List.length_replicate]
      revert n; decide

theorem witness_IrqDeliverWakesRegisteredTask :
    (s0.fault = none ∧ s0.irqPending = false) ∧ (landed.fault = none ∧ landed.irqPending = true ∧ landed.waker = none) ∧
    (∀ w, ∃ s : State, s.fault = none ∧ s.irqPending = true ∧ s.waker = some 8 ∧ s.cfg.wakeClears = w) :=
  ⟨by decide, by decide, fun w => ⟨{ State.resetOf (cfgOf .simulated .reference w) with
    irqPending := true, waker := some 8 }, rfl, rfl, rfl, rfl⟩⟩

/-- Q with a full TX ring and a registered task. -/
def waiting : State := { full with rx := q.rx, initialised := true, waker := some 1 }

theorem witness_CompletionsCoalesce :
    ∀ i ∈ [Instr.dmaTx, .dmaRx], ∀ j ∈ [Instr.dmaTx, .dmaRx], (i = .dmaTx ∨ i = .dmaRx) ∧ (j = .dmaTx ∨ j = .dmaRx) ∧
      ∃ t u : State, exec i waiting = .next t ∧ exec j { t with oob := { frame := [1, 2] } } = .next u ∧
        waiting.waker = some 1 := by
  simp only [List.forall_mem_cons, List.not_mem_nil, false_imp_iff, implies_true, and_true]
  exact ⟨⟨⟨by decide, by decide, _, _, rfl, rfl, rfl⟩, by decide, by decide, _, _, rfl, rfl, rfl⟩,
    ⟨by decide, by decide, _, _, rfl, rfl, rfl⟩, by decide, by decide, _, _, rfl, rfl, rfl⟩

theorem witness_StepKeepsMemoryCanonical :
    ∃ s t : State, s.mem.wf ∧ step s = .next t ∧ t.mem ≠ s.mem :=
  ⟨issue .dmaRx { q with oob := { frame := [1, 2] } }, _, by decide, rfl, by decide⟩

theorem witness_FrameOfNonStoringOperations :
    ∃ t, exec .dmaTx full = .next t ∧ (∀ len, Instr.dmaTx ≠ .txtConsume len) ∧ Instr.dmaTx ≠ .dmaRx :=
  ⟨_, rfl, by simp, by decide⟩

/-- `TX` token live, and a constant function of four bytes the operand. -/
def storing : State := { tokTx with oob := { tok := ⟨.tx, 0, 0⟩, txFun := .store [1, 2, 3, 4] .unit } }

theorem witness_FrameOfTxtConsume :
    ∃ t a, exec (.txtConsume 4) storing = .next t ∧ bufRange storing.cfg .tx storing.oob.tok.slot 4 = some a ∧
      t.mem ≠ storing.mem := ⟨_, _, rfl, rfl, by decide⟩

theorem witness_FrameOfDmaRx :
    ∃ s t a, exec .dmaRx s = .next t ∧ bufRange s.cfg .rx s.rx.hw s.oob.frame.length = some a ∧ t.mem ≠ s.mem :=
  ⟨{ q with oob := { frame := [1, 2] } }, _, _, rfl, rfl, by decide⟩

theorem witness_AccessTable :
    (∃ t, exec .qInit s0 = .next t ∧ t.initialised ≠ s0.initialised) ∧
    (∃ t, exec .dmaTx full = .next t ∧ t.irqPending ≠ full.irqPending ∧ writesRx .dmaTx = false ∧ writesPhy .dmaTx = false) ∧
    (∃ t, exec (.adpTransmit 9) full = .next t ∧ t.waker ≠ full.waker ∧ emits (.adpTransmit 9) = false) ∧
    (∃ t, exec (.adpTransmit 9) s0 = .next t ∧ t.tokGen ≠ s0.tokGen) ∧
    (∃ t, exec .phyReset s0 = .next t ∧ t.routine ≠ s0.routine ∧ writesTx .phyReset = false) ∧
    (∃ t, exec (.txtConsume 4) storing = .next t ∧ t.mem ≠ storing.mem) ∧
    (∃ s t : State, exec .dmaRx s = .next t ∧ t.mem ≠ s.mem ∧ Instr.dmaRx.agent ≠ .sw) :=
  ⟨⟨_, rfl, by decide⟩, ⟨_, rfl, by decide⟩, ⟨_, rfl, by decide⟩, ⟨_, rfl, by decide⟩, ⟨_, rfl, by decide⟩,
    ⟨_, rfl, by decide⟩, { q with oob := { frame := [1, 2] } }, _, rfl, by decide⟩

theorem witness_ResetValues : InBuf Config.default .tx 0 0x20000000 ∧ InBuf Config.default .tx 1 (0x200005F0 + 1513) ∧
    InBuf Config.default .rx 1 (0x20010600 + 1535) := by
  refine ⟨⟨_, rfl, ?_⟩, ⟨_, rfl, ?_⟩, _, rfl, ?_⟩ <;> decide

theorem witness_CursorAndDescriptorFrames :
    (∃ t, exec .dmaTx full = .next t ∧ Instr.dmaTx ≠ .qInit) ∧
    (∃ t, exec (.adpReceive 5) landed = .next t ∧ Instr.adpReceive 5 ≠ .qInit) := by
  exact ⟨⟨_, rfl, by decide⟩, _, rfl, by decide⟩

theorem witness_OwnershipFlipsOnlyAtHandOffs :
    (∃ t, exec (.txrTransmit 60) tokTx = .next t ∧ tokTx.tx.Owns .sw 0 ∧ t.tx.Owns .hw 0) ∧
    (∃ t, exec .dmaTx full = .next t ∧ full.tx.Owns .hw 0 ∧ t.tx.Owns .sw 0) ∧
    (∃ t, exec .rxrPop tokRx = .next t ∧ tokRx.rx.Owns .sw 0 ∧ t.rx.Owns .hw 0) ∧
    (∃ t, exec .qInit s0 = .next t ∧ s0.rx.Owns .sw 1 ∧ t.rx.Owns .hw 1) ∧
    (∃ t, exec .dmaRx q = .next t ∧ q.rx.Owns .hw 0 ∧ t.rx.Owns .sw 0) :=
  ⟨⟨_, rfl, by decide⟩, ⟨_, rfl, by decide⟩, ⟨_, rfl, by decide⟩, ⟨_, rfl, by decide⟩, _, rfl, by decide⟩

theorem witness_IllegalConfigurationIsRefused : ¬(depth 0 1).Legal ∧ (depth 1 1).Legal := by
  rw [← Params.legal_iff, ← Params.legal_iff]; decide

theorem witness_StepKeepsInvariant :
    (∃ s t : State, s.Inv ∧ step s = .next t ∧ t.tx ≠ s.tx) ∧ (∃ s t : State, s.Inv ∧ step s = .next t ∧ t.mem ≠ s.mem) :=
  ⟨⟨issue .dmaTx qFull, _, inv_of_lists (k := 2) (j := 0) (by decide) (by decide) (by decide) (by decide) (by decide)
      (tokenOk_none rfl) (by decide) rfl (by decide) (by decide) (tokenOk_none rfl), rfl, by decide⟩,
    issue .dmaRx { q with oob := { frame := [1, 2] } }, _,
    inv_of_lists (k := 0) (j := 0) (by decide) (by decide) (by decide) (by decide) (by decide)
      (tokenOk_none rfl) (by decide) rfl (by decide) (by decide) (tokenOk_none rfl), rfl, by decide⟩

theorem witness_StepKeepsRingShape :
    ∃ s t : State, s.tx.Shaped s.cfg.txAddr ∧ s.rx.Shaped s.cfg.rxAddr ∧ step s = .next t :=
  ⟨issue .dmaTx full, _, ⟨by decide, by decide, by decide⟩, ⟨by decide, by decide, by decide⟩, rfl⟩

theorem witness_SlotNotSwIsUnreachable :
    tokRx.Inv ∧ tokRx.tx.live = some ⟨0, 1⟩ ∧ tokRx.rx.live = some ⟨0, 0⟩ := ⟨inv_tokRx, by decide, by decide⟩

/-- Q with a frame landed in every RX slot. -/
def rxFull : State := withRx [(3, .sw), (1, .sw)] 1 1 none

theorem inv_rxFull : rxFull.Inv :=
  inv_of_lists (k := 0) (j := 2) (by decide) (by decide) (by decide) (by decide) (by decide) (tokenOk_none rfl) (by decide) rfl
    (by decide) (by decide) (tokenOk_none rfl)

theorem witness_FullOrEmptyToldByCursorSlot :
    (qFull.Inv ∧ qFull.tx.hw = qFull.tx.next ∧ qFull.tx.Owns .hw qFull.tx.next) ∧
    (q.Inv ∧ q.tx.hw = q.tx.next ∧ q.tx.Owns .sw q.tx.next) ∧
    (rxFull.Inv ∧ rxFull.rx.next = rxFull.rx.hw ∧ rxFull.rx.Owns .sw rxFull.rx.next) ∧
    (q.rx.next = q.rx.hw ∧ q.rx.Owns .hw q.rx.next) :=
  ⟨⟨inv_qFull, by decide, by decide⟩, ⟨inv_q, by decide, by decide⟩, ⟨inv_rxFull, by decide, by decide⟩, by decide⟩

theorem witness_HistoryAndCountersOnlyGrow :
    ∃ s t : State, step s = .next t ∧ s.initialised = true := ⟨issue .adpCaps q, _, rfl, by decide⟩

theorem witness_DeadTokenStaysDead :
    ∃ s t : State, ∃ tok : Token, step s = .next t ∧ tok.gen < s.tokGen ∧ ¬s.TokenLive tok :=
  ⟨issue .adpCaps full, _, ⟨.tx, 0, 0⟩, rfl, by decide, by simp [State.TokenLive, issue, full, txOf, ringOf]⟩

theorem witness_SecondConsumeFaults :
    (∃ s t : State, s.initialised = true ∧ exec (.txtConsume 4) s = .next t ∧ t.fault = none) ∧
    (∃ t, tokRx.initialised = true ∧ exec .rxtConsume tokRx = .next t ∧ t.fault = none) :=
  ⟨⟨{ storing with initialised := true }, _, rfl, rfl, by decide⟩, _, by decide, rfl, by decide⟩

theorem witness_BuffersAreWrittenByOwnerOnly :
    (∃ t, exec (.txtConsume 4) storing = .next t ∧ storing.tx.Owns .sw 0 ∧
      t.mem.read 0x20000000 ≠ storing.mem.read 0x20000000) ∧
    (∃ s t : State, exec .dmaRx s = .next t ∧ s.rx.Owns .hw 0 ∧ t.mem.read 0x20010001 ≠ s.mem.read 0x20010001 ∧
      s.tx.Owns .sw 1 ∧ Owner.sw ≠ sideOf Instr.dmaRx.agent ∧ InBuf s.cfg .tx 1 0x200005F0) ∧
    (∃ t, exec (.txtConsume 4) { storing with rx := q.rx } = .next t ∧ q.rx.Owns .hw 1 ∧
      Owner.hw ≠ sideOf (Instr.txtConsume 4).agent ∧ InBuf q.cfg .rx 1 0x20010600) ∧
    (∃ s t : State, routineTurn s = .next t) :=
  ⟨⟨_, rfl, by decide, by decide⟩,
    ⟨{ q with oob := { frame := [1, 2] } }, _, rfl, by decide, by decide, by decide, by decide, _, rfl, by decide, by decide⟩,
    ⟨_, rfl, by decide, by decide, _, rfl, by decide, by decide⟩,
    { s0 with routine := some ⟨.reset, 1, [0]⟩ }, _, rfl⟩

theorem witness_BuffersAreWrittenByOwnerOnly_steps :
    ∃ s t : State, step s = .next t ∧
      (s.tx.Owns .hw 0 ∧ InBuf s.cfg .tx 0 0x20000000) ∧ (s.rx.Owns .sw 0 ∧ InBuf s.cfg .rx 0 (0x20010000 + 1535)) ∧
      (∀ ring k, ¬InBuf s.cfg ring k 0) := by
  refine ⟨issue .dmaTx { full with rx := landed.rx, initialised := true }, _, rfl, ⟨by decide, 0x20000000, rfl, by decide, by decide⟩,
    ⟨by decide, 0x20010000, rfl, by decide, by decide⟩, ?_⟩
  rintro ring k ⟨a, ha, h0, -⟩
  obtain rfl : a = 0 := by omega
  match ring, k with
  | .tx, 0 => exact absurd ha (by decide)
  | .tx, 1 => exact absurd ha (by decide)
  | .rx, 0 => exact absurd ha (by decide)
  | .rx, 1 => exact absurd ha (by decide)
  | .tx, _ + 2 => simp [bufAddr, issue, full, s0, State.reset, State.resetOf, Config.default, Params.default, Params.place, contiguous] at ha
  | .rx, _ + 2 => simp [bufAddr, issue, full, s0, State.reset, State.resetOf, Config.default, Params.default, Params.place, contiguous] at ha

/-- `full`'s memory with a byte changed of the TX slot that DMA_TX does not read. -/
def otherMem : Memory := full.mem.write 0x200005F0 0

theorem witness_BuffersAreReadByOwnerOnly :
    (∃ t, exec .dmaTx full = .next t ∧ full.mem.wf ∧ otherMem.wf ∧ otherMem ≠ full.mem ∧
      (full.Reads .dmaTx .tx 0 ∧ full.tx.Owns (sideOf Instr.dmaTx.agent) 0 ∧ InBuf full.cfg .tx 0 0x20000000) ∧
      ∀ ring k x, full.Reads .dmaTx ring k → (full.ring ring).Owns (sideOf Instr.dmaTx.agent) k →
        InBuf full.cfg ring k x → otherMem.read x = full.mem.read x) ∧
    (∃ t, exec .rxtConsume tokRx = .next t ∧ tokRx.Reads .rxtConsume .rx 0 ∧ tokRx.rx.Owns .sw 0) ∧
    (∃ t, exec .rxrAvail landed = .next t ∧ ∀ ring k, ¬landed.Reads .rxrAvail ring k) ∧
    (∃ s t : State, routineTurn s = .next t) := by
  refine ⟨⟨_, rfl, by decide, by decide, by decide, ⟨⟨rfl, rfl⟩, by decide, _, rfl, by decide, by decide⟩, ?_⟩,
    ⟨_, rfl, ⟨rfl, ⟨rfl, rfl⟩, rfl⟩, by decide⟩, ⟨_, rfl, fun _ _ h => h⟩,
    { s0 with routine := some ⟨.reset, 1, [0]⟩ }, _, rfl⟩
  rintro ring k x ⟨rfl, rfl⟩ - ⟨a, ha, h1, h2⟩
  obtain rfl : 0x20000000 = a := Option.some.inj ha
  have hs : bufSize full.cfg .tx = 1514 := by decide
  exact Memory.read_write_ne _ _ (by omega)

/-- `landed` after RXR_AVAIL: its result is the view of the landed frame. -/
def viewing : State := { landed with ret := .rxFrame (some (0, ⟨0x20010000, 3⟩)) }

/-- The result stays through a DMA step and goes with the consume. -/
theorem witness_BuffersAreReadByOwnerOnly_view :
    (viewing.ret = .rxFrame (some (0, ⟨0x20010000, 3⟩)) ∧ viewing.rx.Owns .sw 0 ∧
      bufRange viewing.cfg .rx 0 3 = some 0x20010000) ∧
    (∃ t, step (issue .dmaRx viewing) = .next t ∧ t.ret = viewing.ret) ∧
    (∃ s t : State, s.ret = viewing.ret ∧ step s = .next t ∧ t.ret ≠ s.ret ∧ t.rx.Owns .hw 0) :=
  ⟨⟨rfl, by decide, by decide⟩, ⟨_, rfl, rfl⟩,
    issue .rxtConsume { tokRx with ret := viewing.ret }, _, rfl, rfl, by decide, by decide⟩

theorem witness_TransmittedBytesAreSent :
    q.Inv ∧ q.SwReady ∧ q.tx.live = none ∧ q.tx.hw = q.tx.next ∧ q.tx.Owns .sw q.tx.next ∧
      (∀ len ∈ [(1 : Half), 1514], 1 ≤ len.toNat ∧ len.toNat ≤ q.cfg.txBufSize) ∧
      ∃ a, bufAddr q.cfg .tx q.tx.next = some a :=
  ⟨inv_q, by decide, by decide, by decide, by decide, (tx_lens rfl).2, _, rfl⟩

theorem witness_LandedBytesAreDelivered :
    q.Inv ∧ q.SwReady ∧ q.initialised = true ∧ q.rx.live = none ∧ q.rx.hw = q.rx.next ∧ q.rx.Owns .hw q.rx.next ∧
      q.tx.live = none ∧ q.tx.Owns .sw q.tx.next ∧ 1 ≤ q.oob.frame.length ∧ q.oob.frame.length ≤ q.cfg.rxBufSize :=
  ⟨inv_q, by decide⟩

theorem witness_RingTakesExactlyItsDepth :
    q.Inv ∧ q.SwReady ∧ q.tx.live = none ∧ (∀ k < q.cfg.nTx, q.tx.Owns .sw k) ∧
      (∀ len ∈ [(1 : Half), 1514], 1 ≤ len.toNat ∧ len.toNat ≤ q.cfg.txBufSize) :=
  ⟨inv_q, by decide, by decide, by decide, (tx_lens rfl).2⟩

end Sys2Proof.Tests
end

section
/-! The slots of a ring: circular indices, a descriptor replaced, and the owned interval growing at its
end and shrinking at its front (R28, R29). -/

namespace Sys2Proof.Machine

theorem nextIdx_lt {n : Nat} (i : Nat) (hn : 0 < n) : nextIdx n i < n := Nat.mod_lt _ hn

/-- The `n` slots from `a` on are `n` different slots. -/
theorem circular_inj {n a i j : Nat} (hi : i < n) (hj : j < n) : (a + i) % n = (a + j) % n ↔ i = j :=
  ⟨fun h => Nat.ModEq.eq_of_lt_of_lt (Nat.ModEq.add_left_cancel' a h) hi hj, fun h => h ▸ rfl⟩

/-- A property of every element survives a replacement by an element that has it. -/
theorem forall_mem_set {α : Type} {p : α → Prop} {l : List α} {i : Nat} {a : α} (h : ∀ x ∈ l, p x) (ha : p a) :
    ∀ x ∈ l.set i a, p x :=
  fun x hx => (List.mem_or_eq_of_mem_set hx).elim (h x) fun e => e ▸ ha

/-- Who owns a slot after slot `i`'s descriptor is replaced. -/
theorem Ring.owns_of_desc_set {r r' : Ring} {i : Nat} {d : Desc} (hset : r'.desc = r.desc.set i d)
    (hi : i < r.desc.length) (o : Owner) (j : Nat) : r'.Owns o j ↔ if j = i then d.own = o else r.Owns o j := by
  by_cases h : j = i
  · simp [Ring.Owns, hset, h, hi]
  · simp [Ring.Owns, hset, h, List.getElem?_set_ne (Ne.symm h)]

theorem Ring.owns_of_getElem? {r : Ring} {i : Nat} {d : Desc} (h : r.desc[i]? = some d) (o : Owner) :
    r.Owns o i ↔ d.own = o := by
  simp [Ring.Owns, h]

/-- The interval in terms of who owns each slot. -/
theorem Ring.ownedInterval_iff {r : Ring} {n a b : Nat} {o : Owner} :
    r.OwnedInterval n o a b ↔ ∃ k ≤ n, b = (a + k) % n ∧ ∀ i < n, r.Owns o ((a + i) % n) ↔ i < k := Iff.rfl

/-- Where no slot has the owner, its interval is empty. -/
theorem Ring.ownedInterval_of_none {r : Ring} {n a : Nat} {o : Owner} (ha : a < n) (h : ∀ d ∈ r.desc, d.own ≠ o) :
    r.OwnedInterval n o a a := by
  refine ⟨0, Nat.zero_le n, (Nat.mod_eq_of_lt ha).symm, fun i _ => ?_⟩
  refine ⟨fun hi => ?_, fun hi => absurd hi (Nat.not_lt_zero i)⟩
  obtain ⟨d, hd, ho⟩ := Option.map_eq_some_iff.1 hi
  exact absurd ho (h d (List.mem_of_getElem? hd))

/-- The interval grows by the slot at its end, when that slot is handed to its owner. -/
theorem Ring.OwnedInterval.extend {r r' : Ring} {n a b : Nat} {o : Owner} {d : Desc} (h : r.OwnedInterval n o a b)
    (hlen : r.desc.length = n) (hb : b < n) (hfree : ¬r.Owns o b) (hset : r'.desc = r.desc.set b d)
    (hd : d.own = o) : r'.OwnedInterval n o a (nextIdx n b) := by
  obtain ⟨k, hk, rfl, howns⟩ := Ring.ownedInterval_iff.1 h
  have hkn : k < n := by
    refine lt_of_le_of_ne hk fun e => hfree ?_
    subst e
    simpa using (howns 0 (by omega)).2 (by omega)
  refine Ring.ownedInterval_iff.2 ⟨k + 1, hkn, by simp [nextIdx, Nat.add_assoc], fun i hi => ?_⟩
  simp only [Ring.owns_of_desc_set hset (hlen ▸ hb), circular_inj hi hkn]
  split_ifs with hik
  · simp [hd, hik]
  · rw [howns i hi]
    omega

/-- The interval loses the slot at its front, when that slot is handed to the other owner. -/
theorem Ring.OwnedInterval.shrink {r r' : Ring} {n a b : Nat} {o : Owner} {d : Desc} (h : r.OwnedInterval n o a b)
    (hlen : r.desc.length = n) (ha : a < n) (howned : r.Owns o a) (hset : r'.desc = r.desc.set a d)
    (hd : d.own ≠ o) : r'.OwnedInterval n o (nextIdx n a) b := by
  obtain ⟨k, hk, rfl, howns⟩ := Ring.ownedInterval_iff.1 h
  have hfront : (a + 0) % n = a := Nat.mod_eq_of_lt ha
  have hpos : 0 < k := (howns 0 (by omega)).1 (hfront.symm ▸ howned)
  refine Ring.ownedInterval_iff.2 ⟨k - 1, by omega, ?_, fun i hi => ?_⟩
  · rw [nextIdx, Nat.mod_add_mod, show a + 1 + (k - 1) = a + k by omega]
  rw [nextIdx, Nat.mod_add_mod, Nat.add_assoc, Nat.add_comm 1 i, Ring.owns_of_desc_set hset (hlen ▸ ha)]
  by_cases hlast : i + 1 = n
  · rw [hlast, Nat.add_mod_right, Nat.mod_eq_of_lt ha, if_pos rfl]
    exact ⟨fun h => absurd h hd, fun h => by omega⟩
  · have hi' : i + 1 < n := by omega
    have hne : (a + (i + 1)) % n ≠ a := fun e => by
      have := (circular_inj hi' (by omega)).1 (e.trans hfront.symm)
      omega
    rw [if_neg hne, howns (i + 1) hi']
    omega

end Sys2Proof.Machine
end

section
/-! What each hand-off does to a ring's shape and to its token (R22, R26, R27, R32, R84). -/

namespace Sys2Proof.Machine

variable {r r' : Ring} {addrs : List Addr} {d : Desc} {g g' i : Nat}

theorem Ring.Shaped.length_desc (h : r.Shaped addrs) : r.desc.length = addrs.length := by
  rw [← h.bound, List.length_map]

theorem Ring.Shaped.pos (h : r.Shaped addrs) : 0 < addrs.length := Nat.zero_lt_of_lt h.next_lt

/-- A descriptor replaced by one bound to the same buffer, and the cursors still slots of the ring. -/
theorem Ring.Shaped.of_desc_set {d' : Desc} (h : r.Shaped addrs) (hd : r.desc[i]? = some d)
    (hset : r'.desc = r.desc.set i d') (ha : d'.addr = d.addr) (hnext : r'.next < addrs.length)
    (hhw : r'.hw < addrs.length) : r'.Shaped addrs := by
  refine ⟨?_, hnext, hhw⟩
  obtain ⟨hi, rfl⟩ := List.getElem?_eq_some_iff.1 hd
  rw [hset, List.map_set, ha, ← List.map_set, List.set_getElem_self]
  exact h.bound

theorem Ring.Shaped.submit (h : r.Shaped addrs) (hd : r.desc[i]? = some d) (len : Half) :
    (r.submit addrs.length i d len).Shaped addrs :=
  h.of_desc_set hd rfl rfl (nextIdx_lt _ h.pos) h.hw_lt

theorem Ring.Shaped.retire (h : r.Shaped addrs) (hd : r.desc[i]? = some d) :
    (r.retire addrs.length i d).Shaped addrs :=
  h.of_desc_set hd rfl rfl (nextIdx_lt _ h.pos) h.hw_lt

theorem Ring.Shaped.handBack {d' : Desc} (h : r.Shaped addrs) (hd : r.desc[r.hw]? = some d) (ha : d'.addr = d.addr) :
    (r.handBack addrs.length d').Shaped addrs :=
  h.of_desc_set hd rfl ha h.next_lt (nextIdx_lt _ h.pos)

theorem Ring.Shaped.issue (h : r.Shaped addrs) (g : Nat) : (r.issue g).Shaped addrs :=
  ⟨h.bound, h.next_lt, h.hw_lt⟩

theorem Ring.Shaped.expire (h : r.Shaped addrs) : r.expire.Shaped addrs :=
  ⟨h.bound, h.next_lt, h.hw_lt⟩

theorem Ring.shaped_armed (o : Owner) (hpos : 0 < addrs.length) : (Ring.armed addrs o).Shaped addrs :=
  ⟨by simp [Ring.armed, Function.comp_def], hpos, hpos⟩

/-- The descriptors Q_INIT leaves (R75). -/
theorem Ring.mem_desc_armed {o : Owner} :
    d ∈ (Ring.armed addrs o).desc ↔ ∃ a ∈ addrs, ⟨a, 0, o, 0⟩ = d := by
  simp [Ring.armed]

theorem Ring.tokenOk_of_no_live (h : r.live = none) : r.TokenOk g := fun l hl => by
  rw [h] at hl
  cases hl

theorem Ring.TokenOk.mono (h : r.TokenOk g) (hg : g ≤ g') : r.TokenOk g' := fun l hl =>
  let ⟨hslot, hown, hgen⟩ := h l hl
  ⟨hslot, hown, hgen.trans_le hg⟩

/-- A token issued for a software-owned cursor slot. -/
theorem Ring.tokenOk_issue (hown : r.Owns .sw r.next) (hg : g < g') : (r.issue g).TokenOk g' := by
  rintro l ⟨⟩
  exact ⟨rfl, hown, hg⟩

/-- A slot handed back to software takes no token's slot away. -/
theorem Ring.TokenOk.handBack {n : Nat} (h : r.TokenOk g) (hhw : r.hw < r.desc.length) :
    (r.handBack n d).TokenOk g := fun l hl => by
  obtain ⟨hslot, hown, hgen⟩ := h l hl
  refine ⟨hslot, (Ring.owns_of_desc_set (r := r) (i := r.hw) rfl hhw .sw r.next).2 ?_, hgen⟩
  split_ifs
  · rfl
  · exact hown

end Sys2Proof.Machine
end

section
/-! The invariant of each ring under the operations that write it (R19, R22, R23, R28, R29, R32, R84). -/

namespace Sys2Proof.Machine

theorem Config.legal (c : Config) : c.toParams.Legal := (Params.legal_iff _).1 c.isLegal

/-- Every buffer's address fits `ADDR_W` (R44). -/
theorem Config.addr_lt (c : Config) {q : Nat × Nat} (hq : q ∈ c.ranges) (hpos : 1 ≤ q.2) : q.1 < 2 ^ c.addrW :=
  Nat.lt_of_lt_of_le (Nat.lt_add_of_pos_right hpos) ((Config.legal c).inSpace q hq)

theorem Config.txAddr_lt (c : Config) {a : Addr} (ha : a ∈ c.txAddr) : a < 2 ^ c.addrW :=
  Config.addr_lt c (q := (a, c.txBufSize)) (by simp [Params.ranges, ha]) (Config.legal c).txBufSize_pos

theorem Config.rxAddr_lt (c : Config) {a : Addr} (ha : a ∈ c.rxAddr) : a < 2 ^ c.addrW :=
  Config.addr_lt c (q := (a, c.rxBufSize)) (by simp [Params.ranges, ha]) (Config.legal c).rxBufSize_pos

variable {s t : State} {d : Desc}

/-- The TX ring's invariant speaks of the TX ring and of the issued generations, which may grow (R31). -/
theorem State.TxInv.frame (h : s.TxInv) (hcfg : t.cfg = s.cfg) (htx : t.tx = s.tx) (hgen : s.tokGen ≤ t.tokGen) :
    t.TxInv where
  shaped := by rw [htx, hcfg]; exact h.shaped
  fits := by rw [htx, hcfg]; exact h.fits
  lens := by rw [htx, hcfg]; exact h.lens
  flight := by rw [htx, hcfg]; exact h.flight
  token := by rw [htx]; exact h.token.mono hgen

/-- The RX ring's invariant speaks of the RX ring, `initialised` and the issued generations, which may grow (R31). -/
theorem State.RxInv.frame (h : s.RxInv) (hcfg : t.cfg = s.cfg) (hrx : t.rx = s.rx)
    (hinit : t.initialised = s.initialised) (hgen : s.tokGen ≤ t.tokGen) : t.RxInv where
  shaped := by rw [hrx, hcfg]; exact h.shaped
  fits := by rw [hrx, hcfg]; exact h.fits
  before := by rw [hrx, hinit]; exact h.before
  lens := by rw [hrx, hinit, hcfg]; exact h.lens
  landed := by rw [hrx, hinit, hcfg]; exact h.landed
  token := by rw [hrx]; exact h.token.mono hgen

/-- A submission sends the slot behind the ones in flight (R78). -/
theorem State.TxInv.submit {len : Half} (h : s.TxInv) (hr : TxReady s len d) :
    (s.setTx (s.tx.submit s.cfg.nTx s.oob.tok.slot d len)).TxInv := by
  obtain ⟨hslot, -, -⟩ := h.token _ hr.live
  have hfree : ¬s.tx.Owns .hw s.tx.next := by
    rw [← hslot, Ring.owns_of_getElem? hr.desc, hr.own]
    decide
  obtain ⟨haddr, -, hstatus⟩ := h.fits d (List.mem_of_getElem? hr.desc)
  exact
    { shaped := h.shaped.submit hr.desc len
      fits := forall_mem_set h.fits ⟨haddr, hr.le.trans_lt (Config.legal s.cfg).txBufSize_lt, hstatus⟩
      lens := forall_mem_set h.lens fun _ => ⟨hr.pos, hr.le⟩
      flight := h.flight.extend h.shaped.length_desc h.shaped.next_lt hfree (congrArg (s.tx.desc.set · _) hslot) rfl
      token := Ring.tokenOk_of_no_live rfl }

/-- TXDMA hands the first slot in flight back (R116). -/
theorem State.TxInv.handBack {v : Nat} (h : s.TxInv) (hd : s.tx.desc[s.tx.hw]? = some d) (ho : d.own = .hw)
    (hv : v < 2 ^ s.cfg.statusW) : (s.setTx (s.tx.handBack s.cfg.nTx { d with status := v })).TxInv := by
  obtain ⟨haddr, hlen, -⟩ := h.fits d (List.mem_of_getElem? hd)
  exact
    { shaped := h.shaped.handBack hd rfl
      fits := forall_mem_set h.fits ⟨haddr, hlen, hv⟩
      lens := forall_mem_set h.lens (by rintro ⟨⟩)
      flight := h.flight.shrink h.shaped.length_desc h.shaped.hw_lt ((Ring.owns_of_getElem? hd _).2 ho)
        rfl (by rintro ⟨⟩)
      token := h.token.handBack (h.shaped.length_desc.symm ▸ h.shaped.hw_lt) }

theorem State.TxInv.issue {g g' : Nat} (h : s.TxInv) (hown : s.tx.Owns .sw s.tx.next) (hg : g < g') :
    ((s.setTx (s.tx.issue g)).setTokGen g').TxInv :=
  ⟨h.shaped.issue g, h.fits, h.lens, h.flight, Ring.tokenOk_issue hown hg⟩

theorem State.TxInv.expire (h : s.TxInv) : (s.setTx s.tx.expire).TxInv :=
  ⟨h.shaped.expire, h.fits, h.lens, h.flight, Ring.tokenOk_of_no_live rfl⟩

/-- Q_INIT leaves the TX ring to software (R75). -/
theorem State.txInv_armed (s : State) : (s.setTx (Ring.armed s.cfg.txAddr .sw)).TxInv := by
  have hdesc : ∀ d ∈ (Ring.armed s.cfg.txAddr .sw).desc, d.Fits s.cfg ∧ d.own ≠ .hw := fun d hd => by
    obtain ⟨a, ha, rfl⟩ := Ring.mem_desc_armed.1 hd
    exact ⟨⟨Config.txAddr_lt _ ha, Nat.two_pow_pos _, Nat.two_pow_pos _⟩, by rintro ⟨⟩⟩
  have hpos := (Config.legal s.cfg).nTx_pos
  exact
    { shaped := Ring.shaped_armed _ hpos
      fits := fun d hd => (hdesc d hd).1
      lens := fun d hd ho => absurd ho (hdesc d hd).2
      flight := Ring.ownedInterval_of_none hpos fun d hd => (hdesc d hd).2
      token := Ring.tokenOk_of_no_live rfl }

/-- A retired slot leaves the front of the landed frames (R79). -/
theorem State.RxInv.retire (h : s.RxInv) (hr : RxReady s d) :
    (s.setRx (s.rx.retire s.cfg.nRx s.oob.tok.slot d)).RxInv := by
  obtain ⟨hslot, hown, -⟩ := h.token _ hr.live
  obtain ⟨haddr, -, -⟩ := h.fits d (List.mem_of_getElem? hr.desc)
  exact
    { shaped := h.shaped.retire hr.desc
      fits := forall_mem_set h.fits ⟨haddr, Nat.two_pow_pos _, Nat.two_pow_pos _⟩
      before := fun hi => absurd (hr.initialised.symm.trans hi) (by decide)
      lens := fun hi => forall_mem_set (h.lens hi) (by rintro ⟨⟩)
      landed := fun hi => (h.landed hi).shrink h.shaped.length_desc h.shaped.next_lt hown
        (congrArg (s.rx.desc.set · _) hslot) (by rintro ⟨⟩)
      token := Ring.tokenOk_of_no_live rfl }

/-- RXDMA lands a frame behind the landed ones, which happens only after Q_INIT (R117). -/
theorem State.RxInv.handBack {n v : Nat} (h : s.RxInv) (hd : s.rx.desc[s.rx.hw]? = some d) (ho : d.own = .hw)
    (hn : 1 ≤ n) (hle : n ≤ s.cfg.rxBufSize) (hv : v < 2 ^ s.cfg.statusW) :
    (s.setRx (s.rx.handBack s.cfg.nRx { d with len := n, status := v })).RxInv := by
  have hmem := List.mem_of_getElem? hd
  have hfree : ¬s.rx.Owns .sw s.rx.hw := by
    rw [Ring.owns_of_getElem? hd, ho]
    decide
  exact
    { shaped := h.shaped.handBack hd rfl
      fits := forall_mem_set h.fits ⟨(h.fits d hmem).1, hle.trans_lt (Config.legal s.cfg).rxBufSize_lt, hv⟩
      before := fun hi => absurd (ho.symm.trans ((h.before hi).1 d hmem).1) (by decide)
      lens := fun hi => forall_mem_set (h.lens hi) fun _ => ⟨hn, hle⟩
      landed := fun hi => (h.landed hi).extend h.shaped.length_desc h.shaped.hw_lt hfree rfl rfl
      token := h.token.handBack (h.shaped.length_desc.symm ▸ h.shaped.hw_lt) }

theorem State.RxInv.issue {g g' : Nat} (h : s.RxInv) (hinit : s.initialised = true)
    (hown : s.rx.Owns .sw s.rx.next) (hg : g < g') : ((s.setRx (s.rx.issue g)).setTokGen g').RxInv :=
  ⟨h.shaped.issue g, h.fits, fun hi => absurd (hinit.symm.trans hi) (by decide), h.lens, h.landed,
    Ring.tokenOk_issue hown hg⟩

theorem State.RxInv.expire (h : s.RxInv) : (s.setRx s.rx.expire).RxInv :=
  ⟨h.shaped.expire, h.fits, fun hi => ⟨(h.before hi).1, rfl⟩, h.lens, h.landed, Ring.tokenOk_of_no_live rfl⟩

/-- Q_INIT arms the RX ring (R75). -/
theorem State.rxInv_armed (s : State) : ((s.setRx (Ring.armed s.cfg.rxAddr .hw)).setInitialised true).RxInv := by
  have hdesc : ∀ d ∈ (Ring.armed s.cfg.rxAddr .hw).desc, d.Fits s.cfg ∧ d.own ≠ .sw := fun d hd => by
    obtain ⟨a, ha, rfl⟩ := Ring.mem_desc_armed.1 hd
    exact ⟨⟨Config.rxAddr_lt _ ha, Nat.two_pow_pos _, Nat.two_pow_pos _⟩, by rintro ⟨⟩⟩
  have hpos := (Config.legal s.cfg).nRx_pos
  exact
    { shaped := Ring.shaped_armed _ hpos
      fits := fun d hd => (hdesc d hd).1
      before := by rintro ⟨⟩
      lens := fun _ d hd ho => absurd ho (hdesc d hd).2
      landed := fun _ => Ring.ownedInterval_of_none hpos fun d hd => (hdesc d hd).2
      token := Ring.tokenOk_of_no_live rfl }

end Sys2Proof.Machine
end

section
/-! The machine's invariant under each operation, a routine's turn and a step. -/

namespace Sys2Proof.Machine

variable {s t : State}

/-- The invariant speaks of the configuration, the rings, the memory, `tok_gen` and `initialised` only. -/
theorem State.Inv.frame (h : s.Inv) (hcfg : t.cfg = s.cfg) (htx : t.tx = s.tx) (hrx : t.rx = s.rx)
    (hmem : t.mem = s.mem) (hgen : t.tokGen = s.tokGen) (hinit : t.initialised = s.initialised) : t.Inv :=
  ⟨hmem ▸ h.mem, h.tx.frame hcfg htx hgen.ge, h.rx.frame hcfg hrx hinit hgen.ge⟩

theorem State.Inv.setFault (h : s.Inv) (v : Option Violation) : (s.setFault v).Inv := h.frame rfl rfl rfl rfl rfl rfl

theorem RaisedOnly.inv (h : RaisedOnly s t) (hs : s.Inv) : t.Inv := by
  obtain ⟨-, v, rfl, -⟩ := h
  exact hs.setFault _

theorem TxRaised.inv (h : TxRaised s t) (hs : s.Inv) : t.Inv := by
  obtain ⟨-, v, rfl, -⟩ := h
  exact hs.setFault _

theorem RxRaised.inv (h : RxRaised s t) (hs : s.Inv) : t.Inv := by
  obtain ⟨-, v, rfl, -⟩ := h
  exact hs.setFault _

/-- A routine's SMI operation touches neither ring (R110). -/
theorem advance_keeps_inv {r : Running} (hf : s.fault = none) (hs : s.Inv) (h : advance s r = .next t) : t.Inv := by
  rcases advance_cases hf h with h | ⟨p, es, ro, re, -, rfl⟩
  · exact h.inv hs
  · exact hs.frame rfl rfl rfl rfl rfl rfl

theorem startRoutine_keeps_inv {id : RoutineId} (hs : s.Inv) (h : startRoutine id s = .next t) : t.Inv :=
  let ⟨hf, _, h⟩ := swStep_next.1 h
  advance_keeps_inv hf hs h

/-- Every operation keeps the invariant. -/
theorem exec_keeps_inv {i : Instr} (hs : s.Inv) (h : exec i s = .next t) : t.Inv := by
  cases i with
  | qInit =>
    rcases execQInit_next h with h | ⟨-, -, -, -, rfl⟩
    · exact h.inv hs
    · exact ⟨hs.mem, s.txInv_armed.frame rfl rfl le_rfl, s.rxInv_armed.frame rfl rfl rfl le_rfl⟩
  | txrAvail =>
    obtain ⟨-, -, d, -, rfl⟩ := execTxrAvail_next h
    exact hs.frame rfl rfl rfl rfl rfl rfl
  | txrTransmit len =>
    rcases execTxrTransmit_next h with h | ⟨d, hr, rfl⟩
    · exact h.inv hs
    · exact ⟨hs.mem, (hs.tx.submit hr).frame rfl rfl le_rfl, hs.rx.frame rfl rfl rfl le_rfl⟩
  | txtConsume len =>
    rcases execTxtConsume_next h with h | ⟨d, a, hr, -, b, y, -, -, rfl⟩
    · exact h.inv hs
    · exact ⟨Memory.writeBytes_wf hs.mem a b, (hs.tx.submit hr).frame rfl rfl le_rfl,
        hs.rx.frame rfl rfl rfl le_rfl⟩
  | rxrAvail =>
    rcases execRxrAvail_next h with h | ⟨-, -, -, d, -, ⟨-, a, -, rfl⟩ | ⟨-, rfl⟩⟩
    · exact h.inv hs
    all_goals exact hs.frame rfl rfl rfl rfl rfl rfl
  | rxrPop =>
    rcases execRxrPop_next h with h | ⟨d, hr, rfl⟩
    · exact h.inv hs
    · exact ⟨hs.mem, hs.tx.frame rfl rfl le_rfl, (hs.rx.retire hr).frame rfl rfl rfl le_rfl⟩
  | rxtConsume =>
    rcases execRxtConsume_next h with h | ⟨d, a, hr, -, rfl⟩
    · exact h.inv hs
    · exact ⟨hs.mem, hs.tx.frame rfl rfl le_rfl, (hs.rx.retire hr).frame rfl rfl rfl le_rfl⟩
  | adpReceive task =>
    rcases execAdpReceive_next h with h | ⟨-, -, hinit, ⟨dr, dt, hdr, hdt, -, hor, -, hot, rfl⟩ | rfl⟩
    · exact h.inv hs
    · have htx := hs.tx.issue ((Ring.owns_of_getElem? hdt _).2 hot) (Nat.lt_succ_self (s.tokGen + 1))
      have hrx := hs.rx.issue hinit ((Ring.owns_of_getElem? hdr _).2 hor) (Nat.lt_succ_self s.tokGen)
      exact ⟨hs.mem, htx.frame rfl rfl le_rfl, hrx.frame rfl rfl rfl (Nat.le_succ _)⟩
    · exact hs.frame rfl rfl rfl rfl rfl rfl
  | adpTransmit task =>
    obtain ⟨-, -, ⟨d, hd, -, ho, rfl⟩ | rfl⟩ := execAdpTransmit_next h
    · have htx := hs.tx.issue ((Ring.owns_of_getElem? hd _).2 ho) (Nat.lt_succ_self s.tokGen)
      exact ⟨hs.mem, htx.frame rfl rfl le_rfl, hs.rx.frame rfl rfl rfl (Nat.le_succ _)⟩
    · exact hs.frame rfl rfl rfl rfl rfl rfl
  | adpLink task =>
    rcases execAdpLink_next h with h | ⟨-, -, vals, p, es, b, -, -, rfl⟩
    · exact h.inv hs
    · exact hs.frame rfl rfl rfl rfl rfl rfl
  | adpCaps =>
    obtain ⟨-, -, rfl⟩ := execAdpCaps_next h
    exact hs.frame rfl rfl rfl rfl rfl rfl
  | adpHwaddr =>
    obtain ⟨-, -, rfl⟩ := execAdpHwaddr_next h
    exact hs.frame rfl rfl rfl rfl rfl rfl
  | adpEndpoll =>
    obtain ⟨-, -, rfl⟩ := execAdpEndpoll_next h
    exact ⟨hs.mem, hs.tx.expire.frame rfl rfl le_rfl, hs.rx.expire.frame rfl rfl rfl le_rfl⟩
  | smiRead reg =>
    rcases execSmiRead_next h with h | ⟨-, -, v, p, rfl⟩
    · exact h.inv hs
    · exact hs.frame rfl rfl rfl rfl rfl rfl
  | smiWrite reg val =>
    rcases execSmiWrite_next h with h | ⟨-, -, p, rfl⟩
    · exact h.inv hs
    · exact hs.frame rfl rfl rfl rfl rfl rfl
  | phyReset => exact startRoutine_keeps_inv hs h
  | phyInit => exact startRoutine_keeps_inv hs h
  | phyPoll =>
    rcases execPhyPoll_next h with h | ⟨-, -, vals, p, es, b, -, -, rfl⟩
    · exact h.inv hs
    · exact hs.frame rfl rfl rfl rfl rfl rfl
  | dmaTx =>
    obtain ⟨-, d, a, hd, ho, -, rfl⟩ := execDmaTx_next h
    exact ⟨hs.mem, (hs.tx.handBack hd ho (drawnStatus_lt s)).frame rfl rfl le_rfl, hs.rx.frame rfl rfl rfl le_rfl⟩
  | dmaRx =>
    obtain ⟨-, d, a, hd, ho, hpos, hle, -, rfl⟩ := execDmaRx_next h
    exact ⟨Memory.writeBytes_wf hs.mem a _, hs.tx.frame rfl rfl le_rfl,
      (hs.rx.handBack hd ho hpos hle (drawnStatus_lt s)).frame rfl rfl rfl le_rfl⟩
  | irqDeliver =>
    obtain ⟨-, -, ⟨-, rfl⟩ | ⟨k, -, rfl⟩⟩ := execIrqDeliver_next h
    all_goals exact hs.frame rfl rfl rfl rfl rfl rfl

/-- Settles O48: each ring's invariant is kept by the operations that write the ring, the memory's
canonical form by its writes, and a routine's turn touches none of them. -/
theorem stepKeepsInvariant : Obligations.StepKeepsInvariant := by
  intro s t hs h
  obtain ⟨hf, ⟨r, sch, -, h⟩ | ⟨w, oob, rest, i, -, -, h⟩⟩ := step_next h
  · exact advance_keeps_inv (s := s.setSched sch) hf (hs.frame rfl rfl rfl rfl rfl rfl) h
  · exact exec_keeps_inv (s := (s.setSched rest).setOob oob) (hs.frame rfl rfl rfl rfl rfl rfl) h

end Sys2Proof.Machine
end

section
/-! A step at an issued word (R8, R63), and no step once a fault is recorded (R127). -/

namespace Sys2Proof.Machine

variable {s : State}

theorem swStep_of_fault (hf : s.fault.isSome) (k : Out) : swStep s k = .fault .quiescent := if_pos hf

theorem agentStep_of_fault (hf : s.fault.isSome) (k : Out) : agentStep s k = .fault .quiescent := if_pos hf

/-- No operation is enabled once a fault is recorded (R127). -/
theorem exec_of_fault (hf : s.fault.isSome) (i : Instr) : exec i s = .fault .quiescent := by
  cases i with
  | dmaTx | dmaRx | irqDeliver => exact agentStep_of_fault hf _
  | _ => exact swStep_of_fault hf _

theorem step_of_fault (hf : s.fault.isSome) : step s = .fault .quiescent := if_pos hf

/-- An issued word that spells an operation runs it, unless it must wait for a PHY routine (R112). -/
theorem step_of_issue {w : OpWord} {oob : Oob} {rest : List Turn} {i : Instr} (hf : s.fault = none)
    (hs : s.sched = .issue w oob :: rest) (hw : decode w = .ok i) :
    step s = if mustWait s i then routineTurn s else exec i ((s.setSched rest).setOob oob) := by
  simp only [step, takeTurn, hf, hs, hw]
  rfl

theorem mustWait_eq_false {i : Instr} (h : i.agent = .sw → s.routine = none) : mustWait s i = false := by
  by_cases ha : i.agent = .sw
  · simp [mustWait, h ha]
  · simp [mustWait, ha]

/-- Settles O6: with a fault recorded both sides are quiescent, and without one the turn is the issued
operation, which need not wait. -/
theorem stepRunsTheIssuedOperation : Obligations.StepRunsTheIssuedOperation := by
  intro s w oob rest i hs hw hsw
  by_cases hf : s.fault.isSome
  · rw [step_of_fault hf, exec_of_fault (s := { s with sched := rest, oob := oob }) hf]
  · rw [step_of_issue (by simpa using hf) hs hw, mustWait_eq_false hsw, if_neg Bool.false_ne_true]
    rfl

end Sys2Proof.Machine
end

section
/-! Construction and legality (R10, R44). -/

namespace Sys2Proof.Machine

theorem construct_of_legal {p : Params} (h : p.legal = true) :
    construct p = .next (State.resetOf { p with isLegal := h }) := dif_pos h

theorem construct_of_not_legal {p : Params} (h : ¬p.Legal) : construct p = .refused .badConfiguration :=
  dif_neg fun hl => h (p.legal_iff.1 hl)

/-- Settles O46: construction tests exactly `Params.Legal`, and a configuration carries its proof. -/
theorem illegalConfigurationIsRefused : Obligations.IllegalConfigurationIsRefused :=
  ⟨fun _ h => construct_of_not_legal h,
    fun p h => ⟨{ p with isLegal := p.legal_iff.2 h }, rfl, construct_of_legal _⟩,
    fun s => Config.legal s.cfg⟩

end Sys2Proof.Machine
end

section
/-! The kinds of effect an operation can have, and who writes what (R41). -/

namespace Sys2Proof.Machine

/-- What an operation does to the state, by kind: which elements it writes and which operations do so.
The values written to the memory, the history, the PHY and the result are left open. -/
inductive Effect : Instr → State → State → Prop where
  /-- a fault is recorded (R126) -/
  | raised {i : Instr} {s : State} (v : Violation) (hi : i.agent = .sw) : Effect i s (s.setFault (some v))
  /-- only a result is returned -/
  | answered {i : Instr} {s : State} (re : Ret) (hi : i.agent = .sw) : Effect i s (s.setRet re)
  /-- not ready: the task is registered (R96) -/
  | registered {i : Instr} {s : State} (k : TaskId) (re : Ret) (hi : i = .adpReceive k ∨ i = .adpTransmit k) :
      Effect i s ((s.setWaker (some k)).setRet re)
  /-- SMI transactions, of a routine or alone (R104, R105, R112, R114) -/
  | smi {i : Instr} {s : State} (p : PhyState) (es : List Event) (ro : Option Running) (re : Ret)
      (hi : writesPhy i = true) (hro : ro = s.routine ∨ i = .phyReset ∨ i = .phyInit) :
      Effect i s ((((s.setPhy p).emit es).setRoutine ro).setRet re)
  /-- Q_INIT (R75) -/
  | armed {s : State} (hfree : s.tx.firstHw = none) :
      Effect .qInit s (((((s.setTx (Ring.armed s.cfg.txAddr .sw)).setRx (Ring.armed s.cfg.rxAddr .hw)).setIrqPending
        false).setInitialised true).setRet .unit)
  /-- a TX consume (R78, R88) -/
  | submitted {i : Instr} {s : State} {len : Half} {d : Desc} (m : Memory) (re : Ret) (hr : TxReady s len d)
      (hi : i = .txrTransmit len ∧ m = s.mem ∨ i = .txtConsume len) :
      Effect i s (((s.setMem m).setTx (s.tx.submit s.cfg.nTx s.oob.tok.slot d len)).setRet re)
  /-- an RX consume (R79, R89) -/
  | retired {i : Instr} {s : State} {d : Desc} (es : List Event) (re : Ret) (hr : RxReady s d)
      (hi : i = .rxrPop ∧ es = [] ∨ i = .rxtConsume) :
      Effect i s (((s.emit es).setRx (s.rx.retire s.cfg.nRx s.oob.tok.slot d)).setRet re)
  /-- ADP_RECEIVE, ready (R94) -/
  | issuedBoth {k : TaskId} {s : State} (re : Ret) :
      Effect (.adpReceive k) s ((((s.setRx (s.rx.issue s.tokGen)).setTx (s.tx.issue (s.tokGen + 1))).setTokGen
        (s.tokGen + 2)).setRet re)
  /-- ADP_TRANSMIT, ready (R95) -/
  | issuedTx {k : TaskId} {s : State} (re : Ret) :
      Effect (.adpTransmit k) s (((s.setTx (s.tx.issue s.tokGen)).setTokGen (s.tokGen + 1)).setRet re)
  /-- ADP_ENDPOLL (R100) -/
  | expired {s : State} : Effect .adpEndpoll s (((s.setTx s.tx.expire).setRx s.rx.expire).setRet .unit)
  /-- DMA_TX (R116) -/
  | sent {s : State} {d : Desc} (es : List Event) (v : Nat) (hd : s.tx.desc[s.tx.hw]? = some d) :
      Effect .dmaTx s (((s.emit es).setTx (s.tx.handBack s.cfg.nTx { d with status := v })).setIrqPending true)
  /-- DMA_RX (R117) -/
  | landed {s : State} {d : Desc} (es : List Event) (m : Memory) (n v : Nat) (hd : s.rx.desc[s.rx.hw]? = some d) :
      Effect .dmaRx s ((((s.emit es).setMem m).setRx
        (s.rx.handBack s.cfg.nRx { d with len := n, status := v })).setIrqPending true)
  /-- IRQ_DELIVER (R123) -/
  | woken {s : State} (es : List Event) (w : Option TaskId) :
      Effect .irqDeliver s (((s.emit es).setWaker w).setIrqPending false)

variable {i : Instr} {s t : State}

@[simp] theorem State.emit_nil (s : State) : s.emit [] = s := by simp [State.emit]

@[simp] theorem State.setWaker_self (s : State) : s.setWaker s.waker = s := rfl

theorem RaisedOnly.effect (h : RaisedOnly s t) (hi : i.agent = .sw) : Effect i s t := by
  obtain ⟨-, v, rfl, -⟩ := h
  exact .raised v hi

theorem TxRaised.effect (h : TxRaised s t) (hi : i.agent = .sw) : Effect i s t := by
  obtain ⟨-, v, rfl, -⟩ := h
  exact .raised v hi

theorem RxRaised.effect (h : RxRaised s t) (hi : i.agent = .sw) : Effect i s t := by
  obtain ⟨-, v, rfl, -⟩ := h
  exact .raised v hi

/-- A routine's turn has the effect of the operation that started the routine (R112). -/
theorem advance_effect {r : Running} (hi : i = .phyReset ∨ i = .phyInit) (hf : s.fault = none)
    (h : advance s r = .next t) : Effect i s t := by
  rcases advance_cases hf h with h | ⟨p, es, ro, re, -, rfl⟩
  · exact h.effect (by rcases hi with rfl | rfl <;> rfl)
  · exact .smi p es ro re (by rcases hi with rfl | rfl <;> rfl) (.inr hi)

/-- Every operation with a next state has one of the effects. -/
theorem exec_effect (h : exec i s = .next t) : Effect i s t := by
  cases i with
  | qInit =>
    rcases execQInit_next h with h | ⟨-, -, -, hfree, rfl⟩
    · exact h.effect rfl
    · exact .armed hfree
  | txrAvail =>
    obtain ⟨-, -, d, -, rfl⟩ := execTxrAvail_next h
    exact .answered _ rfl
  | txrTransmit len =>
    rcases execTxrTransmit_next h with h | ⟨d, hr, rfl⟩
    · exact h.effect rfl
    · exact .submitted _ _ hr (.inl ⟨rfl, rfl⟩)
  | txtConsume len =>
    rcases execTxtConsume_next h with h | ⟨d, a, hr, -, b, y, -, -, rfl⟩
    · exact h.effect rfl
    · exact .submitted _ _ hr (.inr rfl)
  | rxrAvail =>
    rcases execRxrAvail_next h with h | ⟨-, -, -, d, -, ⟨-, a, -, rfl⟩ | ⟨-, rfl⟩⟩
    · exact h.effect rfl
    all_goals exact .answered _ rfl
  | rxrPop =>
    rcases execRxrPop_next h with h | ⟨d, hr, rfl⟩
    · exact h.effect rfl
    · simpa using Effect.retired [] .unit hr (.inl ⟨rfl, rfl⟩)
  | rxtConsume =>
    rcases execRxtConsume_next h with h | ⟨d, a, hr, -, rfl⟩
    · exact h.effect rfl
    · exact .retired _ _ hr (.inr rfl)
  | adpReceive k =>
    rcases execAdpReceive_next h with h | ⟨-, -, -, ⟨dr, dt, -, -, -, -, -, -, rfl⟩ | rfl⟩
    · exact h.effect rfl
    · exact .issuedBoth _
    · exact .registered k _ (.inl rfl)
  | adpTransmit k =>
    obtain ⟨-, -, ⟨d, -, -, -, rfl⟩ | rfl⟩ := execAdpTransmit_next h
    · exact .issuedTx _
    · exact .registered k _ (.inr rfl)
  | adpLink k =>
    rcases execAdpLink_next h with h | ⟨-, -, vals, p, es, b, -, -, rfl⟩
    · exact h.effect rfl
    · exact .smi p _ s.routine _ rfl (.inl rfl)
  | adpCaps =>
    obtain ⟨-, -, rfl⟩ := execAdpCaps_next h
    exact .answered _ rfl
  | adpHwaddr =>
    obtain ⟨-, -, rfl⟩ := execAdpHwaddr_next h
    exact .answered _ rfl
  | adpEndpoll =>
    obtain ⟨-, -, rfl⟩ := execAdpEndpoll_next h
    exact .expired
  | smiRead reg =>
    rcases execSmiRead_next h with h | ⟨-, -, v, p, rfl⟩
    · exact h.effect rfl
    · exact .smi p _ s.routine _ rfl (.inl rfl)
  | smiWrite reg val =>
    rcases execSmiWrite_next h with h | ⟨-, -, p, rfl⟩
    · exact h.effect rfl
    · exact .smi p _ s.routine _ rfl (.inl rfl)
  | phyReset =>
    obtain ⟨hf, -, h⟩ := swStep_next.1 h
    exact advance_effect (.inl rfl) hf h
  | phyInit =>
    obtain ⟨hf, -, h⟩ := swStep_next.1 h
    exact advance_effect (.inr rfl) hf h
  | phyPoll =>
    rcases execPhyPoll_next h with h | ⟨-, -, vals, p, es, b, -, -, rfl⟩
    · exact h.effect rfl
    · exact .smi p _ s.routine _ rfl (.inl rfl)
  | dmaTx =>
    obtain ⟨-, d, a, hd, -, -, rfl⟩ := execDmaTx_next h
    exact .sent _ _ hd
  | dmaRx =>
    obtain ⟨-, d, a, hd, -, -, -, -, rfl⟩ := execDmaRx_next h
    exact .landed _ _ _ _ hd
  | irqDeliver =>
    obtain ⟨-, -, ⟨-, rfl⟩ | ⟨k, -, rfl⟩⟩ := execIrqDeliver_next h
    · simpa using Effect.woken (s := s) [] s.waker
    · exact .woken _ _

/-- Every step has an operation's effect, on the state with some schedule and operands: a routine's turn
has that of PHY_RESET. -/
theorem step_effect (h : step s = .next t) : ∃ i sch oob, Effect i ((s.setSched sch).setOob oob) t := by
  obtain ⟨hf, ⟨r, sch, -, h⟩ | ⟨w, oob, rest, i, -, -, h⟩⟩ := step_next h
  · exact ⟨.phyReset, sch, s.oob, advance_effect (s := s.setSched sch) (.inl rfl) hf h⟩
  · exact ⟨i, rest, oob, exec_effect h⟩

/-- No effect writes the configuration, the schedule or the operands (R41). -/
theorem Effect.fixed (h : Effect i s t) : t.cfg = s.cfg ∧ t.sched = s.sched ∧ t.oob = s.oob := by
  cases h <;> exact ⟨rfl, rfl, rfl⟩

/-- The operations that reach the PHY are of `SW` and emit events (R104, R105). -/
theorem emits_and_agent_of_writesPhy (h : writesPhy i = true) : emits i = true ∧ i.agent = .sw := by
  cases i with
  | smiRead | smiWrite | phyReset | phyInit | phyPoll | adpLink => exact ⟨rfl, rfl⟩
  | _ => cases h

/-- Settles O42: each kind of effect writes only elements that the table gives its operations. -/
theorem accessTable : Obligations.AccessTable := by
  intro i s t h
  have he := exec_effect h
  obtain ⟨hcfg, hsched, hoob⟩ := he.fixed
  refine ⟨hcfg, hsched, hoob, ?_⟩
  cases he with
  | raised v hi => simp [hi]
  | answered re hi => simp [hi]
  | registered k re hi => rcases hi with rfl | rfl <;> simp [Instr.agent]
  | smi p es ro re hi hro =>
    obtain ⟨hem, hag⟩ := emits_and_agent_of_writesPhy hi
    simpa [hi, hem, hag, or_iff_not_imp_left] using hro
  | submitted m re hr hi => rcases hi with ⟨rfl, rfl⟩ | rfl <;> simp [writesTx, Instr.agent]
  | retired es re hr hi => rcases hi with ⟨rfl, rfl⟩ | rfl <;> simp [writesRx, emits, Instr.agent]
  | armed | issuedBoth | issuedTx | expired => simp [writesTx, writesRx, Instr.agent]
  | sent | landed => simp [writesTx, writesRx, emits, Ring.handBack]
  | woken => simp [emits]

end Sys2Proof.Machine
end

section
/-! What grows (R31, R35, R40). -/

namespace Sys2Proof.Machine

variable {i : Instr} {s t : State}

/-- The history is appended to, `initialised` stays set and the generation counter does not go back. -/
def State.Grows (s t : State) : Prop :=
  (∃ es, t.hist = s.hist ++ es) ∧ (s.initialised = true → t.initialised = true) ∧ s.tokGen ≤ t.tokGen

/-- Only the events emitted, Q_INIT's flag and the generations issued are new. -/
theorem Effect.grows (h : Effect i s t) : s.Grows t := by
  cases h with
  | raised | answered | registered | submitted | expired => exact ⟨⟨[], by simp⟩, id, le_rfl⟩
  | smi p es | retired es | sent es | landed es | woken es => exact ⟨⟨es, rfl⟩, id, le_rfl⟩
  | armed => exact ⟨⟨[], by simp⟩, fun _ => rfl, le_rfl⟩
  | issuedBoth | issuedTx => exact ⟨⟨[], by simp⟩, id, Nat.le_add_right _ _⟩

/-- Settles O52: every step has an effect, and every effect only grows the three. -/
theorem historyAndCountersOnlyGrow : Obligations.HistoryAndCountersOnlyGrow := by
  intro s t h
  obtain ⟨i, sch, oob, he⟩ := step_effect h
  exact he.grows

end Sys2Proof.Machine
end

section
/-! What an operation does to one ring, the same for both rings: cursors and descriptors (R26, R27, R92),
ownership (R21), shape (R22) and tokens (R31). -/

namespace Sys2Proof.Machine

/-- The buffer addresses of a ring (R9). -/
def ringAddrs (c : Config) : RingId → List Addr
  | .tx => c.txAddr
  | .rx => c.rxAddr

/-- The operations that consume a token of the ring (R78, R79, R88, R89). -/
def Consumes : RingId → Instr → Prop
  | .tx, i => ∃ len, i = .txrTransmit len ∨ i = .txtConsume len
  | .rx, i => i = .rxrPop ∨ i = .rxtConsume

/-- The DMA step of a ring (R116, R117). -/
def dmaOf : RingId → Instr
  | .tx => .dmaTx
  | .rx => .dmaRx

/-- Who owns a ring's slots after Q_INIT (R75). -/
def armedOwner : RingId → Owner
  | .tx => .sw
  | .rx => .hw

/-- The token operand is the ring's live token (R30). -/
abbrev State.LiveOn (s : State) (ring : RingId) : Prop :=
  s.oob.tok.ring = ring ∧ (s.ring ring).live = some ⟨s.oob.tok.slot, s.oob.tok.gen⟩

/-- Everything an operation can do to a ring. -/
inductive RingMove (ring : RingId) (i : Instr) (s t : State) : Prop where
  | kept (h : t.ring ring = s.ring ring)
  | armed (hi : i = .qInit) (hfree : ring = .tx → ∀ k, ¬(s.ring ring).Owns .hw k)
      (h : t.ring ring = Ring.armed (ringAddrs s.cfg ring) (armedOwner ring))
  | consumed {d d' : Desc} (hi : Consumes ring i) (hlive : s.LiveOn ring)
      (hd : (s.ring ring).desc[s.oob.tok.slot]? = some d)
      (h : t.ring ring =
        { desc := (s.ring ring).desc.set s.oob.tok.slot d'
          next := nextIdx (ringAddrs s.cfg ring).length (s.ring ring).next
          hw := (s.ring ring).hw
          live := none })
      (ha : d'.addr = d.addr) (ho : d'.own = .hw)
  | issued {g : Nat} (hg : s.tokGen ≤ g) (h : t.ring ring = (s.ring ring).issue g)
  | expired (h : t.ring ring = (s.ring ring).expire)
  | handedBack {d d' : Desc} (hi : i = dmaOf ring) (hd : (s.ring ring).desc[(s.ring ring).hw]? = some d)
      (h : t.ring ring = (s.ring ring).handBack (ringAddrs s.cfg ring).length d') (ha : d'.addr = d.addr)

theorem Ring.not_owns_hw_of_firstHw {r : Ring} (h : r.firstHw = none) (k : Nat) : ¬r.Owns .hw k := fun hk => by
  obtain ⟨d, hd, ho⟩ := Option.map_eq_some_iff.1 hk
  have hall := List.findIdx?_eq_none_iff.1 h d (List.mem_of_getElem? hd)
  simp [ho] at hall

/-- Every slot Q_INIT leaves has the one owner. -/
theorem Ring.owner_of_owns_armed {addrs : List Addr} {o o' : Owner} {k : Nat} (h : (Ring.armed addrs o).Owns o' k) :
    o' = o := by
  obtain ⟨d, hd, rfl⟩ := Option.map_eq_some_iff.1 h
  obtain ⟨a, -, rfl⟩ := Ring.mem_desc_armed.1 (List.mem_of_getElem? hd)
  rfl

/-- A slot has at most one owner. -/
theorem Ring.Owns.unique {r : Ring} {o o' : Owner} {k : Nat} (h : r.Owns o k) (h' : r.Owns o' k) : o = o' :=
  Option.some.inj (h.symm.trans h')

variable {ring : RingId} {i : Instr} {s t : State} {k : Nat}

theorem Effect.ringMove (h : Effect i s t) (ring : RingId) : RingMove ring i s t := by
  cases h with
  | raised | answered | registered | smi | woken => exact .kept (by cases ring <;> rfl)
  | armed hfree =>
    cases ring with
    | tx => exact .armed rfl (fun _ => Ring.not_owns_hw_of_firstHw hfree) rfl
    | rx => exact .armed rfl (by rintro ⟨⟩) rfl
  | submitted m re hr hi =>
    cases ring with
    | tx => exact .consumed ⟨_, hi.imp_left And.left⟩ ⟨hr.ring, hr.live⟩ hr.desc rfl rfl rfl
    | rx => exact .kept rfl
  | retired es re hr hi =>
    cases ring with
    | tx => exact .kept rfl
    | rx => exact .consumed (hi.imp_left And.left) ⟨hr.ring, hr.live⟩ hr.desc rfl rfl rfl
  | issuedBoth =>
    cases ring with
    | tx => exact .issued (Nat.le_succ _) rfl
    | rx => exact .issued le_rfl rfl
  | issuedTx =>
    cases ring with
    | tx => exact .issued le_rfl rfl
    | rx => exact .kept rfl
  | expired => exact .expired (by cases ring <;> rfl)
  | sent es v hd =>
    cases ring with
    | tx => exact .handedBack rfl hd rfl rfl
    | rx => exact .kept rfl
  | landed es m n v hd =>
    cases ring with
    | tx => exact .kept rfl
    | rx => exact .handedBack rfl hd rfl rfl

/-! ### Cursors and descriptors -/

/-- The software cursor moves only at a consume and at Q_INIT (R26). -/
theorem RingMove.next_eq (h : RingMove ring i s t) (hq : i ≠ .qInit) (hc : ¬Consumes ring i) :
    (t.ring ring).next = (s.ring ring).next := by
  cases h with
  | kept h | issued _ h | expired h | handedBack _ _ h => exact (congrArg Ring.next h).trans rfl
  | armed hi => exact absurd hi hq
  | consumed hi => exact absurd hi hc

/-- The hardware cursor moves only at the ring's DMA step and at Q_INIT (R27). -/
theorem RingMove.hw_eq (h : RingMove ring i s t) (hq : i ≠ .qInit) (hdma : i ≠ dmaOf ring) :
    (t.ring ring).hw = (s.ring ring).hw := by
  cases h with
  | kept h | issued _ h | expired h | consumed _ _ _ h => exact (congrArg Ring.hw h).trans rfl
  | armed hi => exact absurd hi hq
  | handedBack hi => exact absurd hi hdma

/-- Issuing or expiring a token writes no descriptor (R92). -/
theorem RingMove.desc_eq (h : RingMove ring i s t) (hq : i ≠ .qInit) (hc : ¬Consumes ring i)
    (hdma : i ≠ dmaOf ring) : (t.ring ring).desc = (s.ring ring).desc := by
  cases h with
  | kept h | issued _ h | expired h => exact (congrArg Ring.desc h).trans rfl
  | armed hi => exact absurd hi hq
  | consumed hi => exact absurd hi hc
  | handedBack hi => exact absurd hi hdma

theorem not_consumes_tx (h : ∀ len, i ≠ .txrTransmit len ∧ i ≠ .txtConsume len) : ¬Consumes .tx i :=
  fun ⟨len, hi⟩ => hi.elim (h len).1 (h len).2

theorem not_consumes_rx (hp : i ≠ .rxrPop) (hc : i ≠ .rxtConsume) : ¬Consumes .rx i := fun hi => hi.elim hp hc

/-- Settles O43: both rings' cursors and descriptors by the moves of a ring. -/
theorem cursorAndDescriptorFrames : Obligations.CursorAndDescriptorFrames := by
  intro i s t h hq
  have htx := (exec_effect h).ringMove .tx
  have hrx := (exec_effect h).ringMove .rx
  exact ⟨fun hc => htx.next_eq hq (not_consumes_tx hc), fun hdma => htx.hw_eq hq hdma,
    fun hc hdma => htx.desc_eq hq (not_consumes_tx hc) hdma,
    fun hp hc => hrx.next_eq hq (not_consumes_rx hp hc), fun hdma => hrx.hw_eq hq hdma,
    fun hp hc hdma => hrx.desc_eq hq (not_consumes_rx hp hc) hdma⟩

/-! ### Ownership -/

/-- A slot whose descriptor was not written keeps its owner. -/
theorem Ring.owner_of_desc_eq {r r' : Ring} {o o' : Owner} (hdesc : r'.desc = r.desc) (h : r.Owns o k)
    (h' : r'.Owns o' k) : o = o' :=
  h.unique (by rwa [Ring.Owns, hdesc] at h')

/-- Where a slot's owner changes, the replaced descriptor is the slot's, and gives it its new owner. -/
theorem Ring.owns_flip_of_desc_set {r r' : Ring} {o o' : Owner} {j : Nat} {d d' : Desc} (hd : r.desc[j]? = some d)
    (hset : r'.desc = r.desc.set j d') (h : r.Owns o k) (h' : r'.Owns o' k) (hne : o ≠ o') :
    k = j ∧ d'.own = o' := by
  rw [Ring.owns_of_desc_set hset (List.getElem?_eq_some_iff.1 hd).1] at h'
  split_ifs at h' with hkj
  · exact ⟨hkj, h'⟩
  · exact absurd (h.unique h') hne

/-- Software gives a slot away only in Q_INIT, on the RX ring, and by consuming a token for it (R21). -/
theorem RingMove.given_away (h : RingMove ring i s t) (hsw : (s.ring ring).Owns .sw k)
    (hhw : (t.ring ring).Owns .hw k) :
    (ring = .rx ∧ i = .qInit) ∨ (Consumes ring i ∧ s.LiveOn ring ∧ k = s.oob.tok.slot) := by
  cases h with
  | kept h | issued _ h | expired h =>
    rw [h] at hhw
    exact absurd (Ring.owner_of_desc_eq rfl hsw hhw) (by decide)
  | armed hi _ h =>
    rw [h] at hhw
    have ho := Ring.owner_of_owns_armed hhw
    cases ring with
    | tx => cases ho
    | rx => exact .inl ⟨rfl, hi⟩
  | consumed hi hlive hd h ha ho =>
    rw [h] at hhw
    exact .inr ⟨hi, hlive, (Ring.owns_flip_of_desc_set hd rfl hsw hhw (by decide)).1⟩
  | handedBack hi hd h ha =>
    rw [h] at hhw
    exact absurd (Ring.owns_flip_of_desc_set hd rfl hsw hhw (by decide)).2 (by simp)

/-- The DMA engine hands back only the slot at its cursor, and nobody else hands one back (R21). -/
theorem RingMove.given_back (h : RingMove ring i s t) (hhw : (s.ring ring).Owns .hw k)
    (hsw : (t.ring ring).Owns .sw k) : i = dmaOf ring ∧ k = (s.ring ring).hw := by
  cases h with
  | kept h | issued _ h | expired h =>
    rw [h] at hsw
    exact absurd (Ring.owner_of_desc_eq rfl hhw hsw) (by decide)
  | armed _ hfree h =>
    rw [h] at hsw
    have ho := Ring.owner_of_owns_armed hsw
    cases ring with
    | tx => exact absurd hhw (hfree rfl k)
    | rx => cases ho
  | consumed hi hlive hd h ha ho =>
    rw [h] at hsw
    exact absurd (Ring.owns_flip_of_desc_set hd rfl hhw hsw (by decide)).2 (by simp [ho])
  | handedBack hi hd h ha =>
    rw [h] at hsw
    exact ⟨hi, (Ring.owns_flip_of_desc_set hd rfl hhw hsw (by decide)).1⟩

/-- Settles O44: the two directions of a hand-off, on each ring. -/
theorem ownershipFlipsOnlyAtHandOffs : Obligations.OwnershipFlipsOnlyAtHandOffs := by
  intro i s t k h
  have htx := (exec_effect h).ringMove .tx
  have hrx := (exec_effect h).ringMove .rx
  exact ⟨fun hsw hhw => (htx.given_away hsw hhw).resolve_left (fun ⟨hring, _⟩ => nomatch hring),
    fun hhw hsw => htx.given_back hhw hsw,
    fun hsw hhw => (hrx.given_away hsw hhw).imp_left And.right,
    fun hhw hsw => hrx.given_back hhw hsw⟩

/-! ### Shape -/

/-- Every move keeps a ring's descriptors bound and its cursors in range (R22, R26, R27). -/
theorem RingMove.shaped (h : RingMove ring i s t) (hs : (s.ring ring).Shaped (ringAddrs s.cfg ring)) :
    (t.ring ring).Shaped (ringAddrs s.cfg ring) := by
  cases h with
  | kept h => rw [h]; exact hs
  | armed _ _ h => rw [h]; exact Ring.shaped_armed _ hs.pos
  | consumed _ _ hd h ha => rw [h]; exact hs.of_desc_set hd rfl ha (nextIdx_lt _ hs.pos) hs.hw_lt
  | issued _ h => rw [h]; exact hs.issue _
  | expired h => rw [h]; exact hs.expire
  | handedBack _ hd h ha => rw [h]; exact hs.handBack hd ha

/-- Settles O49: each ring's shape is kept by every move of the ring. -/
theorem stepKeepsRingShape : Obligations.StepKeepsRingShape := by
  intro s t htx hrx h
  obtain ⟨i, sch, oob, he⟩ := step_effect h
  obtain ⟨hcfg, -, -⟩ := he.fixed
  refine ⟨hcfg, ?_⟩
  rw [hcfg]
  exact ⟨(he.ringMove .tx).shaped htx, (he.ringMove .rx).shaped hrx⟩

/-! ### Tokens -/

theorem State.tokenLive_iff {tok : Token} :
    s.TokenLive tok ↔ (s.ring tok.ring).live = some ⟨tok.slot, tok.gen⟩ := by
  unfold State.TokenLive
  split <;> simp [*]

/-- A ring's live token after a move is the one before or a new generation (R31). -/
theorem RingMove.live (h : RingMove ring i s t) {l : Live} (hl : (t.ring ring).live = some l) :
    (s.ring ring).live = some l ∨ s.tokGen ≤ l.gen := by
  cases h with
  | kept h | handedBack _ _ h => rw [h] at hl; exact .inl hl
  | armed _ _ h | consumed _ _ _ h | expired h => rw [h] at hl; cases hl
  | issued hg h => rw [h] at hl; cases hl; exact .inr hg

/-- An issued token that is not live is not live after any effect (R31). -/
theorem Effect.keeps_dead {tok : Token} (h : Effect i s t) (hgen : tok.gen < s.tokGen) (hdead : ¬s.TokenLive tok) :
    tok.gen < t.tokGen ∧ ¬t.TokenLive tok := by
  obtain ⟨-, -, hle⟩ := h.grows
  refine ⟨hgen.trans_le hle, fun hlive => ?_⟩
  rw [State.tokenLive_iff] at hdead hlive
  rcases (h.ringMove tok.ring).live hlive with hold | hnew
  · exact hdead hold
  · exact absurd hgen (Nat.not_lt.2 hnew)

/-- Settles O53: only new generations become live. -/
theorem deadTokenStaysDead : Obligations.DeadTokenStaysDead := by
  intro s t tok h hgen hdead
  obtain ⟨i, sch, oob, he⟩ := step_effect h
  exact he.keeps_dead hgen hdead

end Sys2Proof.Machine
end

section
/-! A ring whose cursors meet (R28, R29), and reset (R42). -/

namespace Sys2Proof.Machine

/-- The `n` slots from `a` on are all of them. -/
theorem circular_surj {n a j : Nat} (ha : a < n) (hj : j < n) : ∃ i < n, (a + i) % n = j := by
  refine ⟨(j + (n - a)) % n, Nat.mod_lt _ (by omega), ?_⟩
  rw [Nat.add_mod_mod, show a + (j + (n - a)) = j + n by omega, Nat.add_mod_right, Nat.mod_eq_of_lt hj]

/-- On a ring of `n` slots every slot has an owner. -/
theorem Ring.exists_owner {r : Ring} {k : Nat} (h : k < r.desc.length) : ∃ o, r.Owns o k :=
  ⟨r.desc[k].own, by simp [h]⟩

/-- An interval between cursors that meet is all of the ring or none of it (R28, R29). -/
theorem Ring.OwnedInterval.owns_iff {r : Ring} {n a j : Nat} {o : Owner} (h : r.OwnedInterval n o a a) (ha : a < n)
    (hj : j < n) : r.Owns o j ↔ r.Owns o a := by
  obtain ⟨k, hk, hak, howns⟩ := Ring.ownedInterval_iff.1 h
  have hk0 : k = 0 ∨ k = n := by
    by_contra hne
    have := (circular_inj (a := a) (by omega : 0 < n) (by omega : k < n)).1
      (by rw [Nat.add_zero, Nat.mod_eq_of_lt ha, ← hak])
    omega
  have hfront := howns 0 (by omega)
  rw [Nat.add_zero, Nat.mod_eq_of_lt ha] at hfront
  obtain ⟨i, hi, rfl⟩ := circular_surj ha hj
  rw [howns i hi, hfront]
  omega

/-- There are two owners (R14). -/
theorem Owner.eq_of_ne_of_ne {o p q : Owner} (hp : p ≠ o) (hq : q ≠ o) : p = q := by
  cases o with
  | sw | hw => cases p <;> cases q <;> trivial

/-- Two slots that `o` owns alike have the same owner. -/
theorem Ring.owns_of_owns_iff {r : Ring} {o o' : Owner} {j a : Nat} (hj : j < r.desc.length)
    (hiff : r.Owns o j ↔ r.Owns o a) (ha : r.Owns o' a) : r.Owns o' j := by
  obtain ⟨p, hp⟩ := Ring.exists_owner hj
  by_cases ho : o' = o
  · subst ho
    exact hiff.2 ha
  · have hpo : p ≠ o := by
      rintro rfl
      exact ho (ha.unique (hiff.1 hp))
    exact Owner.eq_of_ne_of_ne hpo ho ▸ hp

/-- Where the cursors meet, the slot at the cursor tells the owner of every slot. -/
theorem Ring.OwnedInterval.owns_all {r : Ring} {addrs : List Addr} {a j : Nat} {o o' : Owner}
    (h : r.OwnedInterval addrs.length o a a) (hs : r.Shaped addrs) (ha : a < addrs.length) (ho : r.Owns o' a)
    (hj : j < addrs.length) : r.Owns o' j :=
  Ring.owns_of_owns_iff (hs.length_desc.symm ▸ hj) (h.owns_iff ha hj) ho

/-- Before Q_INIT the RX ring has no hardware-owned slot, after it the interval of R29. -/
theorem State.RxInv.exists_interval {s : State} (h : s.RxInv) (hmeet : s.rx.next = s.rx.hw) :
    ∃ o, s.rx.OwnedInterval s.cfg.nRx o s.rx.next s.rx.next := by
  cases hi : s.initialised with
  | false =>
    refine ⟨.hw, Ring.ownedInterval_of_none h.shaped.next_lt fun d hd => ?_⟩
    rw [((h.before hi).1 d hd).1]
    decide
  | true =>
    have hl := h.landed hi
    rw [← hmeet] at hl
    exact ⟨.sw, hl⟩

/-- Settles O51: an owned interval whose ends meet is all of the ring or none of it. -/
theorem fullOrEmptyToldByCursorSlot : Obligations.FullOrEmptyToldByCursorSlot := by
  refine fun s hs => ⟨fun hmeet o ho k hk => ?_, fun hmeet o ho k hk => ?_⟩
  · have hf := hs.tx.flight
    rw [hmeet] at hf
    exact hf.owns_all hs.tx.shaped hs.tx.shaped.next_lt ho hk
  · obtain ⟨p, hp⟩ := hs.rx.exists_interval hmeet
    exact hp.owns_all hs.rx.shaped hs.rx.shaped.next_lt ho hk

/-- Construction leaves a ring as arming it for software would (R42, R75). -/
theorem Ring.reset_eq_armed (addrs : List Addr) : Ring.reset addrs = Ring.armed addrs .sw := rfl

/-- Settles O45: reset sets each element to the table's value (R42), and no byte is listed. -/
theorem resetValues : Obligations.ResetValues := fun c =>
  ⟨State.resetOf_cfg c, rfl, rfl, fun _ _ x _ => Memory.read_nil x, rfl, rfl, rfl, rfl, rfl, rfl,
    State.resetOf_tokGen c, State.resetOf_waker c, State.resetOf_irqPending c, State.resetOf_initialised c,
    State.resetOf_fault c, State.resetOf_phy c, State.resetOf_hist c⟩

theorem State.txInv_resetOf (c : Config) : (State.resetOf c).TxInv :=
  (State.txInv_armed (State.resetOf c)).frame rfl (Ring.reset_eq_armed _) le_rfl

/-- Nothing has happened on the RX ring before Q_INIT. -/
theorem State.rxInv_resetOf (c : Config) : (State.resetOf c).RxInv := by
  have hdesc : ∀ d ∈ (State.resetOf c).rx.desc, ∃ a ∈ c.rxAddr, ⟨a, 0, .sw, 0⟩ = d := fun d hd =>
    Ring.mem_desc_armed.1 hd
  exact
    { shaped := Ring.shaped_armed .sw (Config.legal c).nRx_pos
      fits := fun d hd => by
        obtain ⟨a, ha, rfl⟩ := hdesc d hd
        exact ⟨Config.rxAddr_lt c ha, Nat.two_pow_pos _, Nat.two_pow_pos _⟩
      before := fun _ => ⟨fun d hd => by obtain ⟨a, -, rfl⟩ := hdesc d hd; exact ⟨rfl, rfl⟩, rfl⟩
      lens := by rintro ⟨⟩
      landed := by rintro ⟨⟩
      token := Ring.tokenOk_of_no_live rfl }

theorem State.inv_resetOf (c : Config) : (State.resetOf c).Inv :=
  ⟨Memory.nil_wf, State.txInv_resetOf c, State.rxInv_resetOf c⟩

/-- Settles O47: reset is the armed TX ring and an RX ring on which nothing has happened. -/
theorem resetMeetsInvariant : Obligations.ResetMeetsInvariant :=
  ⟨State.inv_resetOf, State.inv_resetOf Config.default⟩

end Sys2Proof.Machine
end

section
/-! What happens to the memory: who writes it (R49), and its canonical form. -/

namespace Sys2Proof.Machine

variable {i : Instr} {s t : State}

/-- Of the kinds of effect only a TX consume and a landed frame write the memory (R88, R117), and of the
two TX consumes TXR_TRANSMIT leaves it (R78). -/
theorem Effect.mem_eq (h : Effect i s t) (hc : ∀ len, i ≠ .txtConsume len) (hr : i ≠ .dmaRx) : t.mem = s.mem := by
  cases h with
  | submitted m re htx hi => exact (hi.resolve_right (hc _)).2
  | landed => exact absurd rfl hr
  | raised | answered | registered | smi | armed | retired | issuedBoth | issuedTx | expired | sent | woken => rfl

/-- Settles O39: the memory is the same, and so is every byte. -/
theorem frameOfNonStoringOperations : Obligations.FrameOfNonStoringOperations := fun _ _ _ h hc hr x =>
  congrArg (Memory.read · x) ((exec_effect h).mem_eq hc hr)

/-- An operation that changes the memory writes one byte sequence to it. -/
theorem exec_mem (h : exec i s = .next t) : t.mem = s.mem ∨ ∃ a bs, t.mem = s.mem.writeBytes a bs := by
  cases i with
  | txtConsume len =>
    rcases execTxtConsume_next h with ⟨-, v, rfl, -⟩ | ⟨d, a, -, -, b, y, -, -, rfl⟩
    · exact .inl rfl
    · exact .inr ⟨a, b, rfl⟩
  | dmaRx =>
    obtain ⟨-, d, a, -, -, -, -, -, rfl⟩ := execDmaRx_next h
    exact .inr ⟨a, s.oob.frame, rfl⟩
  | _ => exact .inl ((exec_effect h).mem_eq nofun nofun)

/-- Every operation keeps the canonical form. -/
theorem exec_keeps_mem_wf (hs : s.mem.wf) (h : exec i s = .next t) : t.mem.wf := by
  rcases exec_mem h with hm | ⟨a, bs, hm⟩
  · exact hm ▸ hs
  · exact hm ▸ Memory.writeBytes_wf hs a bs

/-- A turn of a PHY routine leaves the memory as it is (R110). -/
theorem advance_mem {r : Running} (hf : s.fault = none) (h : advance s r = .next t) : t.mem = s.mem :=
  (advance_effect (.inl rfl) hf h).mem_eq nofun nofun

/-- Settles O38: an operation keeps the form by its writes, and a routine's turn leaves the memory alone. -/
theorem stepKeepsMemoryCanonical : Obligations.StepKeepsMemoryCanonical := by
  intro s t hs h
  obtain ⟨hf, ⟨r, sch, -, h⟩ | ⟨w, oob, rest, i, -, -, h⟩⟩ := step_next h
  · have hm : t.mem = s.mem := advance_mem (s := s.setSched sch) hf h
    exact hm ▸ hs
  · exact exec_keeps_mem_wf (s := (s.setSched rest).setOob oob) hs h

end Sys2Proof.Machine
end

section
/-! The operation word cut into the fields of R64, and what a row of the opcode map asks of it (R67, R68). -/

namespace Sys2Proof

section fields

variable {op op' : BitVec 8} {rsv rsv' : BitVec 3} {reg reg' : BitVec 5} {low low' : Half}

/-- A word by its fields `w[31:24]`, `w[23:21]`, `w[20:16]` and `w[15:0]` (R63, R64). -/
def ofFields (op : BitVec 8) (rsv : BitVec 3) (reg : BitVec 5) (low : Half) : OpWord :=
  op ++ (rsv ++ (reg ++ low) : BitVec 24)

theorem layWord_eq_ofFields (op : BitVec 8) (n : Nat) (low : Half) :
    layWord op n low = ofFields op 0 (BitVec.ofNat 5 n) low := rfl

/-- Every word is made of its fields. -/
theorem ofFields_fields (w : OpWord) :
    ofFields (opcodeField w) (w.extractLsb' 21 3) (w.extractLsb' 16 5) (lowField w) = w := by
  have hlow : w.extractLsb' 16 5 ++ lowField w = w.extractLsb' 0 21 :=
    BitVec.extractLsb'_append_extractLsb'_eq_extractLsb' rfl
  have hrest : (w.extractLsb' 21 3 ++ w.extractLsb' 0 21 : BitVec 24) = w.extractLsb' 0 24 :=
    BitVec.extractLsb'_append_extractLsb'_eq_extractLsb' rfl
  have hw : (opcodeField w ++ w.extractLsb' 0 24 : BitVec 32) = w.extractLsb' 0 32 :=
    BitVec.extractLsb'_append_extractLsb'_eq_extractLsb' rfl
  calc ofFields (opcodeField w) (w.extractLsb' 21 3) (w.extractLsb' 16 5) (lowField w)
    _ = opcodeField w ++ (w.extractLsb' 21 3 ++ w.extractLsb' 0 21 : BitVec 24) := by rw [ofFields, hlow]
    _ = w.extractLsb' 0 32 := by rw [hrest, hw]
    _ = w := BitVec.extractLsb'_eq_self

/-- A bitwise and goes field by field. -/
theorem ofFields_and :
    ofFields op rsv reg low &&& ofFields op' rsv' reg' low' =
      ofFields (op &&& op') (rsv &&& rsv') (reg &&& reg') (low &&& low') := by
  have hrest : (rsv ++ (reg ++ low) : BitVec 24) &&& (rsv' ++ (reg' ++ low') : BitVec 24) =
      (rsv &&& rsv') ++ ((reg &&& reg') ++ (low &&& low')) := by
    rw [← BitVec.and_append]; exact BitVec.and_append
  exact BitVec.and_append.trans (congrArg ((op &&& op') ++ ·) hrest)

theorem append_inj {m n : Nat} {x x' : BitVec m} {y y' : BitVec n} : x ++ y = x' ++ y' ↔ x = x' ∧ y = y' := by
  refine ⟨fun h => ⟨?_, ?_⟩, fun ⟨hx, hy⟩ => by rw [hx, hy]⟩
  · rw [← BitVec.extractLsb'_append_eq_left (a := x) (b := y), h, BitVec.extractLsb'_append_eq_left]
  · rw [← BitVec.extractLsb'_append_eq_right (a := x) (b := y), h, BitVec.extractLsb'_append_eq_right]

/-- Words are equal when their fields are. -/
theorem ofFields_inj :
    ofFields op rsv reg low = ofFields op' rsv' reg' low' ↔ op = op' ∧ rsv = rsv' ∧ reg = reg' ∧ low = low' := by
  rw [← append_inj (x := reg), ← append_inj (x := rsv)]
  exact append_inj

end fields

/-- The format has the field `reg` (R64). -/
def Format.hasReg : Format → Bool
  | .r | .rv => true
  | .n | .l | .t => false

/-- The format has the low field: `len`, `task` or `val` (R64). -/
def Format.hasLow : Format → Bool
  | .l | .t | .rv => true
  | .n | .r => false

/-- The reserved bits of a format are those between the opcode and the register, and the fields it lacks. -/
theorem Format.reserved_eq_ofFields (f : Format) :
    f.reserved = ofFields 0 (BitVec.allOnes 3) (if f.hasReg then 0 else BitVec.allOnes 5)
      (if f.hasLow then 0 else BitVec.allOnes 16) := by
  cases f <;> rfl

/-- The bits a format fixes are its reserved bits and the opcode (R68). -/
theorem Format.or_reserved_eq_ofFields (f : Format) :
    0xFF000000 ||| f.reserved = ofFields (BitVec.allOnes 8) (BitVec.allOnes 3)
      (if f.hasReg then 0 else BitVec.allOnes 5) (if f.hasLow then 0 else BitVec.allOnes 16) := by
  cases f <;> rfl

theorem and_ite_allOnes_eq_zero_iff {n : Nat} {b : Bool} {x : BitVec n} :
    x &&& (if b then 0 else BitVec.allOnes n) = 0 ↔ x = if b then x else 0 := by
  cases b <;> simp

/-- No reserved bit is set when the bits above the register and the fields the format lacks are 0. -/
theorem Format.and_reserved_eq_zero_iff {f : Format} {w : OpWord} :
    w &&& f.reserved = 0 ↔ w.extractLsb' 21 3 = 0 ∧
      w.extractLsb' 16 5 = (if f.hasReg then w.extractLsb' 16 5 else 0) ∧
      lowField w = if f.hasLow then lowField w else 0 := by
  conv_lhs => rw [← ofFields_fields w, f.reserved_eq_ofFields, ofFields_and]
  rw [show (0 : OpWord) = ofFields 0 0 0 0 from rfl, ofFields_inj, BitVec.and_allOnes, and_ite_allOnes_eq_zero_iff,
    and_ite_allOnes_eq_zero_iff]
  exact and_iff_right BitVec.and_zero

/-- The word has the fields a row gives a value: its opcode, and 0 outside the fields of its format (R63, R64). -/
structure OpRow.Fits (r : OpRow) (w : OpWord) : Prop where
  opcode : opcodeField w = r.opcode
  reserved : w &&& r.format.reserved = 0

theorem OpRow.fits_iff {r : OpRow} {w : OpWord} :
    r.Fits w ↔ opcodeField w = r.opcode ∧ w &&& r.format.reserved = 0 :=
  ⟨fun h => ⟨h.opcode, h.reserved⟩, fun h => ⟨h.1, h.2⟩⟩

/-- A row's word for the operands a word holds: the operands its format has, and 0 elsewhere (R64). -/
def OpRow.layout (r : OpRow) (w : OpWord) : OpWord :=
  layWord r.opcode (if r.format.hasReg then regField w else 0) (if r.format.hasLow then lowField w else 0)

/-- A word fits a row when laying its operands out again gives it back. -/
theorem OpRow.fits_iff_layout {r : OpRow} {w : OpWord} : r.Fits w ↔ r.layout w = w := by
  have hreg : BitVec.ofNat 5 (if r.format.hasReg then regField w else 0) =
      if r.format.hasReg then w.extractLsb' 16 5 else 0 := by
    split
    · rw [regField, BitVec.ofNat_toNat, BitVec.setWidth_eq]
    · rfl
  rw [OpRow.fits_iff, Format.and_reserved_eq_zero_iff, OpRow.layout, layWord_eq_ofFields, hreg]
  conv_rhs => rhs; rw [← ofFields_fields w]
  rw [ofFields_inj]
  simp only [eq_comm]

end Sys2Proof
end

section
/-! The decoder by the rows of the opcode map (R67 to R69), and its inverse. -/

namespace Sys2Proof

variable {r : OpRow} {w : OpWord} {i : Instr}

/-- No two rows have one opcode (R67). -/
theorem nodup_opcodes : (opcodeMap.map OpRow.opcode).Nodup := by decide

/-- No two rows have one name (R67). -/
theorem nodup_names : (opcodeMap.map OpRow.name).Nodup := by decide

theorem exists_row_of_name (n : OpName) : ∃ r ∈ opcodeMap, r.name = n := by
  cases n <;> decide

theorem rowOf_eq_some (hr : r ∈ opcodeMap) : rowOf r.opcode = some r := by
  cases h : rowOf r.opcode with
  | none => simpa using List.find?_eq_none.1 h r hr
  | some q =>
    have hq : q.opcode = r.opcode := by simpa using List.find?_some h
    rw [List.inj_on_of_nodup_map nodup_opcodes (List.mem_of_find?_eq_some h) hr hq]

/-- At a row's opcode the decoder reads the row's operation when no reserved bit is set (R63, R69). -/
theorem decode_of_opcode (hr : r ∈ opcodeMap) (ho : opcodeField w = r.opcode) :
    decode w = if w &&& r.format.reserved = 0 then .ok (assemble w r.name) else .error .reservedBitsSet := by
  rw [decode, ho, rowOf_eq_some hr]

theorem decode_of_fits (hr : r ∈ opcodeMap) (h : r.Fits w) : decode w = .ok (assemble w r.name) := by
  rw [decode_of_opcode hr h.opcode, if_pos h.reserved]

theorem decode_of_reserved (hr : r ∈ opcodeMap) (ho : opcodeField w = r.opcode) (h : ¬r.Fits w) :
    decode w = .error .reservedBitsSet := by
  rw [decode_of_opcode hr ho, if_neg fun hres => h ⟨ho, hres⟩]

theorem decode_of_no_row (h : ∀ r ∈ opcodeMap, r.opcode ≠ opcodeField w) : decode w = .error .noSuchOperation := by
  have hnone : rowOf (opcodeField w) = none := List.find?_eq_none.2 fun r hr => by simpa using h r hr
  rw [decode, hnone]

/-- A word that decodes fits the row of its operation, and its operands are read from it. -/
theorem exists_row_of_decode (h : decode w = .ok i) : ∃ r ∈ opcodeMap, r.Fits w ∧ i = assemble w r.name := by
  by_cases ho : ∃ r ∈ opcodeMap, r.opcode = opcodeField w
  · obtain ⟨r, hr, ho⟩ := ho
    by_cases hf : r.Fits w
    · exact ⟨r, hr, hf, Except.ok.inj (h.symm.trans (decode_of_fits hr hf))⟩
    · cases h.symm.trans (decode_of_reserved hr ho.symm hf)
  · cases h.symm.trans (decode_of_no_row fun r hr he => ho ⟨r, hr, he⟩)

@[simp] theorem opName_assemble (w : OpWord) (n : OpName) : (assemble w n).opName = n := by
  cases n <;> rfl

theorem regField_le (w : OpWord) : regField w ≤ 31 := Nat.le_of_lt_succ (BitVec.isLt _)

theorem lowField_lt (w : OpWord) : (lowField w).toNat < 2 ^ 16 := BitVec.isLt _

/-- The operands read from a word are in their ranges (R65). -/
theorem wellFormed_assemble (w : OpWord) (n : OpName) : (assemble w n).wellFormed = true := by
  cases n with
  | adpReceive | adpTransmit | adpLink => exact decide_eq_true (lowField_lt w)
  | smiRead | smiWrite => exact decide_eq_true (regField_le w)
  | _ => rfl

/-- A task identity is read back from its word. -/
theorem task_layWord {task : TaskId} (op : BitVec 8) (h : taskInRange task = true) :
    (lowField (layWord op 0 (BitVec.ofNat 16 task))).toNat = task := by
  rw [lowField_layWord, BitVec.toNat_ofNat, Nat.mod_eq_of_lt (of_decide_eq_true h)]

/-- The operands of a well-formed operation are read back from its word (R64, R65). -/
theorem assemble_encode (h : i.wellFormed = true) : assemble (encode i) i.opName = i := by
  cases i with
  | txrTransmit len => exact congrArg Instr.txrTransmit (lowField_layWord ..)
  | txtConsume len => exact congrArg Instr.txtConsume (lowField_layWord ..)
  | adpReceive task => exact congrArg Instr.adpReceive (task_layWord _ h)
  | adpTransmit task => exact congrArg Instr.adpTransmit (task_layWord _ h)
  | adpLink task => exact congrArg Instr.adpLink (task_layWord _ h)
  | smiRead reg => exact congrArg Instr.smiRead (regField_layWord _ _ _ (of_decide_eq_true h))
  | smiWrite reg val =>
    exact congrArg₂ Instr.smiWrite (regField_layWord _ _ _ (of_decide_eq_true h)) (lowField_layWord ..)
  | _ => rfl

/-- The word of the operation a row reads from a word is the row's layout of that word (R64, R67). -/
theorem encode_assemble (hr : r ∈ opcodeMap) : encode (assemble w r.name) = r.layout w := by
  have htask : BitVec.ofNat 16 (lowField w).toNat = lowField w := by rw [BitVec.ofNat_toNat, BitVec.setWidth_eq]
  fin_cases hr <;> simp [assemble, encode, OpRow.layout, Format.hasReg, Format.hasLow, htask]

end Sys2Proof
end

section
/-! The encoding: decoder and encoder are inverse (R63 to R65, R67), R68's table and R69's refusals. -/

namespace Sys2Proof.Machine

/-- Settles O1: the operation is the one its word's row assembles, so the word is the row's own layout of it. -/
theorem decodeOfEncodeIsInstr : Obligations.DecodeOfEncodeIsInstr := by
  intro i hwf
  obtain ⟨r, hr, hn⟩ := exists_row_of_name i.opName
  have hi : assemble (encode i) r.name = i := by rw [hn, assemble_encode hwf]
  have hfits : r.Fits (encode i) := OpRow.fits_iff_layout.2 (by rw [← encode_assemble hr, hi])
  rw [decode_of_fits hr hfits, hi]

/-- Settles O2: a word fits its row, so it is the row's layout of its operands, which are in range. -/
theorem encodeOfDecodeIsWord : Obligations.EncodeOfDecodeIsWord := by
  intro w i h
  obtain ⟨r, hr, hfits, rfl⟩ := exists_row_of_decode h
  exact ⟨(encode_assemble hr).trans (OpRow.fits_iff_layout.1 hfits), wellFormed_assemble w r.name⟩

/-- Settles O3, by running the decoder. -/
theorem specWordsDecode : Obligations.SpecWordsDecode := by
  unfold Obligations.SpecWordsDecode
  decide

/-- The row of R68's table that a row of the opcode map stands for. -/
def maskRow (r : OpRow) : MaskRow :=
  ⟨r.name, layWord r.opcode 0 0, 0xFF000000 ||| r.format.reserved⟩

/-- R68's table lists the opcode map's rows. -/
theorem maskTable_eq_map : maskTable = opcodeMap.map maskRow := by decide

theorem forall_maskTable {p : MaskRow → Prop} : (∀ m ∈ maskTable, p m) ↔ ∀ r ∈ opcodeMap, p (maskRow r) := by
  rw [maskTable_eq_map, List.forall_mem_map]

/-- A word matches a row of the table when it fits the row of the opcode map (R68). -/
theorem and_mask_eq_pattern_iff {r : OpRow} {w : OpWord} :
    w &&& (maskRow r).mask = (maskRow r).pattern ↔ r.Fits w := by
  rw [OpRow.fits_iff, Format.and_reserved_eq_zero_iff]
  conv_lhs => rw [← ofFields_fields w, maskRow, r.format.or_reserved_eq_ofFields, ofFields_and]
  rw [layWord_eq_ofFields, ofFields_inj, show BitVec.ofNat 5 0 = 0 from rfl, and_ite_allOnes_eq_zero_iff,
    and_ite_allOnes_eq_zero_iff, BitVec.and_allOnes, BitVec.and_allOnes]

/-- The opcode of a pattern is its row's. -/
theorem extractLsb'_pattern (r : OpRow) : (maskRow r).pattern.extractLsb' 24 8 = r.opcode :=
  opcodeField_layWord r.opcode 0 0

/-- A row's operation is read from the words that fit the row. -/
theorem exists_decode_opName_iff {r : OpRow} {w : OpWord} (hr : r ∈ opcodeMap) :
    (∃ i, decode w = .ok i ∧ i.opName = r.name) ↔ r.Fits w := by
  constructor
  · rintro ⟨i, h, hn⟩
    obtain ⟨q, hq, hfits, rfl⟩ := exists_row_of_decode h
    rw [opName_assemble] at hn
    rwa [← List.inj_on_of_nodup_map nodup_names hq hr hn]
  · exact fun hfits => ⟨_, decode_of_fits hr hfits, opName_assemble w r.name⟩

/-- Settles O4: to match a row is to fit it, and no two rows have one opcode. -/
theorem maskAndMatchSelectRow : Obligations.MaskAndMatchSelectRow := by
  refine ⟨forall_maskTable.2 fun r hr w => ?_, fun w i h => ?_, ?_⟩
  · exact (exists_decode_opName_iff hr).trans and_mask_eq_pattern_iff.symm
  · obtain ⟨r, hr, -, rfl⟩ := exists_row_of_decode h
    exact ⟨maskRow r, maskTable_eq_map ▸ List.mem_map_of_mem hr, (opName_assemble w r.name).symm⟩
  · rw [maskTable_eq_map, List.pairwise_map]
    refine (List.pairwise_map.1 nodup_opcodes).imp fun hne w hr hq => hne ?_
    exact (and_mask_eq_pattern_iff.1 hr).opcode.symm.trans (and_mask_eq_pattern_iff.1 hq).opcode

/-- A step at a word that spells no operation is the decoder's refusal (R69, R130). -/
theorem step_of_decode_error {s : State} {w : OpWord} {oob : Oob} {rest : List Turn} {why : DecodeRefusal}
    (hf : s.fault = none) (hs : s.sched = .issue w oob :: rest) (hw : decode w = .error why) :
    step s = .refused (.decode why) := by
  simp [step, takeTurn, hf, hs, hw]

/-- Settles O5: the decoder looks for the opcode's row first, then at the row's reserved bits. -/
theorem reservedWordsAreRefused : Obligations.ReservedWordsAreRefused := by
  refine fun w => ⟨fun h => ?_, forall_maskTable.2 fun r hr ho hne => ?_, fun s oob rest why => step_of_decode_error⟩
  · exact decode_of_no_row fun r hr => extractLsb'_pattern r ▸ forall_maskTable.1 h r hr
  · exact decode_of_reserved hr (ho.symm.trans (extractLsb'_pattern r))
      fun hfits => hne (and_mask_eq_pattern_iff.2 hfits)

end Sys2Proof.Machine
end

section
/-! The operations of the rings: their checks in order, and what each does where none raises (R75 to R79, R129). -/

namespace Sys2Proof.Machine

variable {s t : State}

theorem swStep_of_ready (hs : s.SwReady) (k : Out) : swStep s k = k := swStep_ready hs.1 hs.2

/-! ### Q_INIT's search for a hardware-owned slot -/

theorem Ring.owns_getElem_iff {r : Ring} {i : Nat} (hi : i < r.desc.length) (o : Owner) :
    r.Owns o i ↔ r.desc[i].own = o :=
  Ring.owns_of_getElem? (List.getElem?_eq_getElem hi) o

theorem Ring.Owns.lt_length {r : Ring} {o : Owner} {i : Nat} (h : r.Owns o i) : i < r.desc.length := by
  obtain ⟨d, hd, -⟩ := Option.map_eq_some_iff.1 h
  exact (List.getElem?_eq_some_iff.1 hd).1

/-- The search finds the least hardware-owned slot (R75). -/
theorem Ring.firstHw_eq_some {r : Ring} {i : Nat} (hi : r.Owns .hw i) (hlt : ∀ j < i, ¬r.Owns .hw j) :
    r.firstHw = some i := by
  refine List.findIdx?_eq_some_iff_getElem.2 ⟨hi.lt_length, ?_, fun j hj => ?_⟩
  · simpa using (Ring.owns_getElem_iff hi.lt_length .hw).1 hi
  · simpa using mt (Ring.owns_getElem_iff (hj.trans hi.lt_length) .hw).2 (hlt j hj)

/-- The search finds nothing where no slot is hardware-owned (R75). -/
theorem Ring.firstHw_eq_none {r : Ring} (h : ∀ i, ¬r.Owns .hw i) : r.firstHw = none := by
  refine List.findIdx?_eq_none_iff.2 fun d hd => ?_
  obtain ⟨i, hi, rfl⟩ := List.mem_iff_getElem.1 hd
  simpa using mt (Ring.owns_getElem_iff hi .hw).2 (h i)

theorem execQInit_of_initialised (hs : s.SwReady) (hi : s.initialised = true) : exec .qInit s = raise s .initTwice :=
  (swStep_of_ready hs _).trans (if_pos hi)

theorem execQInit_of_busy {i : Nat} (hs : s.SwReady) (hi : s.initialised = false) (hbusy : s.tx.firstHw = some i) :
    exec .qInit s = raise s (.initBusy .tx i) := by
  refine (swStep_of_ready hs _).trans ?_
  rw [hi, hbusy]
  rfl

theorem execQInit_of_free (hs : s.SwReady) (hi : s.initialised = false) (hfree : s.tx.firstHw = none) :
    exec .qInit s = .next { s with
      tx := Ring.armed s.cfg.txAddr .sw, rx := Ring.armed s.cfg.rxAddr .hw
      irqPending := false, initialised := true, ret := .unit } := by
  refine (swStep_of_ready hs _).trans ?_
  rw [hi, hfree]
  rfl

/-! ### The availability checks -/

theorem execTxrAvail_of_desc {d : Desc} (hs : s.SwReady) (hd : s.tx.desc[s.tx.next]? = some d) :
    exec .txrAvail s = .next (s.setRet (.txSlot (if d.own = .sw then some s.tx.next else none))) :=
  (swStep_of_ready hs _).trans (withDesc_some hd)

theorem execRxrAvail_of_not_initialised (hs : s.SwReady) (hi : s.initialised = false) :
    exec .rxrAvail s = raise s (.notInitialised .rxrAvail) :=
  (swStep_of_ready hs _).trans (if_neg (by simp [hi]))

/-- After Q_INIT the check is made of the descriptor at the cursor (R77). -/
theorem execRxrAvail_of_desc {d : Desc} (hs : s.SwReady) (hi : s.initialised = true)
    (hd : s.rx.desc[s.rx.next]? = some d) :
    exec .rxrAvail s =
      if d.own = .sw then
        withBuf s.cfg .rx s.rx.next d.len fun a => .next (s.setRet (.rxFrame (some (s.rx.next, ⟨a, d.len⟩))))
      else .next (s.setRet (.rxFrame none)) :=
  ((swStep_of_ready hs _).trans (if_pos hi)).trans (withDesc_some hd)

/-! ### The token checks of the consumes -/

section
variable {op : FaultOp} {len : Half} {d : Desc} (k : Nat → Desc → Out)

theorem withTxToken_of_not_live (h : ¬s.LiveTx) : withTxToken op len s k = raise s (.noLiveToken op s.oob.tok) :=
  if_neg (mt isLive_iff.1 h)

/-- With a live token the checks go on to its slot's flag, then to the length (R78, R88). -/
theorem withTxToken_of_live (h : s.LiveTx) (hd : s.tx.desc[s.oob.tok.slot]? = some d) :
    withTxToken op len s k =
      if d.own = .sw then
        if 1 ≤ len.toNat ∧ len.toNat ≤ s.cfg.txBufSize then k s.oob.tok.slot d
        else raise s (.txLenRange len.toNat)
      else raise s (.slotNotSw .tx s.oob.tok.slot) :=
  (if_pos (isLive_iff.2 h)).trans (withDesc_some hd)

theorem withTxToken_of_ready (h : TxReady s len d) : withTxToken op len s k = k s.oob.tok.slot d := by
  rw [withTxToken_of_live k ⟨h.ring, h.live⟩ h.desc, if_pos h.own, if_pos ⟨h.pos, h.le⟩]

theorem withRxToken_of_not_initialised (h : s.initialised = false) :
    withRxToken op s k = raise s (.notInitialised op) :=
  if_neg (by simp [h])

theorem withRxToken_of_not_live (hi : s.initialised = true) (h : ¬s.LiveRx) :
    withRxToken op s k = raise s (.noLiveToken op s.oob.tok) :=
  (if_pos hi).trans (if_neg (mt isLive_iff.1 h))

/-- With a live token the checks go on to its slot's flag (R79, R89). -/
theorem withRxToken_of_live (hi : s.initialised = true) (h : s.LiveRx) (hd : s.rx.desc[s.oob.tok.slot]? = some d) :
    withRxToken op s k =
      if d.own = .sw then k s.oob.tok.slot d else raise s (.slotNotSw .rx s.oob.tok.slot) :=
  ((if_pos hi).trans (if_pos (isLive_iff.2 h))).trans (withDesc_some hd)

end

theorem execTxrTransmit_eq (hs : s.SwReady) (len : Half) :
    exec (.txrTransmit len) s = withTxToken .txrTransmit len s fun i d =>
      .next ((s.setTx (s.tx.submit s.cfg.nTx i d len)).setRet .unit) :=
  swStep_of_ready hs _

theorem execRxrPop_eq (hs : s.SwReady) :
    exec .rxrPop s = withRxToken .rxrPop s fun i d => .next ((s.setRx (s.rx.retire s.cfg.nRx i d)).setRet .unit) :=
  swStep_of_ready hs _

theorem Owner.ne_sw_of_eq_hw {o : Owner} (h : o = .hw) : o ≠ .sw := by
  rw [h]
  decide

/-! ### The statements -/

/-- Settles O10: Q_INIT's two checks in order, then the armed rings. -/
theorem qInitArmsTheRings : Obligations.QInitArmsTheRings := by
  refine ⟨by decide, fun s hs => ⟨fun hi => ?_, fun hi i ho hlt => ?_, fun hi hfree => ?_⟩⟩
  · exact execQInit_of_initialised hs hi
  · exact execQInit_of_busy hs hi (Ring.firstHw_eq_some ho hlt)
  · exact execQInit_of_free hs hi (Ring.firstHw_eq_none hfree)

/-- Settles O11: the check reads the flag of the descriptor at the cursor. -/
theorem txrAvailReportsFreeSlot : Obligations.TxrAvailReportsFreeSlot :=
  ⟨by decide, fun _ _ hs hd => execTxrAvail_of_desc hs hd⟩

/-- Settles O12: the flag at the cursor decides, and a landed frame lies in its slot's buffer. -/
theorem rxrAvailExposesReceivedBytes : Obligations.RxrAvailExposesReceivedBytes := by
  refine ⟨by decide, fun s hs => ⟨execRxrAvail_of_not_initialised hs, fun d a hi hd ho hle ha => ⟨?_, rfl⟩,
    fun d hi hd ho => ?_⟩⟩
  · rw [execRxrAvail_of_desc hs hi hd, if_pos ho, withBuf_some (bufRange_eq_some.2 ⟨hle, ha⟩)]
    rfl
  · rw [execRxrAvail_of_desc hs hi hd, if_neg (Owner.ne_sw_of_eq_hw ho)]
    rfl

/-- Settles O13: the token checks in order, then the submission. -/
theorem txrTransmitSubmitsSlot : Obligations.TxrTransmitSubmitsSlot := by
  refine ⟨fun len => ?_, fun s len hs => ?_⟩
  · have hword : encode (.txrTransmit len) = 0x11000000 ||| len.setWidth 32 := layWord_eq_or 0x11 0 len (Nat.zero_le _)
    rw [← hword, decodeOfEncodeIsInstr _ rfl]
  rw [execTxrTransmit_eq hs]
  refine ⟨fun hl => withTxToken_of_not_live _ hl, fun d hl hd => ?_⟩
  rw [withTxToken_of_live _ hl hd]
  refine ⟨fun ho => ?_, fun ho hlen => ?_, fun ho hpos hle => ?_⟩
  · rw [if_neg (Owner.ne_sw_of_eq_hw ho)]
    rfl
  · rw [if_pos ho, if_neg hlen]
    rfl
  · rw [if_pos ho, if_pos ⟨hpos, hle⟩]
    rfl

/-- Settles O14: the token checks in order, then the retirement. -/
theorem rxrPopRetiresSlot : Obligations.RxrPopRetiresSlot := by
  refine ⟨by decide, fun s hs => ?_⟩
  rw [execRxrPop_eq hs]
  refine ⟨fun hi => withRxToken_of_not_initialised _ hi, fun hi hl => withRxToken_of_not_live _ hi hl,
    fun d hi hl hd => ?_⟩
  rw [withRxToken_of_live _ hi hl hd]
  refine ⟨fun ho => ?_, fun ho => ?_⟩
  · rw [if_neg (Owner.ne_sw_of_eq_hw ho)]
    rfl
  · rw [if_pos ho]
    rfl

end Sys2Proof.Machine
end

section
/-! Under the invariant a live token's slot is software-owned, and every access is to a slot and inside its
buffer (R12, R43, R84). -/

namespace Sys2Proof.Machine

variable {s t : State} {i : Instr}

/-! ### What a step can record -/

/-- A next state has no fault, or an operation raised one: of those only the TX and the RX consumes can
raise `SLOT_NOT_SW` (R125). -/
theorem exec_fault_cases (h : exec i s = .next t) :
    t.fault = none ∨ RaisedOnly s t ∨ TxRaised s t ∨ RxRaised s t := by
  cases i with
  | qInit =>
    rcases execQInit_next h with h | ⟨hf, -, -, -, rfl⟩
    · exact .inr (.inl h)
    · exact .inl hf
  | rxrAvail =>
    rcases execRxrAvail_next h with h | ⟨hf, -, -, d, -, ⟨-, a, -, rfl⟩ | ⟨-, rfl⟩⟩
    · exact .inr (.inl h)
    all_goals exact .inl hf
  | txrTransmit len =>
    rcases execTxrTransmit_next h with h | ⟨d, hr, rfl⟩
    · exact .inr (.inr (.inl h))
    · exact .inl hr.fault
  | txtConsume len =>
    rcases execTxtConsume_next h with h | ⟨d, a, hr, -, b, y, -, -, rfl⟩
    · exact .inr (.inr (.inl h))
    · exact .inl hr.fault
  | rxrPop =>
    rcases execRxrPop_next h with h | ⟨d, hr, rfl⟩
    · exact .inr (.inr (.inr h))
    · exact .inl hr.fault
  | rxtConsume =>
    rcases execRxtConsume_next h with h | ⟨d, a, hr, -, rfl⟩
    · exact .inr (.inr (.inr h))
    · exact .inl hr.fault
  | adpReceive task =>
    rcases execAdpReceive_next h with h | ⟨hf, -, -, ⟨dr, dt, -, -, -, -, -, -, rfl⟩ | rfl⟩
    · exact .inr (.inl h)
    all_goals exact .inl hf
  | adpLink task =>
    rcases execAdpLink_next h with h | ⟨hf, -, vals, p, es, b, -, -, rfl⟩
    · exact .inr (.inl h)
    · exact .inl hf
  | phyPoll =>
    rcases execPhyPoll_next h with h | ⟨hf, -, vals, p, es, b, -, -, rfl⟩
    · exact .inr (.inl h)
    · exact .inl hf
  | smiRead reg =>
    rcases execSmiRead_next h with h | ⟨hf, -, v, p, rfl⟩
    · exact .inr (.inl h)
    · exact .inl hf
  | smiWrite reg val =>
    rcases execSmiWrite_next h with h | ⟨hf, -, p, rfl⟩
    · exact .inr (.inl h)
    · exact .inl hf
  | phyReset =>
    rcases execPhyReset_next h with h | ⟨hf, -, p, es, ro, re, -, rfl⟩
    · exact .inr (.inl h)
    · exact .inl hf
  | phyInit =>
    rcases execPhyInit_next h with h | ⟨hf, -, p, es, ro, re, -, rfl⟩
    · exact .inr (.inl h)
    · exact .inl hf
  | txrAvail =>
    obtain ⟨hf, -, d, -, rfl⟩ := execTxrAvail_next h
    exact .inl hf
  | adpTransmit task =>
    obtain ⟨hf, -, ⟨d, -, -, -, rfl⟩ | rfl⟩ := execAdpTransmit_next h
    all_goals exact .inl hf
  | adpCaps =>
    obtain ⟨hf, -, rfl⟩ := execAdpCaps_next h
    exact .inl hf
  | adpHwaddr =>
    obtain ⟨hf, -, rfl⟩ := execAdpHwaddr_next h
    exact .inl hf
  | adpEndpoll =>
    obtain ⟨hf, -, rfl⟩ := execAdpEndpoll_next h
    exact .inl hf
  | dmaTx =>
    obtain ⟨hf, d, a, -, -, -, rfl⟩ := execDmaTx_next h
    exact .inl hf
  | dmaRx =>
    obtain ⟨hf, d, a, -, -, -, -, -, rfl⟩ := execDmaRx_next h
    exact .inl hf
  | irqDeliver =>
    obtain ⟨hf, -, ⟨-, rfl⟩ | ⟨k, -, rfl⟩⟩ := execIrqDeliver_next h
    all_goals exact .inl hf

/-- A live token names a software-owned slot (R84). -/
theorem Ring.TokenOk.owns {r : Ring} {g : Nat} {l : Live} (h : r.TokenOk g) (hl : r.live = some l) :
    r.Owns .sw l.slot := by
  obtain ⟨hslot, hown, -⟩ := h l hl
  rwa [hslot]

/-- A live token's slot is not hardware-owned (R84). -/
theorem Ring.TokenOk.own_ne_hw {r : Ring} {g k n : Nat} {d : Desc} (h : r.TokenOk g) (hl : r.live = some ⟨k, n⟩)
    (hd : r.desc[k]? = some d) : d.own ≠ .hw := by
  rw [(Ring.owns_of_getElem? hd .sw).1 (h.owns hl)]
  decide

theorem fault_ne_slotNotSw_of_none {ring : RingId} {k : Nat} (h : t.fault = none) :
    t.fault ≠ some (.slotNotSw ring k) := by
  rw [h]
  exact nofun

theorem RaisedOnly.fault_ne_slotNotSw (h : RaisedOnly s t) (ring : RingId) (k : Nat) :
    t.fault ≠ some (.slotNotSw ring k) := by
  obtain ⟨-, v, rfl, hv⟩ := h
  exact fun he => hv ring k (Option.some.inj he)

theorem TxRaised.fault_ne_slotNotSw (h : TxRaised s t) (hs : s.TxInv) (ring : RingId) (k : Nat) :
    t.fault ≠ some (.slotNotSw ring k) := fun he => by
  obtain ⟨-, v, rfl, hv⟩ := h
  obtain ⟨hl, d, hd, ho⟩ := hv ring k (Option.some.inj he)
  exact hs.token.own_ne_hw hl hd ho

theorem RxRaised.fault_ne_slotNotSw (h : RxRaised s t) (hs : s.RxInv) (ring : RingId) (k : Nat) :
    t.fault ≠ some (.slotNotSw ring k) := fun he => by
  obtain ⟨-, v, rfl, hv⟩ := h
  obtain ⟨hl, d, hd, ho⟩ := hv ring k (Option.some.inj he)
  exact hs.token.own_ne_hw hl hd ho

/-- Under the invariant no operation records `SLOT_NOT_SW` (R84). -/
theorem exec_fault_ne_slotNotSw (hs : s.Inv) (h : exec i s = .next t) (ring : RingId) (k : Nat) :
    t.fault ≠ some (.slotNotSw ring k) := by
  rcases exec_fault_cases h with h | h | h | h
  · exact fault_ne_slotNotSw_of_none h
  · exact h.fault_ne_slotNotSw ring k
  · exact h.fault_ne_slotNotSw hs.tx ring k
  · exact h.fault_ne_slotNotSw hs.rx ring k

/-- Nor does a turn of a PHY routine, which raises only `SMI_REG_RANGE` (R125). -/
theorem advance_fault_ne_slotNotSw {r : Running} (hf : s.fault = none) (h : advance s r = .next t) (ring : RingId)
    (k : Nat) : t.fault ≠ some (.slotNotSw ring k) := by
  rcases advance_cases hf h with h | ⟨p, es, ro, re, -, rfl⟩
  · exact h.fault_ne_slotNotSw ring k
  · exact fault_ne_slotNotSw_of_none hf

theorem step_fault_ne_slotNotSw (hs : s.Inv) (h : step s = .next t) (ring : RingId) (k : Nat) :
    t.fault ≠ some (.slotNotSw ring k) := by
  obtain ⟨hf, ⟨r, sch, -, h⟩ | ⟨w, oob, rest, i, -, -, h⟩⟩ := step_next h
  · exact advance_fault_ne_slotNotSw (s := s.setSched sch) hf h ring k
  · exact exec_fault_ne_slotNotSw (s := (s.setSched rest).setOob oob) (hs.frame rfl rfl rfl rfl rfl rfl) h ring k

/-! ### What a step can reach -/

/-- The outcome is no stop for an access outside the rings or the buffers (R12, R43). -/
def StaysInside (o : Out) : Prop := o ≠ .fault .noSuchSlot ∧ o ≠ .fault .outsideBuffer

theorem staysInside_next (s : State) : StaysInside (.next s) := ⟨nofun, nofun⟩

theorem staysInside_raise (s : State) (v : Violation) : StaysInside (raise s v) := staysInside_next _

theorem staysInside_ite {c : Prop} [Decidable c] {o o' : Out} (h : c → StaysInside o) (h' : ¬c → StaysInside o') :
    StaysInside (if c then o else o') := by
  split
  next hc => exact h hc
  next hc => exact h' hc

theorem staysInside_swStep {k : Out} (h : StaysInside k) : StaysInside (swStep s k) :=
  staysInside_ite (fun _ => ⟨nofun, nofun⟩) fun _ => staysInside_ite (fun _ => ⟨nofun, nofun⟩) fun _ => h

theorem staysInside_agentStep {k : Out} (h : StaysInside k) : StaysInside (agentStep s k) :=
  staysInside_ite (fun _ => ⟨nofun, nofun⟩) fun _ => h

/-- An access to a slot of the ring. -/
theorem staysInside_withDesc {r : Ring} {addrs : List Addr} {j : Nat} {k : Desc → Out} (hr : r.Shaped addrs)
    (hj : j < addrs.length) (h : ∀ d, r.desc[j]? = some d → StaysInside (k d)) : StaysInside (withDesc r j k) := by
  have hd := List.getElem?_eq_getElem (hr.length_desc.symm ▸ hj)
  rw [withDesc_some hd]
  exact h _ hd

/-- A slot of a ring has a buffer (R44). -/
theorem exists_bufAddr {c : Config} {ring : RingId} {j : Nat} (hj : j < (ringAddrs c ring).length) :
    ∃ a, bufAddr c ring j = some a := by
  cases ring <;> exact ⟨_, List.getElem?_eq_getElem hj⟩

/-- A slot's buffer has any number of bytes up to its size (R44). -/
theorem exists_bufRange {c : Config} {ring : RingId} {j n : Nat} (hj : j < (ringAddrs c ring).length)
    (hn : n ≤ bufSize c ring) : ∃ a, bufRange c ring j n = some a := by
  obtain ⟨a, ha⟩ := exists_bufAddr hj
  exact ⟨a, bufRange_eq_some.2 ⟨hn, ha⟩⟩

/-- An access to the first bytes of a slot's buffer. -/
theorem staysInside_withBuf {c : Config} {ring : RingId} {j n : Nat} {k : Nat → Out}
    (hj : j < (ringAddrs c ring).length) (hn : n ≤ bufSize c ring) (h : ∀ a, StaysInside (k a)) :
    StaysInside (withBuf c ring j n k) := by
  obtain ⟨a, ha⟩ := exists_bufRange hj hn
  rw [withBuf_some ha]
  exact h a

/-- The token checks of a TX consume look at the cursor's slot, which a live token names (R32). -/
theorem staysInside_withTxToken {op : FaultOp} {len : Half} {k : Nat → Desc → Out} (hs : s.TxInv)
    (h : s.oob.tok.slot < s.cfg.nTx → len.toNat ≤ s.cfg.txBufSize → ∀ d, StaysInside (k s.oob.tok.slot d)) :
    StaysInside (withTxToken op len s k) := by
  refine staysInside_ite (fun hl => ?_) fun _ => staysInside_raise _ _
  obtain ⟨hslot, -, -⟩ := hs.token _ (isLive_iff.1 hl).2
  have hlt : s.oob.tok.slot < s.cfg.nTx := hslot.trans_lt hs.shaped.next_lt
  refine staysInside_withDesc hs.shaped hlt fun d _ => ?_
  refine staysInside_ite (fun _ => ?_) fun _ => staysInside_raise _ _
  exact staysInside_ite (fun hlen => h hlt hlen.2 d) fun _ => staysInside_raise _ _

/-- The token checks of an RX consume, likewise; a software-owned slot holds a frame of its buffer (R23). -/
theorem staysInside_withRxToken {op : FaultOp} {k : Nat → Desc → Out} (hs : s.RxInv)
    (h : s.oob.tok.slot < s.cfg.nRx → ∀ d : Desc, d.len ≤ s.cfg.rxBufSize → StaysInside (k s.oob.tok.slot d)) :
    StaysInside (withRxToken op s k) := by
  refine staysInside_ite (fun hi => ?_) fun _ => staysInside_raise _ _
  refine staysInside_ite (fun hl => ?_) fun _ => staysInside_raise _ _
  obtain ⟨hslot, -, -⟩ := hs.token _ (isLive_iff.1 hl).2
  have hlt : s.oob.tok.slot < s.cfg.nRx := hslot.trans_lt hs.shaped.next_lt
  refine staysInside_withDesc hs.shaped hlt fun d hd => ?_
  refine staysInside_ite (fun ho => ?_) fun _ => staysInside_raise _ _
  exact h hlt d (hs.lens hi d (List.mem_of_getElem? hd) ho).2

theorem staysInside_smiReadStep {reg : Nat} {k : Half → State → Out} (h : ∀ v u, StaysInside (k v u)) :
    StaysInside (smiReadStep s reg k) :=
  staysInside_ite (fun _ => h _ _) fun _ => staysInside_raise _ _

theorem staysInside_smiWriteStep {reg : Nat} {val : Half} {k : State → Out} (h : ∀ u, StaysInside (k u)) :
    StaysInside (smiWriteStep s reg val k) :=
  staysInside_ite (fun _ => h _) fun _ => staysInside_raise _ _

theorem staysInside_finishNode (id : RoutineId) (n : Nat) (nd : RNode) (held : List Half) (s : State) :
    StaysInside (finishNode id n nd held s) := by
  rw [finishNode_eq]
  exact staysInside_next _

/-- A turn of a PHY routine reaches no ring and no buffer (R110). -/
theorem staysInside_advance (s : State) (r : Running) : StaysInside (advance s r) := by
  unfold advance
  dsimp only
  split
  · exact staysInside_next _
  · split
    · exact staysInside_smiReadStep fun _ _ => staysInside_finishNode ..
    · exact staysInside_smiWriteStep fun _ => staysInside_finishNode ..

theorem staysInside_pollLink {k : Bool → PhyState → List Event → Out} (h : ∀ b p es, StaysInside (k b p es)) :
    StaysInside (pollLink s k) := by
  unfold pollLink
  dsimp only
  split
  · exact staysInside_raise _ _
  · exact h _ _ _

/-- Under the invariant every operation stays inside the rings and the buffers. -/
theorem staysInside_exec (hs : s.Inv) (i : Instr) : StaysInside (exec i s) := by
  have htx := hs.tx.shaped
  have hrx := hs.rx.shaped
  cases i with
  | qInit =>
    refine staysInside_swStep (staysInside_ite (fun _ => staysInside_raise _ _) fun _ => ?_)
    split
    · exact staysInside_raise _ _
    · exact staysInside_next _
  | txrAvail => exact staysInside_swStep (staysInside_withDesc htx htx.next_lt fun _ _ => staysInside_next _)
  | txrTransmit len => exact staysInside_swStep (staysInside_withTxToken hs.tx fun _ _ _ => staysInside_next _)
  | txtConsume len =>
    exact staysInside_swStep (staysInside_withTxToken hs.tx fun hj hlen _ =>
      staysInside_withBuf (ring := .tx) hj hlen fun _ => staysInside_next _)
  | rxrAvail =>
    refine staysInside_swStep (staysInside_ite (fun hi => ?_) fun _ => staysInside_raise _ _)
    refine staysInside_withDesc hrx hrx.next_lt fun d hd => staysInside_ite (fun ho => ?_) fun _ => staysInside_next _
    have hlen := (hs.rx.lens hi d (List.mem_of_getElem? hd) ho).2
    exact staysInside_withBuf (ring := .rx) hrx.next_lt hlen fun _ => staysInside_next _
  | rxrPop => exact staysInside_swStep (staysInside_withRxToken hs.rx fun _ _ _ => staysInside_next _)
  | rxtConsume =>
    exact staysInside_swStep (staysInside_withRxToken hs.rx fun hj _ hlen =>
      staysInside_withBuf (ring := .rx) hj hlen fun _ => staysInside_next _)
  | adpReceive task =>
    refine staysInside_swStep (staysInside_ite (fun _ => ?_) fun _ => staysInside_raise _ _)
    refine staysInside_withDesc hrx hrx.next_lt fun _ _ => staysInside_withDesc htx htx.next_lt fun _ _ => ?_
    exact staysInside_ite (fun _ => staysInside_next _) fun _ => staysInside_next _
  | adpTransmit task =>
    refine staysInside_swStep (staysInside_withDesc htx htx.next_lt fun _ _ => ?_)
    exact staysInside_ite (fun _ => staysInside_next _) fun _ => staysInside_next _
  | adpLink | phyPoll => exact staysInside_swStep (staysInside_pollLink fun _ _ _ => staysInside_next _)
  | adpCaps | adpHwaddr | adpEndpoll => exact staysInside_swStep (staysInside_next _)
  | smiRead reg => exact staysInside_swStep (staysInside_smiReadStep fun _ _ => staysInside_next _)
  | smiWrite reg val => exact staysInside_swStep (staysInside_smiWriteStep fun _ => staysInside_next _)
  | phyReset | phyInit => exact staysInside_swStep (staysInside_advance _ _)
  | dmaTx =>
    refine staysInside_agentStep (staysInside_withDesc htx htx.hw_lt fun d hd => ?_)
    refine staysInside_ite (fun ho => ?_) fun _ => ⟨nofun, nofun⟩
    have hlen := (hs.tx.lens d (List.mem_of_getElem? hd) ho).2
    exact staysInside_withBuf (ring := .tx) htx.hw_lt hlen fun _ => staysInside_next _
  | dmaRx =>
    refine staysInside_agentStep (staysInside_withDesc hrx hrx.hw_lt fun d hd => ?_)
    refine staysInside_ite (fun _ => ?_) fun _ => ⟨nofun, nofun⟩
    refine staysInside_ite (fun hf => ?_) fun _ => ⟨nofun, nofun⟩
    exact staysInside_withBuf (ring := .rx) hrx.hw_lt (of_decide_eq_true hf).2 fun _ => staysInside_next _
  | irqDeliver =>
    refine staysInside_agentStep (staysInside_ite (fun _ => ?_) fun _ => ⟨nofun, nofun⟩)
    split <;> exact staysInside_next _

theorem staysInside_routineTurn (s : State) : StaysInside (routineTurn s) := by
  refine staysInside_ite (fun _ => ⟨nofun, nofun⟩) fun _ => ?_
  split
  · exact staysInside_advance _ _
  · exact ⟨nofun, nofun⟩

/-- Under the invariant every step stays inside the rings and the buffers. -/
theorem staysInside_step (hs : s.Inv) : StaysInside (step s) := by
  refine staysInside_ite (fun _ => ⟨nofun, nofun⟩) fun _ => ?_
  split
  · exact staysInside_ite (fun _ => staysInside_routineTurn _) fun _ => ⟨nofun, nofun⟩
  · exact staysInside_routineTurn _
  next w oob rest _ =>
    split
    · exact ⟨nofun, nofun⟩
    · have hs' : ((s.setSched rest).setOob oob).Inv := hs.frame rfl rfl rfl rfl rfl rfl
      exact staysInside_ite (fun _ => staysInside_routineTurn _) fun _ => staysInside_exec hs' _

/-- Settles O50: the invariant gives a live token's slot to software and keeps every access inside. -/
theorem slotNotSwIsUnreachable : Obligations.SlotNotSwIsUnreachable := fun _ hs =>
  ⟨fun _ => hs.tx.token.owns, fun _ => hs.rx.token.owns, fun _ ring k h => step_fault_ne_slotNotSw hs h ring k,
    staysInside_step hs⟩

end Sys2Proof.Machine
end

section
/-! The capacity law (R83): `N_TX` submissions fill a free TX ring, and one sent frame makes room for one more. -/

namespace Sys2Proof.Machine

variable {s t u v : State} {task : TaskId} {len : Half} {f : TxFun} {d : Desc}

/-! ### The operations of a `transmit` where nothing raises (R74, R88, R95, R116) -/

/-- `s` with a token issued for the TX cursor's slot, and returned (R95). -/
def State.issueTx (s : State) : State :=
  { s with tx := s.tx.issue s.tokGen, tokGen := s.tokGen + 1, ret := .token (some ⟨.tx, s.tx.next, s.tokGen⟩) }

/-- The state in which `transmit` consumes the token it got: the token and `F` are the operands (R74). -/
def State.issueTxTo (s : State) (f : TxFun) : State :=
  s.issueTx.setOob { s.issueTx.oob with tok := ⟨.tx, s.tx.next, s.tokGen⟩, txFun := f }

theorem execAdpTransmit_of_ready (hs : s.SwReady) (hl : s.tx.live = none) (hd : s.tx.desc[s.tx.next]? = some d)
    (ho : d.own = .sw) : exec (.adpTransmit task) s = .next s.issueTx :=
  ((swStep_of_ready hs _).trans (withDesc_some hd)).trans (if_pos ⟨hl, ho⟩)

theorem execAdpTransmit_of_hw (hs : s.SwReady) (hd : s.tx.desc[s.tx.next]? = some d) (ho : d.own = .hw) :
    exec (.adpTransmit task) s = .next ((s.setWaker (some task)).setRet (.token none)) :=
  ((swStep_of_ready hs _).trans (withDesc_some hd)).trans (if_neg fun h => Owner.ne_sw_of_eq_hw ho h.2)

theorem execTxtConsume_of_ready {a : Nat} {b : List Byte} {y : CallerValue} (h : TxReady s len d)
    (ha : bufRange s.cfg .tx s.oob.tok.slot len.toNat = some a)
    (hout : applyTxFun s.oob.txFun (s.mem.readBytes a len.toNat) = (b, y)) :
    exec (.txtConsume len) s =
      .next (((s.setMem (s.mem.writeBytes a b)).setTx (s.tx.submit s.cfg.nTx s.oob.tok.slot d len)).setRet
        (.caller y)) := by
  obtain rfl : _ = b := congrArg Prod.fst hout
  obtain rfl : _ = y := congrArg Prod.snd hout
  exact (swStep_of_ready ⟨h.fault, h.routine⟩ _).trans ((withTxToken_of_ready _ h).trans (withBuf_some ha))

theorem execDmaTx_of_hw {a : Nat} (hf : s.fault = none) (hd : s.tx.desc[s.tx.hw]? = some d) (ho : d.own = .hw)
    (ha : bufRange s.cfg .tx s.tx.hw d.len = some a) :
    exec .dmaTx s = .next { s with
      hist := s.hist ++ [.sent (s.mem.readBytes a d.len)]
      tx := s.tx.handBack s.cfg.nTx { d with status := drawnStatus s }
      irqPending := true } :=
  (agentStep_ready hf).trans ((withDesc_some hd).trans ((if_pos ho).trans (withBuf_some ha)))

theorem execTxrAvail_of_owns {o : Owner} (hs : s.SwReady) (ho : s.tx.Owns o s.tx.next) :
    exec .txrAvail s = .next (s.setRet (.txSlot (if o = .sw then some s.tx.next else none))) := by
  obtain ⟨d, hd, rfl⟩ := Option.map_eq_some_iff.1 ho
  exact execTxrAvail_of_desc hs hd

theorem transmitPseudo_of_token {tok : Token} (hu : exec (.adpTransmit task) s = .next u)
    (hr : u.ret = .token (some tok))
    (hv : exec (.txtConsume len) (u.setOob { u.oob with tok := tok, txFun := f }) = .next v) (hf : v.fault = none) :
    transmitPseudo task len f s = .next (v.setRet (.flag true)) := by
  simp [transmitPseudo, hu, hr, hv, hf]

theorem transmitPseudo_of_no_token (hu : exec (.adpTransmit task) s = .next u) (hr : u.ret = .token none) :
    transmitPseudo task len f s = .next (u.setRet (.flag false)) := by
  simp [transmitPseudo, hu, hr]

/-! ### What a hand-off does to the hardware-owned slots (R21) -/

theorem Ring.owns_submit {r : Ring} {n i j : Nat} (hi : i < r.desc.length) :
    (r.submit n i d len).Owns .hw j ↔ r.Owns .hw j ∨ i = j := by
  rw [Ring.owns_of_desc_set (r := r) (i := i) rfl hi]
  by_cases h : j = i
  · simp [h]
  · simp [h, Ne.symm h]

theorem Ring.owns_handBack {r : Ring} {n j : Nat} (hhw : r.hw < r.desc.length) :
    (r.handBack n d).Owns .hw j ↔ j ≠ r.hw ∧ r.Owns .hw j := by
  rw [Ring.owns_of_desc_set (r := r) (i := r.hw) rfl hhw]
  by_cases h : j = r.hw <;> simp [h]

/-! ### Runs of submissions -/

/-- `SW` is between operations and no TX token is live: it may call `transmit` (R74). -/
structure State.Idle (s : State) : Prop where
  inv : s.Inv
  ready : s.SwReady
  live : s.tx.live = none

/-- `t` is `s` after `n` submissions in a row: the cursor has moved on by `n`, the slots it passed are
hardware-owned, and the last `transmit` returned `true`. -/
structure Submitted (n : Nat) (s t : State) : Prop where
  idle : t.Idle
  ret : t.ret = if n = 0 then s.ret else .flag true
  waker : t.waker = s.waker
  cfg : t.cfg = s.cfg
  next : t.tx.next = (s.tx.next + n) % s.cfg.nTx
  owns : ∀ j, t.tx.Owns .hw j ↔ s.tx.Owns .hw j ∨ ∃ i < n, (s.tx.next + i) % s.cfg.nTx = j

theorem Submitted.refl (hs : s.Idle) : Submitted 0 s s where
  idle := hs
  ret := rfl
  waker := rfl
  cfg := rfl
  next := (Nat.mod_eq_of_lt hs.inv.tx.shaped.next_lt).symm
  owns := by simp

/-- Submissions follow one another around the ring. -/
theorem Submitted.trans {m n : Nat} (h : Submitted m s t) (h' : Submitted n t u) : Submitted (m + n) s u where
  idle := h'.idle
  ret := by rw [h'.ret, h.ret]; by_cases hn : n = 0 <;> simp [hn]
  waker := h'.waker.trans h.waker
  cfg := h'.cfg.trans h.cfg
  next := by rw [h'.next, h.next, h.cfg, Nat.mod_add_mod, Nat.add_assoc]
  owns j := by
    rw [h'.owns, h.owns, or_assoc]
    refine or_congr_right ⟨?_, ?_⟩
    · rintro (⟨i, hi, rfl⟩ | ⟨i, hi, rfl⟩)
      · exact ⟨i, by omega, rfl⟩
      · exact ⟨m + i, by omega, by rw [h.next, h.cfg, Nat.mod_add_mod, Nat.add_assoc]⟩
    · rintro ⟨i, hi, rfl⟩
      by_cases him : i < m
      · exact .inl ⟨i, him, rfl⟩
      · refine .inr ⟨i - m, by omega, ?_⟩
        rw [h.next, h.cfg, Nat.mod_add_mod, Nat.add_assoc, show m + (i - m) = i by omega]

/-- A slot of the ring that hardware does not own is software's (R14). -/
theorem Ring.Shaped.owns_sw {r : Ring} {addrs : List Addr} {j : Nat} (h : r.Shaped addrs) (hj : j < addrs.length)
    (hfree : ¬r.Owns .hw j) : r.Owns .sw j := by
  obtain ⟨o, ho⟩ := Ring.exists_owner (h.length_desc.symm ▸ hj)
  cases o with
  | sw => exact ho
  | hw => exact absurd ho hfree

/-- A `transmit` with a legal length succeeds where the cursor's slot is free (R74, R78). -/
theorem exists_transmitPseudo (hs : s.Idle) (hfree : ¬s.tx.Owns .hw s.tx.next) (hpos : 1 ≤ len.toNat)
    (hle : len.toNat ≤ s.cfg.txBufSize) : ∃ t, transmitPseudo task len f s = .next t ∧ Submitted 1 s t := by
  have hshape := hs.inv.tx.shaped
  have hlt := hshape.next_lt
  obtain ⟨d, hd, ho⟩ := Option.map_eq_some_iff.1 (hshape.owns_sw hlt hfree)
  obtain ⟨a, ha⟩ := exists_bufRange (ring := .tx) hlt hle
  have hu := execAdpTransmit_of_ready (task := task) hs.ready hs.live hd ho
  have hready : TxReady (s.issueTxTo f) len d :=
    ⟨hs.ready.1, hs.ready.2, hd, rfl, rfl, ho, hpos, hle⟩
  rcases hout : applyTxFun f (s.mem.readBytes a len.toNat) with ⟨b, y⟩
  have hv := execTxtConsume_of_ready hready ha hout
  have hinv := exec_keeps_inv (s := s.issueTxTo f) ((exec_keeps_inv hs.inv hu).frame rfl rfl rfl rfl rfl rfl) hv
  refine ⟨_, transmitPseudo_of_token hu rfl hv hs.ready.1, ?_⟩
  exact
    { idle := ⟨hinv.frame rfl rfl rfl rfl rfl rfl, hs.ready, rfl⟩
      ret := rfl
      waker := rfl
      cfg := rfl
      next := rfl
      owns := fun j => by
        refine (Ring.owns_submit (r := s.tx) (i := s.tx.next) (hshape.length_desc.symm ▸ hlt)).trans ?_
        simp [Nat.mod_eq_of_lt hlt] }

/-- As long as the slots from the cursor on are free, submissions succeed. -/
theorem exists_submitMany {n : Nat} (hs : s.Idle) (hn : n ≤ s.cfg.nTx)
    (hfree : ∀ i < n, ¬s.tx.Owns .hw ((s.tx.next + i) % s.cfg.nTx)) (hpos : 1 ≤ len.toNat)
    (hle : len.toNat ≤ s.cfg.txBufSize) : ∃ t, submitMany task len f n s = .next t ∧ Submitted n s t := by
  induction n generalizing s with
  | zero => exact ⟨s, rfl, .refl hs⟩
  | succ n ih =>
    have hlt := hs.inv.tx.shaped.next_lt
    have hcur : ¬s.tx.Owns .hw s.tx.next := by
      have h0 := hfree 0 n.succ_pos
      rwa [Nat.add_zero, Nat.mod_eq_of_lt hlt] at h0
    obtain ⟨t, ht, hst⟩ := exists_transmitPseudo (task := task) (f := f) hs hcur hpos hle
    have hfree' : ∀ i < n, ¬t.tx.Owns .hw ((t.tx.next + i) % t.cfg.nTx) := fun i hi => by
      have hshift : (t.tx.next + i) % t.cfg.nTx = (s.tx.next + (1 + i)) % s.cfg.nTx := by
        rw [hst.next, hst.cfg, Nat.mod_add_mod, Nat.add_assoc]
      rw [hshift, hst.owns, not_or]
      refine ⟨hfree _ (by omega), fun ⟨k, hk, he⟩ => ?_⟩
      have := (circular_inj (by omega) (by omega)).1 he
      omega
    obtain ⟨u, hu, htu⟩ := ih hst.idle (by rw [hst.cfg]; omega) hfree' (by rw [hst.cfg]; exact hle)
    have hsu := hst.trans htu
    rw [Nat.add_comm] at hsu
    refine ⟨u, ?_, hsu⟩
    have hret : t.ret = .flag true := hst.ret
    rw [submitMany, ht]
    exact (if_pos hret).trans hu

/-! ### A full ring, and one sent frame -/

/-- Every slot of the TX ring is hardware-owned. -/
def State.TxFull (s : State) : Prop := ∀ j < s.cfg.nTx, s.tx.Owns .hw j

/-- An interval that is all of the ring ends where it begins. -/
theorem Ring.OwnedInterval.ends_meet {r : Ring} {n a b : Nat} {o : Owner} (h : r.OwnedInterval n o a b) (ha : a < n)
    (hall : ∀ j < n, r.Owns o j) : b = a := by
  obtain ⟨k, hk, rfl, howns⟩ := Ring.ownedInterval_iff.1 h
  have hkn : k = n := by
    by_contra hne
    have := (howns k (by omega)).1 (hall _ (Nat.mod_lt _ (by omega)))
    omega
  rw [hkn, Nat.add_mod_right, Nat.mod_eq_of_lt ha]

/-- `N_TX` submissions fill the ring and bring the cursor around. -/
theorem Submitted.full (hs : s.Idle) (h : Submitted s.cfg.nTx s t) : t.TxFull ∧ t.tx.next = s.tx.next := by
  have hlt := hs.inv.tx.shaped.next_lt
  refine ⟨fun j hj => (h.owns j).2 (.inr (circular_surj hlt (h.cfg ▸ hj))), ?_⟩
  rw [h.next, Nat.add_mod_right, Nat.mod_eq_of_lt hlt]

/-- A full ring's check finds no slot (R76). -/
theorem State.TxFull.txrAvail_none (h : s.TxFull) (hs : s.Idle) : exec .txrAvail s = .next (s.setRet (.txSlot none)) :=
  execTxrAvail_of_owns hs.ready (h _ hs.inv.tx.shaped.next_lt)

/-- On a full ring `transmit` returns `false` and registers its task (R74, R95). -/
theorem State.TxFull.transmit_refused (h : s.TxFull) (hs : s.Idle) :
    transmitPseudo task len f s = .next (((s.setWaker (some task)).setRet (.token none)).setRet (.flag false)) := by
  obtain ⟨d, hd, ho⟩ := Option.map_eq_some_iff.1 (h _ hs.inv.tx.shaped.next_lt)
  exact transmitPseudo_of_no_token (execAdpTransmit_of_hw hs.ready hd ho) rfl

/-- `u` is `t` after DMA_TX: exactly the slot at the hardware cursor is handed back (R116). -/
structure Sent (t u : State) : Prop where
  idle : u.Idle
  waker : u.waker = t.waker
  cfg : u.cfg = t.cfg
  next : u.tx.next = t.tx.next
  owns : ∀ j, u.tx.Owns .hw j ↔ j ≠ t.tx.hw ∧ t.tx.Owns .hw j

/-- TXDMA can send the frame of a hardware-owned slot at its cursor (R116). -/
theorem exists_dmaTx (ht : t.Idle) (hown : t.tx.Owns .hw t.tx.hw) : ∃ u, exec .dmaTx t = .next u ∧ Sent t u := by
  have hshape := ht.inv.tx.shaped
  obtain ⟨d, hd, ho⟩ := Option.map_eq_some_iff.1 hown
  obtain ⟨a, ha⟩ := exists_bufRange (ring := .tx) hshape.hw_lt (ht.inv.tx.lens d (List.mem_of_getElem? hd) ho).2
  have hu := execDmaTx_of_hw ht.ready.1 hd ho ha
  refine ⟨_, hu, ⟨exec_keeps_inv ht.inv hu, ht.ready, ht.live⟩, rfl, rfl, rfl, fun j => ?_⟩
  exact Ring.owns_handBack (hshape.length_desc.symm ▸ hshape.hw_lt)

/-- On a full ring the cursors meet, so TXDMA hands back the slot at the software cursor (R28). -/
theorem Sent.not_owns_next (h : Sent t u) (ht : t.Idle) (hfull : t.TxFull) : ¬u.tx.Owns .hw u.tx.next := by
  rw [h.owns, h.next, ht.inv.tx.flight.ends_meet ht.inv.tx.shaped.hw_lt hfull]
  exact fun hne => hne.1 rfl

/-- One submission fills again the ring that DMA_TX took one slot from. -/
theorem Sent.full_again (h : Sent t u) (ht : t.Idle) (hfull : t.TxFull) (h' : Submitted 1 u v) : v.TxFull := by
  intro j hj
  have hcfg : v.cfg.nTx = t.cfg.nTx := by rw [h'.cfg, h.cfg]
  have hmeet := ht.inv.tx.flight.ends_meet ht.inv.tx.shaped.hw_lt hfull
  rw [h'.owns, h.owns]
  by_cases hjn : j = t.tx.hw
  · refine .inr ⟨0, Nat.one_pos, ?_⟩
    rw [Nat.add_zero, Nat.mod_eq_of_lt h.idle.inv.tx.shaped.next_lt, h.next, hmeet, hjn]
  · exact .inl ⟨hjn, hfull j (hcfg ▸ hj)⟩

/-- Settles O59: `N_TX` submissions go around the ring and fill it, DMA_TX frees the slot at the cursor,
and one submission fills the ring again. -/
theorem ringTakesExactlyItsDepth : Obligations.RingTakesExactlyItsDepth := by
  intro s task len f hinv hready hlive hsw hpos hle
  have hs : s.Idle := ⟨hinv, hready, hlive⟩
  have hslots : ∀ i < s.cfg.nTx, ¬s.tx.Owns .hw ((s.tx.next + i) % s.cfg.nTx) := fun i hi ho =>
    absurd (ho.unique (hsw _ (Nat.mod_lt _ (by omega)))) (by decide)
  obtain ⟨t, ht, hst⟩ := exists_submitMany (task := task) (f := f) hs le_rfl hslots hpos hle
  obtain ⟨hfull, hnext⟩ := hst.full hs
  have hshape := hst.idle.inv.tx.shaped
  obtain ⟨u, hu, htu⟩ := exists_dmaTx hst.idle (hfull _ hshape.hw_lt)
  have hfree := htu.not_owns_next hst.idle hfull
  have hsw' := htu.idle.inv.tx.shaped.owns_sw htu.idle.inv.tx.shaped.next_lt hfree
  have hcfg : u.cfg = s.cfg := htu.cfg.trans hst.cfg
  obtain ⟨v, hv, huv⟩ := exists_transmitPseudo (task := task) (f := f) htu.idle hfree hpos (hcfg ▸ hle)
  have hfull' := htu.full_again hst.idle hfull huv
  have hret : t.ret = .flag true := hst.ret.trans (if_neg (Nat.ne_of_gt (Config.legal s.cfg).nTx_pos))
  exact ⟨t, _, _, u, _, v, _, ht, hret, hst.waker, hfull.txrAvail_none hst.idle, rfl,
    hfull.transmit_refused hst.idle, rfl, rfl, hu, execTxrAvail_of_owns htu.idle.ready hsw',
    congrArg (fun k => Ret.txSlot (some k)) (htu.next.trans hnext), hv, huv.ret,
    huv.waker.trans (htu.waker.trans hst.waker), hfull'.txrAvail_none huv.idle, rfl⟩

end Sys2Proof.Machine
end

section
/-! The token consumes: their checks in order, what each does where none raises, what TXT_CONSUME leaves
alone, and the single use of a token (R88 to R90). -/

namespace Sys2Proof.Machine

variable {s t : State} {i j : Instr} {len : Half}

/-! ### The checks in order and the effect (R88, R89, R129) -/

theorem execTxtConsume_eq (hs : s.SwReady) (len : Half) :
    exec (.txtConsume len) s = withTxToken .txtConsume len s fun i d =>
      withBuf s.cfg .tx i len.toNat fun a =>
        let out := applyTxFun s.oob.txFun (s.mem.readBytes a len.toNat)
        .next (((s.setMem (s.mem.writeBytes a out.1)).setTx (s.tx.submit s.cfg.nTx i d len)).setRet (.caller out.2)) :=
  swStep_of_ready hs _

theorem execRxtConsume_eq (hs : s.SwReady) :
    exec .rxtConsume s = withRxToken .rxtConsume s fun i d =>
      withBuf s.cfg .rx i d.len fun a =>
        let v := s.mem.readBytes a d.len
        .next (((s.emit [.delivered i v]).setRx (s.rx.retire s.cfg.nRx i d)).setRet
          (.caller (applyRxFun s.oob.rxFun v))) :=
  swStep_of_ready hs _

/-- Settles O15: the token checks in order, then the write of the slot's buffer and the submission. -/
theorem txtConsumeWritesAndSubmits : Obligations.TxtConsumeWritesAndSubmits := by
  refine ⟨fun len => ?_, fun s len hs => ⟨fun hl => ?_, fun d hl hd => ⟨fun ho => ?_, fun ho hlen => ?_,
    fun a ho hpos hle ha => ?_⟩⟩⟩
  · have hword : encode (.txtConsume len) = 0x14000000 ||| len.setWidth 32 := layWord_eq_or 0x14 0 len (Nat.zero_le _)
    rw [← hword, decodeOfEncodeIsInstr _ rfl]
  · exact (execTxtConsume_eq hs len).trans (withTxToken_of_not_live _ hl)
  · rw [execTxtConsume_eq hs, withTxToken_of_live _ hl hd, if_neg (Owner.ne_sw_of_eq_hw ho)]
    rfl
  · rw [execTxtConsume_eq hs, withTxToken_of_live _ hl hd, if_pos ho, if_neg hlen]
    rfl
  · have hready : TxReady s len d := ⟨hs.1, hs.2, hd, hl.1, hl.2, ho, hpos, hle⟩
    exact execTxtConsume_of_ready hready (bufRange_eq_some.2 ⟨hle, ha⟩) rfl

/-- Settles O16: the token checks in order, then the delivery of the received bytes and the retirement. -/
theorem rxtConsumeDeliversAndRetires : Obligations.RxtConsumeDeliversAndRetires := by
  refine ⟨by decide, fun s hs => ?_⟩
  rw [execRxtConsume_eq hs]
  refine ⟨fun hi => withRxToken_of_not_initialised _ hi, fun hi hl => withRxToken_of_not_live _ hi hl,
    fun d hi hl hd => ?_⟩
  rw [withRxToken_of_live _ hi hl hd]
  refine ⟨fun ho => ?_, fun a ho hle ha => ?_⟩
  · rw [if_neg (Owner.ne_sw_of_eq_hw ho)]
    rfl
  · rw [if_pos ho, withBuf_some (bufRange_eq_some.2 ⟨hle, ha⟩)]
    rfl

/-! ### What TXT_CONSUME leaves alone -/

/-- Replacing an element by one that `p` does not tell from it leaves `p` of every element. -/
theorem map_getElem?_set {α β : Type} {l : List α} {n : Nat} {a b : α} {p : α → β} (ha : l[n]? = some a)
    (hp : p b = p a) (k : Nat) : ((l.set n b)[k]?).map p = (l[k]?).map p := by
  obtain ⟨hn, rfl⟩ := List.getElem?_eq_some_iff.1 ha
  rw [← List.getElem?_map, List.map_set, hp, ← List.map_set, List.set_getElem_self, List.getElem?_map]

/-- Settles O40: a raise writes the fault only, and a submission writes the slot's first bytes, its length
and its flag. -/
theorem frameOfTxtConsume : Obligations.FrameOfTxtConsume := by
  intro len s t h
  rcases execTxtConsume_next h with ⟨-, v, rfl, -⟩ | ⟨d, a, hr, ha, b, y, -, hlen, rfl⟩
  · exact ⟨fun _ _ _ _ => rfl, rfl, rfl, fun _ _ => rfl, fun _ => rfl⟩
  · refine ⟨fun a' ha' x hx => ?_, rfl, rfl, fun k hk => ?_, map_getElem?_set hr.desc rfl⟩
    · obtain rfl : a = a' := Option.some.inj (ha.symm.trans ha')
      exact Memory.read_writeBytes_outside s.mem b (hlen.symm ▸ hx)
    · exact List.getElem?_set_ne (Ne.symm hk)

/-! ### Single use (R90) -/

/-- `SW` may issue an operation, Q_INIT has run, and the ring of the token operand has no live token. -/
structure State.TokenSpent (s : State) : Prop where
  ready : s.SwReady
  initialised : s.initialised = true
  live : (s.ring s.oob.tok.ring).live = none

/-- A spent token is not the live token of the ring it names, and a token is never that of another ring. -/
theorem State.TokenSpent.not_liveOn (h : s.TokenSpent) (ring : RingId) : ¬s.LiveOn ring := by
  rintro ⟨rfl, hl⟩
  rw [h.live] at hl
  cases hl

/-- Each of the four consuming operations faults on a spent token (R78, R79, R88, R89). -/
theorem State.TokenSpent.exec_consume (h : s.TokenSpent)
    (hj : (∃ len, j = .txrTransmit len ∨ j = .txtConsume len) ∨ j = .rxrPop ∨ j = .rxtConsume) :
    ∃ op, exec j s = raise s (.noLiveToken op s.oob.tok) := by
  have htx : ¬s.LiveTx := h.not_liveOn .tx
  have hrx : ¬s.LiveRx := h.not_liveOn .rx
  rcases hj with ⟨len, rfl | rfl⟩ | rfl | rfl
  · exact ⟨_, (execTxrTransmit_eq h.ready len).trans (withTxToken_of_not_live _ htx)⟩
  · exact ⟨_, (execTxtConsume_eq h.ready len).trans (withTxToken_of_not_live _ htx)⟩
  · exact ⟨_, (execRxrPop_eq h.ready).trans (withRxToken_of_not_live _ h.initialised hrx)⟩
  · exact ⟨_, (execRxtConsume_eq h.ready).trans (withRxToken_of_not_live _ h.initialised hrx)⟩

theorem TxRaised.fault_ne_none (h : TxRaised s t) : t.fault ≠ none := by
  obtain ⟨-, v, rfl, -⟩ := h
  exact nofun

theorem RxRaised.fault_ne_none (h : RxRaised s t) : t.fault ≠ none := by
  obtain ⟨-, v, rfl, -⟩ := h
  exact nofun

theorem State.TokenSpent.of_ring {ring : RingId} (hs : s.SwReady) (hi : s.initialised = true)
    (hr : s.oob.tok.ring = ring) (hl : (s.ring ring).live = none) : s.TokenSpent :=
  ⟨hs, hi, hr.symm ▸ hl⟩

/-- A consume that does not fault ends its token's life, and ADP_ENDPOLL that of both rings' tokens (R100). -/
theorem exec_spends_token
    (hi : (∃ len, i = .txrTransmit len ∨ i = .txtConsume len) ∨ i = .rxrPop ∨ i = .rxtConsume ∨ i = .adpEndpoll)
    (hinit : s.initialised = true) (h : exec i s = .next t) (hf : t.fault = none) :
    t.TokenSpent ∧ t.oob = s.oob := by
  refine ⟨?_, (exec_effect h).fixed.2.2⟩
  rcases hi with ⟨len, rfl | rfl⟩ | rfl | rfl | rfl
  · rcases execTxrTransmit_next h with hr | ⟨d, hr, rfl⟩
    · exact absurd hf hr.fault_ne_none
    · exact .of_ring ⟨hr.fault, hr.routine⟩ hinit hr.ring rfl
  · rcases execTxtConsume_next h with hr | ⟨d, a, hr, -, b, y, -, -, rfl⟩
    · exact absurd hf hr.fault_ne_none
    · exact .of_ring ⟨hr.fault, hr.routine⟩ hinit hr.ring rfl
  · rcases execRxrPop_next h with hr | ⟨d, hr, rfl⟩
    · exact absurd hf hr.fault_ne_none
    · exact .of_ring ⟨hr.fault, hr.routine⟩ hinit hr.ring rfl
  · rcases execRxtConsume_next h with hr | ⟨d, a, hr, -, rfl⟩
    · exact absurd hf hr.fault_ne_none
    · exact .of_ring ⟨hr.fault, hr.routine⟩ hinit hr.ring rfl
  · obtain ⟨hf', hr, rfl⟩ := execAdpEndpoll_next h
    refine .of_ring (ring := s.oob.tok.ring) ⟨hf', hr⟩ hinit rfl ?_
    cases s.oob.tok.ring <;> rfl

/-- Settles O54: the first operation spends the token, and a consume of a spent token faults. -/
theorem secondConsumeFaults : Obligations.SecondConsumeFaults := by
  intro s t i j hi hj hinit h hf
  obtain ⟨hspent, hoob⟩ := exec_spends_token hi hinit h hf
  rw [← hoob]
  exact hspent.exec_consume hj

/-! ### Transmit and send (R74, R88, R116) -/

/-- Settles O57: the consume writes `F`'s bytes to the slot at both cursors, and DMA_TX reads them back. -/
theorem transmittedBytesAreSent : Obligations.TransmittedBytesAreSent := by
  intro s task len f a hinv hready hlive hmeet hown hpos hle ha
  obtain ⟨d, hd, ho⟩ := Option.map_eq_some_iff.1 hown
  have hrange : bufRange s.cfg .tx s.tx.next len.toNat = some a := bufRange_eq_some.2 ⟨hle, ha⟩
  rcases hout : applyTxFun f (s.mem.readBytes a len.toNat) with ⟨b, y⟩
  have hlen : b.length = len.toNat := by
    have hb := length_applyTxFun f (s.mem.readBytes a len.toNat)
    rwa [hout, Memory.length_readBytes] at hb
  have hu := execAdpTransmit_of_ready (task := task) hready hlive hd ho
  have htok : TxReady (s.issueTxTo f) len d := ⟨hready.1, hready.2, hd, rfl, rfl, ho, hpos, hle⟩
  have ht := transmitPseudo_of_token hu rfl (execTxtConsume_of_ready htok hrange hout) hready.1
  have hslot : (s.tx.desc.set s.tx.next { d with len := len.toNat, own := .hw })[s.tx.hw]? =
      some { d with len := len.toNat, own := .hw } := by
    rw [hmeet, List.getElem?_set_self (List.getElem?_eq_some_iff.1 hd).1]
  refine ⟨_, _, ht, rfl, execDmaTx_of_hw hready.1 hslot rfl (hmeet ▸ hrange), ?_⟩
  have hread : (s.mem.writeBytes a b).readBytes a len.toNat = b := hlen ▸ Memory.readBytes_writeBytes hinv.mem a b
  exact congrArg (fun bs => s.hist ++ [Event.sent bs]) hread

end Sys2Proof.Machine
end

section
/-! Who writes a buffer: one byte belongs to one slot (R44), and only the slot's owner changes it (R91, R120). -/

namespace Sys2Proof.Machine

variable {c : Config} {ring ring' : RingId} {i : Instr} {s t : State} {k k' x : Nat}

/-! ### The buffers are apart (R44) -/

/-- Where a slot's buffer stands among the byte ranges of all buffers. -/
def rangeIdx (c : Config) : RingId → Nat → Nat
  | .tx, k => k
  | .rx, k => c.nTx + k

theorem bufAddr_eq_getElem? (c : Config) (ring : RingId) (k : Nat) : bufAddr c ring k = (ringAddrs c ring)[k]? := by
  cases ring <;> rfl

theorem ranges_getElem?_rangeIdx {a : Nat} (h : bufAddr c ring k = some a) :
    c.ranges[rangeIdx c ring k]? = some (a, bufSize c ring) := by
  cases ring with
  | tx =>
    have ha : c.txAddr[k]? = some a := h
    rw [Params.ranges, rangeIdx, List.getElem?_append_left (by simpa using (List.getElem?_eq_some_iff.1 ha).1),
      List.getElem?_map, ha]
    rfl
  | rx =>
    have ha : c.rxAddr[k]? = some a := h
    rw [Params.ranges, rangeIdx, List.getElem?_append_right (by simp), List.length_map, Nat.add_sub_cancel_left,
      List.getElem?_map, ha]
    rfl

/-- Different slots stand at different places. -/
theorem rangeIdx_inj (h : k < (ringAddrs c ring).length) (h' : k' < (ringAddrs c ring').length)
    (he : rangeIdx c ring k = rangeIdx c ring' k') : ring = ring' ∧ k = k' := by
  cases ring <;> cases ring' <;> simp only [rangeIdx, ringAddrs, Params.nTx] at h h' he
  · exact ⟨rfl, he⟩
  · omega
  · omega
  · exact ⟨rfl, by omega⟩

/-- Two of the ranges that have a byte in common are one range of the list (R44). -/
theorem ranges_idx_unique {m n : Nat} {q q' : Nat × Nat} (hq : c.ranges[m]? = some q) (hq' : c.ranges[n]? = some q')
    (h : q.1 ≤ x ∧ x < q.1 + q.2) (h' : q'.1 ≤ x ∧ x < q'.1 + q'.2) : m = n := by
  have hdisj := List.pairwise_iff_getElem.1 (Config.legal c).disjoint
  obtain ⟨hm, rfl⟩ := List.getElem?_eq_some_iff.1 hq
  obtain ⟨hn, rfl⟩ := List.getElem?_eq_some_iff.1 hq'
  rcases Nat.lt_trichotomy m n with hlt | he | hlt
  · rcases hdisj m n hm hn hlt with hd | hd <;> omega
  · exact he
  · rcases hdisj n m hn hm hlt with hd | hd <;> omega

/-- A byte lies in the buffer of at most one slot. -/
theorem InBuf.unique (h : InBuf c ring k x) (h' : InBuf c ring' k' x) : ring = ring' ∧ k = k' := by
  obtain ⟨a, ha, hx⟩ := h
  obtain ⟨a', ha', hx'⟩ := h'
  have hk := (List.getElem?_eq_some_iff.1 ((bufAddr_eq_getElem? c ring k).symm.trans ha)).1
  have hk' := (List.getElem?_eq_some_iff.1 ((bufAddr_eq_getElem? c ring' k').symm.trans ha')).1
  exact rangeIdx_inj hk hk' (ranges_idx_unique (ranges_getElem?_rangeIdx ha) (ranges_getElem?_rangeIdx ha') hx hx')

/-! ### What can change a byte -/

/-- The byte is one that the operation stores: of a TXT_CONSUME, in the first `len` bytes of the live
token's slot (R88), of a DMA_RX, in the frame's bytes at the hardware cursor's slot (R117). -/
def State.Stores (s : State) (i : Instr) (x : Nat) : Prop :=
  (∃ len a, i = .txtConsume len ∧ s.LiveTx ∧ s.tx.Owns .sw s.oob.tok.slot ∧
    bufAddr s.cfg .tx s.oob.tok.slot = some a ∧ len.toNat ≤ s.cfg.txBufSize ∧ a ≤ x ∧ x < a + len.toNat) ∨
  (∃ a, i = .dmaRx ∧ s.rx.Owns .hw s.rx.hw ∧ bufAddr s.cfg .rx s.rx.hw = some a ∧
    s.oob.frame.length ≤ s.cfg.rxBufSize ∧ a ≤ x ∧ x < a + s.oob.frame.length)

/-- A byte that a write changes lies in the range written. -/
theorem Memory.mem_range_of_read_ne {m : Memory} {a : Nat} {bs : List Byte}
    (h : (m.writeBytes a bs).read x ≠ m.read x) : a ≤ x ∧ x < a + bs.length :=
  not_not.1 (mt (Memory.read_writeBytes_outside m bs) h)

/-- An operation changes only bytes that it stores. -/
theorem exec_stores (h : exec i s = .next t) (hx : t.mem.read x ≠ s.mem.read x) : s.Stores i x := by
  cases i with
  | txtConsume len =>
    rcases execTxtConsume_next h with ⟨-, v, rfl, -⟩ | ⟨d, a, hr, ha, b, y, -, hlen, rfl⟩
    · exact absurd rfl hx
    · obtain ⟨hle, ha⟩ := bufRange_eq_some.1 ha
      have hmem := Memory.mem_range_of_read_ne hx
      rw [hlen] at hmem
      exact .inl ⟨len, a, rfl, ⟨hr.ring, hr.live⟩, (Ring.owns_of_getElem? hr.desc _).2 hr.own, ha, hle, hmem⟩
  | dmaRx =>
    obtain ⟨-, d, a, hd, ho, -, hle, ha, rfl⟩ := execDmaRx_next h
    obtain ⟨-, ha⟩ := bufRange_eq_some.1 ha
    exact .inr ⟨a, rfl, (Ring.owns_of_getElem? hd _).2 ho, ha, hle, Memory.mem_range_of_read_ne hx⟩
  | _ => exact absurd (frameOfNonStoringOperations _ _ _ h nofun nofun x) hx

/-- The side that writes the buffers of a ring: software the TX buffers, the DMA engine the RX buffers. -/
def writerSide : RingId → Owner
  | .tx => .sw
  | .rx => .hw

/-- A byte that an operation stores lies in the buffer of a slot that the agent's side owns, on the ring
whose buffers that side writes. -/
theorem State.Stores.owned (h : s.Stores i x) :
    ∃ ring k, (s.ring ring).Owns (writerSide ring) k ∧ sideOf i.agent = writerSide ring ∧ InBuf s.cfg ring k x := by
  rcases h with ⟨len, a, rfl, -, ho, ha, hle, h1, h2⟩ | ⟨a, rfl, ho, ha, hle, h1, h2⟩
  · exact ⟨.tx, _, ho, rfl, a, ha, h1, h2.trans_le (Nat.add_le_add_left hle a)⟩
  · exact ⟨.rx, _, ho, rfl, a, ha, h1, h2.trans_le (Nat.add_le_add_left hle a)⟩

/-- The owner of a stored byte's slot is the agent's side, and the side that writes the ring's buffers. -/
theorem State.Stores.owner_eq {o : Owner} (h : s.Stores i x) (ho : (s.ring ring).Owns o k)
    (hb : InBuf s.cfg ring k x) : o = sideOf i.agent ∧ o = writerSide ring := by
  obtain ⟨ring', k', ho', hside, hb'⟩ := h.owned
  obtain ⟨rfl, rfl⟩ := hb.unique hb'
  have heq := ho.unique ho'
  exact ⟨heq.trans hside.symm, heq⟩

/-- The bytes that no step writes: those of a hardware-owned TX slot, those of a software-owned RX slot, and
those outside the buffers (R43). -/
def State.Untouchable (s : State) (x : Nat) : Prop :=
  (∃ k, s.tx.Owns .hw k ∧ InBuf s.cfg .tx k x) ∨ (∃ k, s.rx.Owns .sw k ∧ InBuf s.cfg .rx k x) ∨
    (∀ ring k, ¬InBuf s.cfg ring k x)

theorem State.Untouchable.not_stores (h : s.Untouchable x) (i : Instr) : ¬s.Stores i x := fun hst => by
  rcases h with ⟨k, ho, hb⟩ | ⟨k, ho, hb⟩ | hb
  · cases (hst.owner_eq (ring := .tx) ho hb).2
  · cases (hst.owner_eq (ring := .rx) ho hb).2
  · obtain ⟨ring, k, -, -, hb'⟩ := hst.owned
    exact hb ring k hb'

theorem step_read_eq (h : step s = .next t) (hx : s.Untouchable x) : t.mem.read x = s.mem.read x := by
  obtain ⟨hf, ⟨r, sch, -, h⟩ | ⟨w, oob, rest, i, -, -, h⟩⟩ := step_next h
  · exact congrArg (Memory.read · x) (advance_mem (s := s.setSched sch) hf h)
  · have hx' : ((s.setSched rest).setOob oob).Untouchable x := hx
    exact not_not.1 fun hne => hx'.not_stores i (exec_stores h hne)

theorem routineTurn_next (h : routineTurn s = .next t) :
    s.fault = none ∧ ∃ r, s.routine = some r ∧ advance s r = .next t := by
  unfold routineTurn at h
  split at h
  · cases h
  next hf =>
    split at h
    next r hr => exact ⟨by simpa using hf, r, hr, h⟩
    · cases h

/-- Settles O55: an operation changes only bytes that it stores, and those lie in slots of the agent's
side; a routine's turn leaves the memory alone. -/
theorem buffersAreWrittenByOwnerOnly : Obligations.BuffersAreWrittenByOwnerOnly := by
  refine ⟨fun i s t h ring k x o ho hne hb => ?_, fun i s t h x hx => exec_stores h hx, fun s t h => ?_,
    fun s t h x hx => step_read_eq h hx⟩
  · exact not_not.1 fun hx => hne ((exec_stores h hx).owner_eq ho hb).1
  · obtain ⟨hf, r, -, h⟩ := routineTurn_next h
    exact advance_mem hf h

end Sys2Proof.Machine
end

section
/-! Who reads a buffer: an operation run on another memory that agrees in the bytes it reads (R49, R91, R120),
and a view that stays what it shows (log entry 22). -/

namespace Sys2Proof.Machine

variable {i : Instr} {s t : State} {m : Memory} {k : Nat}

/-! ### Outcomes that agree but for memory -/

/-- Where `o` has a next state, `o'` has the same but for memory, and `Q` relates the two memories. -/
def Mirrors (Q : Memory → Memory → Prop) (o o' : Out) : Prop :=
  ∀ t, o = .next t → ∃ m', o' = .next (t.setMem m') ∧ Q t.mem m'

section combinators

variable {Q : Memory → Memory → Prop}

theorem mirrors_next {u u' : State} {m' : Memory} (hu : u' = u.setMem m') (h : Q u.mem m') :
    Mirrors Q (.next u) (.next u') := by
  rintro t ⟨⟩
  exact ⟨m', congrArg _ hu, h⟩

theorem mirrors_fault (r : Fault) (o : Out) : Mirrors Q (.fault r) o := by
  rintro t ⟨⟩

theorem mirrors_raise (h : Q s.mem m) (v : Violation) : Mirrors Q (raise s v) (raise (s.setMem m) v) :=
  mirrors_next rfl h

theorem mirrors_ite {c : Prop} [Decidable c] {o₁ o₂ o₁' o₂' : Out} (h : c → Mirrors Q o₁ o₁')
    (h' : ¬c → Mirrors Q o₂ o₂') : Mirrors Q (if c then o₁ else o₂) (if c then o₁' else o₂') := by
  by_cases hc : c
  · rw [if_pos hc, if_pos hc]; exact h hc
  · rw [if_neg hc, if_neg hc]; exact h' hc

theorem mirrors_swStep {o o' : Out} (h : Mirrors Q o o') : Mirrors Q (swStep s o) (swStep (s.setMem m) o') :=
  mirrors_ite (fun _ => mirrors_fault _ _) fun _ => mirrors_ite (fun _ => mirrors_fault _ _) fun _ => h

theorem mirrors_agentStep {o o' : Out} (h : Mirrors Q o o') : Mirrors Q (agentStep s o) (agentStep (s.setMem m) o') :=
  mirrors_ite (fun _ => mirrors_fault _ _) fun _ => h

theorem mirrors_withDesc {r : Ring} {j : Nat} {f f' : Desc → Out}
    (h : ∀ d, r.desc[j]? = some d → Mirrors Q (f d) (f' d)) : Mirrors Q (withDesc r j f) (withDesc r j f') := by
  cases hd : r.desc[j]? with
  | none => simp only [withDesc, hd]; exact mirrors_fault _ _
  | some d => rw [withDesc_some hd, withDesc_some hd]; exact h d hd

theorem mirrors_withBuf {c : Config} {ring : RingId} {j n : Nat} {f f' : Nat → Out}
    (h : ∀ a, bufRange c ring j n = some a → Mirrors Q (f a) (f' a)) :
    Mirrors Q (withBuf c ring j n f) (withBuf c ring j n f') := by
  cases ha : bufRange c ring j n with
  | none => simp only [withBuf, ha]; exact mirrors_fault _ _
  | some a => rw [withBuf_some ha, withBuf_some ha]; exact h a ha

/-- The token checks of a TX consume go on only with the live token's slot, software-owned. -/
theorem mirrors_withTxToken {op : FaultOp} {len : Half} {f f' : Nat → Desc → Out} (hQ : Q s.mem m)
    (h : s.LiveTx → s.tx.Owns .sw s.oob.tok.slot → ∀ d, Mirrors Q (f s.oob.tok.slot d) (f' s.oob.tok.slot d)) :
    Mirrors Q (withTxToken op len s f) (withTxToken op len (s.setMem m) f') := by
  refine mirrors_ite (fun hl => ?_) fun _ => mirrors_raise hQ _
  refine mirrors_withDesc fun d hd => mirrors_ite (fun ho => ?_) fun _ => mirrors_raise hQ _
  refine mirrors_ite (fun _ => ?_) fun _ => mirrors_raise hQ _
  exact h (isLive_iff.1 hl) ((Ring.owns_of_getElem? hd _).2 ho) d

/-- The token checks of an RX consume, likewise. -/
theorem mirrors_withRxToken {op : FaultOp} {f f' : Nat → Desc → Out} (hQ : Q s.mem m)
    (h : s.LiveRx → s.rx.Owns .sw s.oob.tok.slot → ∀ d, Mirrors Q (f s.oob.tok.slot d) (f' s.oob.tok.slot d)) :
    Mirrors Q (withRxToken op s f) (withRxToken op (s.setMem m) f') := by
  refine mirrors_ite (fun _ => ?_) fun _ => mirrors_raise hQ _
  refine mirrors_ite (fun hl => ?_) fun _ => mirrors_raise hQ _
  refine mirrors_withDesc fun d hd => mirrors_ite (fun ho => ?_) fun _ => mirrors_raise hQ _
  exact h (isLive_iff.1 hl) ((Ring.owns_of_getElem? hd _).2 ho) d

/-- An SMI transaction reads no memory (R104). -/
theorem mirrors_smiReadStep {reg : Nat} {f f' : Half → State → Out} (hQ : Q s.mem m)
    (h : ∀ v u, u.mem = s.mem → Mirrors Q (f v u) (f' v (u.setMem m))) :
    Mirrors Q (smiReadStep s reg f) (smiReadStep (s.setMem m) reg f') :=
  mirrors_ite (fun _ => h _ ((s.setPhy _).emit _) rfl) fun _ => mirrors_raise hQ _

theorem mirrors_smiWriteStep {reg : Nat} {val : Half} {f f' : State → Out} (hQ : Q s.mem m)
    (h : ∀ u, u.mem = s.mem → Mirrors Q (f u) (f' (u.setMem m))) :
    Mirrors Q (smiWriteStep s reg val f) (smiWriteStep (s.setMem m) reg val f') :=
  mirrors_ite (fun _ => h ((s.setPhy _).emit _) rfl) fun _ => mirrors_raise hQ _

theorem mirrors_finishNode {id : RoutineId} {n : Nat} {nd : RNode} {held : List Half} (hQ : Q s.mem m) :
    Mirrors Q (finishNode id n nd held s) (finishNode id n nd held (s.setMem m)) := by
  rw [finishNode_eq, finishNode_eq]
  exact mirrors_next rfl hQ

theorem mirrors_pollLink {f f' : Bool → PhyState → List Event → Out} (hQ : Q s.mem m)
    (h : ∀ b p es, Mirrors Q (f b p es) (f' b p es)) : Mirrors Q (pollLink s f) (pollLink (s.setMem m) f') := by
  unfold pollLink
  dsimp only [State.setMem_cfg, State.setMem_phy]
  split
  · exact mirrors_raise hQ _
  · exact h _ _ _

/-- A turn of a PHY routine reads no memory (R110). -/
theorem mirrors_advance (hQ : Q s.mem m) (r : Running) : Mirrors Q (advance s r) (advance (s.setMem m) r) := by
  unfold advance
  dsimp only [State.setMem_cfg]
  split
  · exact mirrors_next rfl hQ
  · split
    · exact mirrors_smiReadStep hQ fun _ _ hu => mirrors_finishNode (hu.symm ▸ hQ)
    · exact mirrors_smiWriteStep hQ fun _ hu => mirrors_finishNode (hu.symm ▸ hQ)

theorem mirrors_routineTurn (hQ : Q s.mem m) : Mirrors Q (routineTurn s) (routineTurn (s.setMem m)) := by
  refine mirrors_ite (fun _ => mirrors_fault _ _) fun _ => ?_
  rw [State.setMem_routine]
  split
  · exact mirrors_advance hQ _
  · exact mirrors_fault _ _

/-- An operation that reads no buffer and stores none has the same next state on every memory. -/
theorem mirrors_exec_of_no_access (hQ : Q s.mem m) (hc : ∀ len, i ≠ .txtConsume len) (hg : i ≠ .rxtConsume)
    (htx : i ≠ .dmaTx) (hrx : i ≠ .dmaRx) : Mirrors Q (exec i s) (exec i (s.setMem m)) := by
  cases i with
  | txtConsume len => exact absurd rfl (hc len)
  | rxtConsume => exact absurd rfl hg
  | dmaTx => exact absurd rfl htx
  | dmaRx => exact absurd rfl hrx
  | qInit =>
    refine mirrors_swStep (mirrors_ite (fun _ => mirrors_raise hQ _) fun _ => ?_)
    rw [State.setMem_tx]
    split
    · exact mirrors_raise hQ _
    · exact mirrors_next rfl hQ
  | txrAvail => exact mirrors_swStep (mirrors_withDesc fun _ _ => mirrors_next rfl hQ)
  | rxrAvail =>
    refine mirrors_swStep (mirrors_ite (fun _ => ?_) fun _ => mirrors_raise hQ _)
    refine mirrors_withDesc fun _ _ => mirrors_ite (fun _ => ?_) fun _ => mirrors_next rfl hQ
    exact mirrors_withBuf fun _ _ => mirrors_next rfl hQ
  | txrTransmit len => exact mirrors_swStep (mirrors_withTxToken hQ fun _ _ _ => mirrors_next rfl hQ)
  | rxrPop => exact mirrors_swStep (mirrors_withRxToken hQ fun _ _ _ => mirrors_next rfl hQ)
  | adpReceive task =>
    refine mirrors_swStep (mirrors_ite (fun _ => ?_) fun _ => mirrors_raise hQ _)
    refine mirrors_withDesc fun _ _ => mirrors_withDesc fun _ _ => ?_
    exact mirrors_ite (fun _ => mirrors_next rfl hQ) fun _ => mirrors_next rfl hQ
  | adpTransmit task =>
    refine mirrors_swStep (mirrors_withDesc fun _ _ => ?_)
    exact mirrors_ite (fun _ => mirrors_next rfl hQ) fun _ => mirrors_next rfl hQ
  | adpLink | phyPoll => exact mirrors_swStep (mirrors_pollLink hQ fun _ _ _ => mirrors_next rfl hQ)
  | adpCaps | adpHwaddr | adpEndpoll => exact mirrors_swStep (mirrors_next rfl hQ)
  | smiRead reg => exact mirrors_swStep (mirrors_smiReadStep hQ fun _ _ hu => mirrors_next rfl (hu.symm ▸ hQ))
  | smiWrite reg val => exact mirrors_swStep (mirrors_smiWriteStep hQ fun _ hu => mirrors_next rfl (hu.symm ▸ hQ))
  | phyReset | phyInit => exact mirrors_swStep (mirrors_advance hQ _)
  | irqDeliver =>
    refine mirrors_agentStep (mirrors_ite (fun _ => ?_) fun _ => mirrors_fault _ _)
    rw [State.setMem_waker]
    split <;> exact mirrors_next rfl hQ

end combinators

/-! ### The operations that reach a buffer -/

/-- Two memories agree on the buffers that an operation reads: those of slots its agent's side owns. -/
def State.AgreesOnReads (s : State) (i : Instr) (m : Memory) : Prop :=
  ∀ ring k x, s.Reads i ring k → (s.ring ring).Owns (sideOf i.agent) k → InBuf s.cfg ring k x →
    m.read x = s.mem.read x

/-- `b` agrees with `a` wherever `m'` agrees with `m`. -/
def AgreesWhere (m m' a b : Memory) : Prop :=
  m'.wf → m.wf → ∀ x, m'.read x = m.read x → b.read x = a.read x

theorem AgreesWhere.self (m m' : Memory) : AgreesWhere m m' m m' := fun _ _ _ h => h

/-- The same bytes stored in both memories. -/
theorem AgreesWhere.writeBytes (m m' : Memory) (a : Nat) (bs : List Byte) :
    AgreesWhere m m' (m.writeBytes a bs) (m'.writeBytes a bs) := fun hm' hm x h => by
  rw [Memory.read_writeBytes hm', Memory.read_writeBytes hm, h]

/-- The bytes an operation reads are the same in both memories. -/
theorem State.AgreesOnReads.readBytes_eq {ring : RingId} {a n : Nat} (h : s.AgreesOnReads i m)
    (hr : s.Reads i ring k) (ho : (s.ring ring).Owns (sideOf i.agent) k) (ha : bufRange s.cfg ring k n = some a) :
    m.readBytes a n = s.mem.readBytes a n :=
  Memory.readBytes_congr fun x h1 h2 => h ring k x hr ho (inBuf_of_bufRange ha h1 h2)

/-- An operation's next state depends on memory only through the bytes it reads. -/
theorem mirrors_exec (h : s.AgreesOnReads i m) :
    Mirrors (AgreesWhere s.mem m) (exec i s) (exec i (s.setMem m)) := by
  have hQ := AgreesWhere.self s.mem m
  cases i with
  | txtConsume len =>
    refine mirrors_swStep (mirrors_withTxToken hQ fun hl ho d => mirrors_withBuf fun a ha => ?_)
    have hread := h.readBytes_eq (ring := .tx) ⟨rfl, hl, rfl⟩ ho ha
    refine mirrors_next ?_ (AgreesWhere.writeBytes s.mem m a
      (applyTxFun s.oob.txFun (s.mem.readBytes a len.toNat)).1)
    rw [State.setMem_mem, hread]
    rfl
  | rxtConsume =>
    refine mirrors_swStep (mirrors_withRxToken hQ fun hl ho d => mirrors_withBuf fun a ha => ?_)
    have hread := h.readBytes_eq (ring := .rx) ⟨rfl, hl, rfl⟩ ho ha
    refine mirrors_next (m' := m) ?_ hQ
    rw [State.setMem_mem, hread]
    rfl
  | dmaTx =>
    refine mirrors_agentStep (mirrors_withDesc fun d hd => mirrors_ite (fun ho => ?_) fun _ => mirrors_fault _ _)
    refine mirrors_withBuf fun a ha => ?_
    have hread := h.readBytes_eq (ring := .tx) ⟨rfl, rfl⟩ ((Ring.owns_of_getElem? hd _).2 ho) ha
    refine mirrors_next (m' := m) ?_ hQ
    rw [State.setMem_mem, hread]
    rfl
  | dmaRx =>
    refine mirrors_agentStep (mirrors_withDesc fun d _ => mirrors_ite (fun _ => ?_) fun _ => mirrors_fault _ _)
    refine mirrors_ite (fun _ => mirrors_withBuf fun a _ => ?_) fun _ => mirrors_fault _ _
    exact mirrors_next rfl (AgreesWhere.writeBytes s.mem m a s.oob.frame)
  | _ => exact mirrors_exec_of_no_access hQ nofun nofun nofun nofun

/-! ### A view that is the result (log entry 22) -/

/-- Software loses an RX slot only in Q_INIT and by a consume (R21). -/
theorem Effect.keeps_rx_slot (h : Effect i s t) (hq : i ≠ .qInit) (hc : ¬Consumes .rx i) (ho : s.rx.Owns .sw k) :
    t.rx.Owns .sw k := by
  cases h.ringMove .rx with
  | kept h | issued _ h | expired h =>
    have hdesc : t.rx.desc = s.rx.desc := (congrArg Ring.desc h).trans rfl
    rwa [Ring.Owns, hdesc]
  | armed hi => exact absurd hi hq
  | consumed hi => exact absurd hi hc
  | handedBack _ hd h =>
    refine (Ring.owns_of_desc_set (congrArg Ring.desc h) (List.getElem?_eq_some_iff.1 hd).1 .sw k).2 ?_
    split_ifs
    · rfl
    · exact ho

/-- While a view stays the result, software keeps its slots: Q_INIT and the consumes return something else. -/
theorem exec_keeps_rx_slot {v : Option (Nat × View)} (h : exec i s = .next t) (hv : s.ret = .rxFrame v)
    (hret : t.ret = s.ret) (ho : s.rx.Owns .sw k) : t.rx.Owns .sw k := by
  cases i with
  | qInit =>
    rcases execQInit_next h with ⟨-, _, rfl, -⟩ | ⟨-, -, -, -, rfl⟩
    · exact ho
    · cases hret.trans hv
  | rxrPop =>
    rcases execRxrPop_next h with ⟨-, _, rfl, -⟩ | ⟨d, -, rfl⟩
    · exact ho
    · cases hret.trans hv
  | rxtConsume =>
    rcases execRxtConsume_next h with ⟨-, _, rfl, -⟩ | ⟨d, a, -, -, rfl⟩
    · exact ho
    · cases hret.trans hv
  | _ => exact (exec_effect h).keeps_rx_slot nofun (not_consumes_rx nofun nofun) ho

theorem step_keeps_rx_slot {v : Option (Nat × View)} (h : step s = .next t) (hv : s.ret = .rxFrame v)
    (hret : t.ret = s.ret) (ho : s.rx.Owns .sw k) : t.rx.Owns .sw k := by
  obtain ⟨hf, ⟨r, sch, -, h⟩ | ⟨w, oob, rest, i, -, -, h⟩⟩ := step_next h
  · have he : Effect .phyReset (s.setSched sch) t := advance_effect (.inl rfl) hf h
    exact he.keeps_rx_slot nofun (not_consumes_rx nofun nofun) ho
  · exact exec_keeps_rx_slot (s := (s.setSched rest).setOob oob) h hv hret ho

/-- No step changes a byte that a view of a software-owned slot shows. -/
theorem step_keeps_viewBytes {v : View} (h : step s = .next t) (ho : s.rx.Owns .sw k)
    (hv : bufRange s.cfg .rx k v.len = some v.addr) : viewBytes t.mem v = viewBytes s.mem v :=
  viewBytes_congr fun _ h1 h2 => step_read_eq h (.inr (.inl ⟨k, ho, inBuf_of_bufRange hv h1 h2⟩))

/-- Settles O60: every outcome is mirrored on a memory that agrees on the bytes read, a routine's turn on
any memory, and a view's slot is written and given away by nobody while the view is the result. -/
theorem buffersAreReadByOwnerOnly : Obligations.BuffersAreReadByOwnerOnly := by
  refine ⟨fun i s t m h hm => ?_, fun s t m h => ?_, fun s t k v hv ho hrange h => ?_⟩
  · obtain ⟨m', hm', hagree⟩ := mirrors_exec hm t h
    exact ⟨m', hm', fun hwf hs => hagree hwf hs⟩
  · have hmem : Mirrors (fun _ b => b = m) (routineTurn s) (routineTurn (s.setMem m)) := mirrors_routineTurn rfl
    obtain ⟨_, hm', rfl⟩ := hmem t h
    exact hm'
  · exact ⟨step_keeps_viewBytes h ho hrange, fun hret => step_keeps_rx_slot h hv hret ho⟩

end Sys2Proof.Machine
end

section
/-! The adapter's operations: the tokens it issues, the waker it registers, its link poll, its fixed facets
and the end of a poll cycle (R94 to R100), and the poll that PHY_POLL shares with it (R114). -/

namespace Sys2Proof.Machine

variable {s : State} {task : TaskId} {d dr dt : Desc}

/-! ### The words of the operations that name a task (R64, R65) -/

/-- The word of an operation that names a task: its opcode over the task's number. -/
theorem layWord_task (op : BitVec 8) (h : task < 65536) :
    layWord op 0 (BitVec.ofNat 16 task) = op.setWidth 32 <<< 24 ||| BitVec.ofNat 32 task := by
  have hlow : (BitVec.ofNat 16 task).setWidth 32 = BitVec.ofNat 32 task :=
    BitVec.setWidth_ofNat_of_le_of_lt (by decide) h
  rw [layWord_eq_or _ _ _ (Nat.zero_le _), hlow, BitVec.zero_shiftLeft, BitVec.or_zero]

/-- The decoder reads a well-formed operation from its word, however the word is spelled. -/
theorem decode_of_encode_eq {i : Instr} {w : OpWord} (hw : encode i = w) (hwf : i.wellFormed = true) :
    decode w = .ok i :=
  hw ▸ decodeOfEncodeIsInstr i hwf

/-! ### Tokens issued, or the task registered (R94 to R96) -/

theorem execAdpReceive_of_not_initialised (hs : s.SwReady) (hi : s.initialised = false) :
    exec (.adpReceive task) s = raise s (.notInitialised .adpReceive) :=
  (swStep_of_ready hs _).trans (if_neg (by simp [hi]))

/-- After Q_INIT the poll looks at both token registers and at the descriptors at both cursors (R94). -/
theorem execAdpReceive_of_desc (hs : s.SwReady) (hi : s.initialised = true)
    (hdr : s.rx.desc[s.rx.next]? = some dr) (hdt : s.tx.desc[s.tx.next]? = some dt) :
    exec (.adpReceive task) s =
      if s.rx.live = none ∧ dr.own = .sw ∧ s.tx.live = none ∧ dt.own = .sw then
        .next { s with
          rx := s.rx.issue s.tokGen, tx := s.tx.issue (s.tokGen + 1), tokGen := s.tokGen + 2
          ret := .tokens (some (⟨.rx, s.rx.next, s.tokGen⟩, ⟨.tx, s.tx.next, s.tokGen + 1⟩)) }
      else notReady s task (.tokens none) :=
  (swStep_of_ready hs _).trans ((if_pos hi).trans ((withDesc_some hdr).trans (withDesc_some hdt)))

theorem execAdpTransmit_of_not_ready (hs : s.SwReady) (hd : s.tx.desc[s.tx.next]? = some d)
    (h : ¬(s.tx.live = none ∧ d.own = .sw)) : exec (.adpTransmit task) s = notReady s task (.token none) :=
  ((swStep_of_ready hs _).trans (withDesc_some hd)).trans (if_neg h)

/-! ### The polls of the link (R97, R114) -/

/-- `poll_link` with a register out of range: the first such register is the fault's (R104, R128). -/
theorem pollLink_outOfRange {k : Bool → PhyState → List Event → Out} {pre post : List Nat} {reg : Nat}
    (hreads : s.cfg.driver.poll.reads = pre ++ reg :: post) (hpre : ∀ r ∈ pre, r ≤ 31) (hreg : 31 < reg) :
    pollLink s k = raise s (.smiRegRange reg) := by
  have hfind : s.cfg.driver.poll.reads.find? (fun r => !regInRange r) = some reg :=
    List.find?_eq_some_iff_append.2 ⟨by simpa using hreg, pre, post, hreads, by simpa using hpre⟩
  simp only [pollLink, hfind]

theorem execAdpLink_eq (hs : s.SwReady) (task : TaskId) :
    exec (.adpLink task) s =
      pollLink s fun b p es => .next (((s.setPhy p).emit (.woken task :: es)).setRet (.link b)) :=
  swStep_of_ready hs _

theorem execPhyPoll_eq (hs : s.SwReady) :
    exec .phyPoll s = pollLink s fun b p es => .next (((s.setPhy p).emit es).setRet (.flag b)) :=
  swStep_of_ready hs _

/-! ### The statements -/

/-- Settles O17: the initialisation check, then both cursors' slots and both token registers decide. -/
theorem adpReceiveIssuesBothTokensOrNone : Obligations.AdpReceiveIssuesBothTokensOrNone := by
  refine ⟨fun task ht => ?_, fun s task hs => ⟨execAdpReceive_of_not_initialised hs,
    fun dr dt hi hdr hdt => ⟨fun h => ?_, fun h => ?_⟩⟩⟩
  · exact decode_of_encode_eq (layWord_task 0x20 ht) (decide_eq_true ht)
  · rw [execAdpReceive_of_desc hs hi hdr hdt, if_pos (and_assoc.1 h)]
    rfl
  · rw [execAdpReceive_of_desc hs hi hdr hdt, if_neg (mt and_assoc.2 h)]
    rfl

/-- Settles O18: the slot at the cursor and the token register decide. -/
theorem adpTransmitIssuesTokenOrNone : Obligations.AdpTransmitIssuesTokenOrNone := by
  refine ⟨fun task ht => ?_, fun s task d hs hd => ⟨fun hl ho => ?_, fun h => ?_⟩⟩
  · exact decode_of_encode_eq (layWord_task 0x21 ht) (decide_eq_true ht)
  · exact execAdpTransmit_of_ready hs hl hd ho
  · exact execAdpTransmit_of_not_ready hs hd h

/-- Settles O19: both operations run `poll_link`, which looks for a register out of range before it reads. -/
theorem linkPollsReadThePhy : Obligations.LinkPollsReadThePhy := by
  intro s task hs
  rw [execAdpLink_eq hs, execPhyPoll_eq hs]
  refine ⟨fun hrange => ?_, fun pre reg post hreads hpre hreg => ?_⟩
  · rcases hp : pollReads s.cfg s.cfg.driver.poll.reads s.phy with ⟨vals, p, es⟩
    exact ⟨vals, p, es, _, rfl, rfl, pollLink_inRange hrange hp, pollLink_inRange hrange hp⟩
  · exact ⟨pollLink_outOfRange hreads hpre hreg, pollLink_outOfRange hreads hpre hreg⟩

/-- Settles O23: both operations return parameters of the configuration. -/
theorem staticFacetsAreConstant : Obligations.StaticFacetsAreConstant := by
  refine ⟨by decide, by decide, fun s hs => ?_⟩
  have hcaps : exec .adpCaps s = .next (s.setRet (.caps s.cfg.mtu s.cfg.maxBurst)) := swStep_of_ready hs _
  refine ⟨hcaps, fun hmtu hburst => ?_, swStep_of_ready hs _⟩
  rw [hcaps, hmtu, hburst]
  rfl

/-- Settles O24: the operation's effect is to expire each ring's token. -/
theorem adpEndpollExpiresTokens : Obligations.AdpEndpollExpiresTokens :=
  ⟨by decide, fun _ hs => swStep_of_ready hs _⟩

end Sys2Proof.Machine
end

section
/-! What `SW` and the schedule do while a PHY routine is in progress, and the hardware agents beside it (R8, R112). -/

namespace Sys2Proof.Machine

variable {s t : State} {i : Instr}

/-! ### `SW` waits for the routine -/

/-- An operation of `SW` is not enabled while a PHY routine is in progress (R112). -/
theorem swStep_of_busy (hf : s.fault = none) (hr : s.routine ≠ none) (k : Out) :
    swStep s k = .fault .softwareBusy := by
  rw [swStep, hf, if_neg (by simp), if_pos (Option.isSome_iff_ne_none.2 hr)]

theorem exec_of_busy (hf : s.fault = none) (hr : s.routine ≠ none) (hi : i.agent = .sw) :
    exec i s = .fault .softwareBusy := by
  cases i with
  | dmaTx | dmaRx | irqDeliver => cases hi
  | _ => exact swStep_of_busy hf hr _

theorem mustWait_of_busy (hr : s.routine ≠ none) (hi : i.agent = .sw) : mustWait s i = true := by
  simp [mustWait, hi, Option.isSome_iff_ne_none.2 hr]

/-! ### A routine's turn, and the steps that are one -/

theorem routineTurn_of_fault (hf : s.fault.isSome) : routineTurn s = .fault .quiescent := if_pos hf

theorem routineTurn_of_running {r : Running} (hf : s.fault = none) (hr : s.routine = some r) :
    routineTurn s = advance s r := by
  simp [routineTurn, hf, hr]

theorem routineTurn_of_idle (hf : s.fault = none) (hr : s.routine = none) : routineTurn s = .fault .noRoutine := by
  simp [routineTurn, hf, hr]

/-- A step is a routine's turn where it is one in an unfaulted machine: with a fault recorded both are
quiescent (R127). The turn is taken on `t`, which may differ from `s` in the schedule. -/
theorem step_eq_routineTurn (hft : t.fault = s.fault) (h : s.fault = none → step s = routineTurn t) :
    step s = routineTurn t := by
  by_cases hf : s.fault = none
  · exact h hf
  · have hs : s.fault.isSome := Option.isSome_iff_ne_none.2 hf
    rw [step_of_fault hs, routineTurn_of_fault (hft ▸ hs)]

theorem step_of_busy_issue {w : OpWord} {oob : Oob} {rest : List Turn} (hr : s.routine ≠ none)
    (hs : s.sched = .issue w oob :: rest) (hw : decode w = .ok i) (hi : i.agent = .sw) :
    step s = routineTurn s :=
  step_eq_routineTurn rfl fun hf => (step_of_issue hf hs hw).trans (if_pos (mustWait_of_busy hr hi))

theorem step_of_routine_turn {rest : List Turn} (hs : s.sched = .routine :: rest) :
    step s = routineTurn (s.setSched rest) :=
  step_eq_routineTurn rfl fun hf => by simp [step, takeTurn, hf, hs]

theorem step_of_no_sched (hf : s.fault = none) (hs : s.sched = []) :
    step s = if s.routine.isSome then routineTurn s else .fault .noTurn := by
  simp [step, takeTurn, hf, hs]

/-- Settles O7: `SW`'s enabling condition and the test `mustWait` both read the routine in progress, and
the turn that the schedule leaves is the routine's. -/
theorem softwareWaitsForRoutine : Obligations.SoftwareWaitsForRoutine := by
  refine ⟨fun s i => exec_of_busy, fun s w oob rest i => step_of_busy_issue, fun s rest => step_of_routine_turn,
    fun s hr hf => routineTurn_of_idle hf hr, fun s hs => ⟨fun hr => ?_, fun hr hf => ?_⟩⟩
  · exact step_eq_routineTurn rfl fun hf =>
      (step_of_no_sched hf hs).trans (if_pos (Option.isSome_iff_ne_none.2 hr))
  · rw [step_of_no_sched hf hs, hr]
    rfl

/-! ### The hardware agents -/

theorem execDmaRx_of_hw {d : Desc} {a : Nat} (hf : s.fault = none) (hd : s.rx.desc[s.rx.hw]? = some d)
    (ho : d.own = .hw) (hpos : 1 ≤ s.oob.frame.length) (hle : s.oob.frame.length ≤ s.cfg.rxBufSize)
    (ha : bufRange s.cfg .rx s.rx.hw s.oob.frame.length = some a) :
    exec .dmaRx s = .next { s with
      mem := s.mem.writeBytes a s.oob.frame
      hist := s.hist ++ [.landed s.rx.hw s.oob.frame]
      rx := s.rx.handBack s.cfg.nRx { d with len := s.oob.frame.length, status := drawnStatus s }
      irqPending := true } :=
  (agentStep_ready hf).trans ((withDesc_some hd).trans ((if_pos ho).trans
    ((if_pos (decide_eq_true ⟨hpos, hle⟩)).trans (withBuf_some ha))))

theorem execIrqDeliver_of_no_waker (hf : s.fault = none) (hi : s.irqPending = true) (hw : s.waker = none) :
    exec .irqDeliver s = .next (s.setIrqPending false) := by
  refine (agentStep_ready hf).trans ((if_pos hi).trans ?_)
  rw [hw]

theorem execIrqDeliver_of_waker {k : TaskId} (hf : s.fault = none) (hi : s.irqPending = true)
    (hw : s.waker = some k) :
    exec .irqDeliver s = .next { s with
      irqPending := false
      hist := s.hist ++ [.woken k]
      waker := if s.cfg.wakeClears then none else some k } := by
  refine (agentStep_ready hf).trans ((if_pos hi).trans ?_)
  rw [hw]

/-- Settles O33: where a DMA or IRQ step is enabled, the same conditions hold with any routine in
progress, and the step writes no routine. -/
theorem hardwareAgentsInterleaveWithRoutines : Obligations.HardwareAgentsInterleaveWithRoutines := by
  intro s t i r hi h
  cases i with
  | dmaTx =>
    obtain ⟨hf, d, a, hd, ho, ha, rfl⟩ := execDmaTx_next h
    exact execDmaTx_of_hw (s := s.setRoutine r) hf hd ho ha
  | dmaRx =>
    obtain ⟨hf, d, a, hd, ho, hpos, hle, ha, rfl⟩ := execDmaRx_next h
    exact execDmaRx_of_hw (s := s.setRoutine r) hf hd ho hpos hle ha
  | irqDeliver =>
    obtain ⟨hf, hp, ⟨hw, rfl⟩ | ⟨k, hw, rfl⟩⟩ := execIrqDeliver_next h
    · exact execIrqDeliver_of_no_waker (s := s.setRoutine r) hf hp hw
    · exact execIrqDeliver_of_waker (s := s.setRoutine r) hf hp hw
  | _ => exact absurd rfl hi

end Sys2Proof.Machine
end

section
/-! `poll_link`: its reads are `smi.read`s in a row (R111), what its tests decide, and the reference
driver's poll of the simulated PHY (R109, R115). -/

namespace Sys2Proof.Machine

/-! ### The reads (R104, R111) -/

/-- One read more, before the others. -/
theorem smiReads_cons (c : Config) (reg : Nat) (regs : List Nat) (p : PhyState) :
    smiReads c (reg :: regs) p =
      let vp := phyRead c.phyModel p c.phyAddr (BitVec.ofNat 5 reg)
      let r := smiReads c regs vp.2
      (vp.1 :: r.1, r.2) := by
  induction regs using List.reverseRecOn with
  | nil => rfl
  | append_singleton regs last ih => simp only [← List.cons_append, smiReads_concat, ih]

/-- The values `poll_link` reads and the PHY after them are those of the `smi.read`s in a row. -/
theorem pollReads_eq_smiReads (c : Config) (regs : List Nat) (p : PhyState) :
    ((pollReads c regs p).1, (pollReads c regs p).2.1) = smiReads c regs p := by
  induction regs generalizing p with
  | nil => rfl
  | cons reg regs ih => simp only [smiReads_cons, ← ih, pollReads]

theorem length_pollReads (c : Config) (regs : List Nat) (p : PhyState) :
    (pollReads c regs p).1.length = regs.length := by
  induction regs generalizing p with
  | nil => rfl
  | cons reg regs ih => exact congrArg (· + 1) (ih _)

/-- The events of `poll_link` are one `SmiRd` for each register. -/
theorem events_pollReads (c : Config) (regs : List Nat) (p : PhyState) :
    (pollReads c regs p).2.2 = List.zipWith Event.smiRd regs (pollReads c regs p).1 := by
  induction regs generalizing p with
  | nil => rfl
  | cons reg regs ih => exact congrArg (List.cons _) (ih _)

/-- Settles O20: ADP_LINK and PHY_POLL leave what the reads of `poll_link` leave, and those are the
`smi.read`s in a row. -/
theorem pollReadsAreFixedSequence : Obligations.PollReadsAreFixedSequence := by
  refine ⟨fun c regs p => ⟨pollReads_eq_smiReads c regs p, length_pollReads c regs p, events_pollReads c regs p⟩, ?_⟩
  rintro s task _ vals p hs rfl hrange hreads
  obtain ⟨vals', p', es, b, hp, -, hlink, hpoll⟩ := (linkPollsReadThePhy s task hs).1 hrange
  have hsame := pollReads_eq_smiReads s.cfg s.cfg.driver.poll.reads s.phy
  have hes := events_pollReads s.cfg s.cfg.driver.poll.reads s.phy
  rw [hp, hreads] at hsame
  rw [hp] at hes
  obtain ⟨rfl, rfl⟩ : vals' = vals ∧ p' = p := Prod.mk.inj hsame
  rw [show es = _ from hes] at hlink hpoll
  exact ⟨b, hlink, hpoll⟩

/-! ### The tests -/

/-- Settles O21: the answer is the conjunction of `linkUp` and `ready`. -/
theorem linkDownIsReportedAsDown : Obligations.LinkDownIsReportedAsDown := by
  intro s task hs hrange hdown
  obtain ⟨vals, p, es, b, hp, hb, hlink, hpoll⟩ := (linkPollsReadThePhy s task hs).1 hrange
  rw [hp] at hdown
  obtain rfl : b = false := by rw [hb, hdown, Bool.false_and]
  exact ⟨_, _, hlink, rfl, hpoll, rfl⟩

/-! ### The reference driver's poll of the simulated PHY (R109, R115) -/

theorem pollReads_reference {s : State} (hm : s.cfg.phyModel = .simulated) :
    pollReads s.cfg Driver.reference.poll.reads s.phy =
      ([s.phy.regs[1], s.phy.regs[31]], s.phy, [.smiRd 1 s.phy.regs[1], .smiRd 31 s.phy.regs[31]]) := by
  simp only [Driver.reference, pollReads, hm, phyRead]
  rfl

/-- Bits 4:2 of a value under their mask are that field in its place, bit by bit. -/
theorem and_mask_eq_extractLsb' (v : Half) : v &&& (0x001C : Half) = (v.extractLsb' 2 3).setWidth 16 <<< 2 := by
  ext j hj
  interval_cases j <;> simp

/-- The reference driver's test of the field in bits 4:2 (R115). -/
theorem mask_test_eq (v : Half) : (v &&& (0x001C : Half) == (0x0018 : Half)) = decide (v.extractLsb' 2 3 = 0b110) := by
  have hfield : ∀ f : BitVec 3, f.setWidth 16 <<< 2 = (0x0018 : Half) ↔ f = 0b110 := by decide
  rw [and_mask_eq_extractLsb', beq_eq_decide]
  exact decide_eq_decide.2 (hfield _)

/-- What the reference driver's two tests ask of the values of registers 1 and 31 (R115). -/
theorem reference_poll_tests (v w : Half) :
    (evalCond [v, w] Driver.reference.poll.linkUp && evalCond [v, w] Driver.reference.poll.ready) =
      (v.getLsbD 5 && v.getLsbD 2 && w.getLsbD 12 && decide (w.extractLsb' 2 3 = 0b110)) :=
  calc _ = (v.getLsbD 2 && (v.getLsbD 5 && (w.getLsbD 12 && (w &&& (0x001C : Half) == (0x0018 : Half))))) := rfl
    _ = _ := by rw [mask_test_eq]; ac_rfl

/-- Settles O22: the poll reads registers 1 and 31 and leaves the PHY as it was, and its two tests read
their bits. -/
theorem referencePollOnSimulatedPhy : Obligations.ReferencePollOnSimulatedPhy := by
  intro s hs hd hm
  have hrange : ∀ reg ∈ s.cfg.driver.poll.reads, reg ≤ 31 := by rw [hd]; decide
  have hp := pollReads_reference hm
  rw [← hd] at hp
  rw [execPhyPoll_eq hs, pollLink_inRange hrange hp, hd, reference_poll_tests]
  rfl

end Sys2Proof.Machine
end

section
/-! SMI transactions (R104, R105, R109) and the PHY driver's routines, one SMI operation a step (R112, R113),
with the reference driver's `init`, and its `reset` on a PHY whose reset bit does not clear (R115, R152). -/

namespace Sys2Proof.Machine

variable {s : State} {reg : Nat}

/-! ### The words of the SMI operations (R64, R65) -/

theorem decode_smiRead (hr : reg ≤ 31) : decode (0x30000000 ||| BitVec.ofNat 32 reg <<< 16) = .ok (.smiRead reg) := by
  refine decode_of_encode_eq ?_ (decide_eq_true hr)
  exact (layWord_eq_or 0x30 reg 0 hr).trans BitVec.or_zero

theorem decode_smiWrite (hr : reg ≤ 31) (val : Half) :
    decode (0x31000000 ||| BitVec.ofNat 32 reg <<< 16 ||| val.setWidth 32) = .ok (.smiWrite reg val) :=
  decode_of_encode_eq (layWord_eq_or 0x31 reg val hr) (decide_eq_true hr)

/-! ### One SMI transaction (R104, R105) -/

theorem execSmiRead_eq (hs : s.SwReady) (reg : Nat) :
    exec (.smiRead reg) s = smiReadStep s reg fun v t => .next (t.setRet (.smi v)) :=
  swStep_of_ready hs _

theorem execSmiWrite_eq (hs : s.SwReady) (reg : Nat) (val : Half) :
    exec (.smiWrite reg val) s = smiWriteStep s reg val fun t => .next (t.setRet .unit) :=
  swStep_of_ready hs _

/-- Settles O25: a register in range is one read of the PHY, and any other number raises. -/
theorem smiReadReturnsPhyValue : Obligations.SmiReadReturnsPhyValue := by
  refine ⟨fun reg hr => decode_smiRead hr, fun s reg hs => ⟨fun hr => ?_, fun v p hr hp => ?_⟩⟩
  · exact (execSmiRead_eq hs reg).trans (smiReadStep_outOfRange hr)
  · exact (execSmiRead_eq hs reg).trans (smiReadStep_inRange hr hp)

/-- Settles O26: a register in range is one write of the PHY, and any other number raises. -/
theorem smiWriteReachesPhy : Obligations.SmiWriteReachesPhy := by
  refine ⟨fun reg hr val => decode_smiWrite hr val, fun s reg val hs => ⟨fun hr => ?_, fun hr => ?_⟩⟩
  · exact (execSmiWrite_eq hs reg val).trans (smiWriteStep_outOfRange hr)
  · exact (execSmiWrite_eq hs reg val).trans (smiWriteStep_inRange hr)

/-! ### The simulated PHY (R109) -/

/-- Two registers in range have different 5-bit addresses. -/
theorem ofNat_reg_inj {other : Nat} (hr : reg ≤ 31) (ho : other ≤ 31) (h : BitVec.ofNat 5 reg = BitVec.ofNat 5 other) :
    reg = other := by
  have hmod := congrArg BitVec.toNat h
  rw [BitVec.toNat_ofNat, BitVec.toNat_ofNat] at hmod
  omega

/-- The simulated PHY's register of that number. -/
def phyReg (p : PhyState) (r : BitVec 5) : Half := p.regs[r.toNat]'r.isLt

theorem phyRead_simulated (p : PhyState) (a r : BitVec 5) : phyRead .simulated p a r = (phyReg p r, p) := rfl

/-- A written register holds the value, and every other register what it held (R109). -/
theorem phyReg_phyWrite_simulated (p : PhyState) (a r q : BitVec 5) (v : Half) :
    phyReg (phyWrite .simulated p a r v) q = if r = q then v else phyReg p q := by
  simp only [phyWrite, phyReg, Vector.getElem_set, BitVec.toNat_inj]

/-- SMI_READ on the simulated PHY (R104, R109). -/
theorem execSmiRead_simulated (hs : s.SwReady) (hm : s.cfg.phyModel = .simulated) (hr : reg ≤ 31) :
    exec (.smiRead reg) s =
      .next ((s.emit [.smiRd reg (phyReg s.phy (BitVec.ofNat 5 reg))]).setRet (.smi (phyReg s.phy (BitVec.ofNat 5 reg)))) :=
  (smiReadReturnsPhyValue.2 s reg hs).2 _ s.phy hr (by rw [hm, phyRead_simulated])

/-- Settles O27: the write replaces one register, and each read returns the register it names. -/
theorem simulatedPhyLoopsBack : Obligations.SimulatedPhyLoopsBack := by
  intro s reg other val hs hm hr ho hne
  have hw := (smiWriteReachesPhy.2 s reg val hs).2 hr
  have hne' : BitVec.ofNat 5 reg ≠ BitVec.ofNat 5 other := fun h => hne (ofNat_reg_inj ho hr h.symm)
  refine ⟨_, _, _, _, hw, execSmiRead_simulated hs hm hr, ?_, execSmiRead_simulated hs hm ho,
    execSmiRead_simulated hs hm ho, ?_⟩
  · simp [hm, phyReg_phyWrite_simulated]
  · simp [hm, phyReg_phyWrite_simulated, hne']

/-! ### A routine's node (R112) -/

variable {id : RoutineId} {r : Running} {nd : RNode}

/-- One node that writes: the write, then the routine goes on or returns (R105, R112). -/
theorem advance_write {e x : RExpr} (hnd : (routineOf s.cfg r.id).nodes[r.node]? = some nd) (ha : nd.act = .write e x)
    (hr : (evalExpr r.held e).toNat ≤ 31) {next : Option Running}
    (hn : next = afterNode r.id (routineOf s.cfg r.id).nodes.length nd r.held) :
    advance s r = .next { s with
      phy := phyWrite s.cfg.phyModel s.phy s.cfg.phyAddr (BitVec.ofNat 5 (evalExpr r.held e).toNat) (evalExpr r.held x)
      hist := s.hist ++ [.smiWr (evalExpr r.held e).toNat (evalExpr r.held x)]
      routine := next
      ret := if next = none then .unit else s.ret } := by
  subst hn
  simp only [advance, hnd, ha]
  exact (smiWriteStep_inRange hr).trans finishNode_eq

/-- One node that reads: the read, its value kept, then the routine goes on or returns (R104, R112). -/
theorem advance_read {e : RExpr} {into : Nat} {v : Half} {p : PhyState}
    (hnd : (routineOf s.cfg r.id).nodes[r.node]? = some nd) (ha : nd.act = .read e into)
    (hr : (evalExpr r.held e).toNat ≤ 31)
    (hp : phyRead s.cfg.phyModel s.phy s.cfg.phyAddr (BitVec.ofNat 5 (evalExpr r.held e).toNat) = (v, p))
    {next : Option Running} (hn : next = afterNode r.id (routineOf s.cfg r.id).nodes.length nd (r.held.set into v)) :
    advance s r = .next { s with
      phy := p
      hist := s.hist ++ [.smiRd (evalExpr r.held e).toNat v]
      routine := next
      ret := if next = none then .unit else s.ret } := by
  subst hn
  simp only [advance, hnd, ha]
  exact (smiReadStep_inRange hr hp).trans finishNode_eq

/-- An empty routine returns at once, without an SMI operation (log entry 21). -/
theorem advance_of_nodes_nil (hnil : (routineOf s.cfg r.id).nodes = []) : advance s r = .next (routineReturns s) := by
  simp [advance, hnil]

/-- PHY_RESET and PHY_INIT start at node 0 with every held value 0 (R112, R113). -/
theorem exec_startRoutine {i : Instr} (hs : s.SwReady)
    (hi : id = .reset ∧ i = .phyReset ∨ id = .init ∧ i = .phyInit) :
    exec i s = advance s ⟨id, 0, List.replicate (routineOf s.cfg id).vars 0⟩ := by
  obtain ⟨rfl, rfl⟩ | ⟨rfl, rfl⟩ := hi
  all_goals exact swStep_of_ready hs _

/-- Settles O28: the call performs node 0. -/
theorem phyRoutineStartsWithFirstSmi : Obligations.PhyRoutineStartsWithFirstSmi := by
  intro s id i hs hi
  rw [exec_startRoutine hs hi]
  refine ⟨fun hnil => ?_, ?_⟩
  · rw [advance_of_nodes_nil hnil, routineReturns, ← hs.2]
    rfl
  · rintro nd rest _ hnodes rfl
    have hnd : (routineOf s.cfg id).nodes[0]? = some nd := by rw [hnodes]; rfl
    have hlen : rest.length + 1 = (routineOf s.cfg id).nodes.length := by rw [hnodes]; rfl
    rw [hlen]
    exact ⟨fun e x ha hr next => advance_write (r := ⟨id, 0, _⟩) hnd ha hr,
      fun e into v p ha hr hp next => advance_read (r := ⟨id, 0, _⟩) hnd ha hr hp⟩

/-- Settles O29: a turn performs the node at which the routine stands. -/
theorem phyRoutineTurnIsOneSmi : Obligations.PhyRoutineTurnIsOneSmi := by
  intro s r nd hf hrun hnd
  rw [routineTurn_of_running hf hrun]
  exact ⟨fun e x ha hr next => advance_write hnd ha hr, fun e into v p ha hr hp next => advance_read hnd ha hr hp⟩

/-! ### The reference driver (R115) -/

/-- Settles O32: `init` is one write after which it returns. -/
theorem referenceInitWritesControl : Obligations.ReferenceInitWritesControl := by
  intro s hs hd
  have hnodes : (routineOf s.cfg .init).nodes = Driver.reference.init.nodes := by rw [routineOf, hd]
  obtain ⟨hwrite, -⟩ := (phyRoutineStartsWithFirstSmi s .init .phyInit hs (.inr ⟨rfl, rfl⟩)).2 _ [] _ hnodes rfl
  refine (hwrite _ _ rfl (Nat.zero_le 31) s.routine hs.2).trans ?_
  rw [if_pos hs.2]
  rfl

/-- The reference driver's `reset` waits, on the simulated PHY, for bit 15 of a register 0 that holds 0x8000. -/
structure State.Hangs (s : State) : Prop where
  fault : s.fault = none
  driver : s.cfg.driver = Driver.reference
  phyModel : s.cfg.phyModel = .simulated
  reg : phyReg s.phy 0 = 0x8000
  routine : ∃ v, s.routine = some ⟨.reset, 1, [v]⟩

/-- The call of the reference driver's `reset` writes 0x8000 to register 0 and hangs. -/
theorem exists_phyReset_hangs (hs : s.SwReady) (hd : s.cfg.driver = Driver.reference)
    (hm : s.cfg.phyModel = .simulated) :
    ∃ t, exec .phyReset s = .next t ∧ t.hist = s.hist ++ [.smiWr 0 0x8000] ∧ t.Hangs := by
  have hnodes : (routineOf s.cfg .reset).nodes = Driver.reference.reset.nodes := by rw [routineOf, hd]
  have hvars : [0] = List.replicate (routineOf s.cfg .reset).vars (0 : Half) := by rw [routineOf, hd]; rfl
  obtain ⟨hwrite, -⟩ :=
    (phyRoutineStartsWithFirstSmi s .reset .phyReset hs (.inl ⟨rfl, rfl⟩)).2 _ _ _ hnodes hvars
  refine ⟨_, hwrite _ _ rfl (by decide) (some ⟨.reset, 1, [0]⟩) rfl, rfl, hs.1, hd, hm, ?_, _, rfl⟩
  rw [hm]
  exact (phyReg_phyWrite_simulated s.phy s.cfg.phyAddr 0 0 0x8000).trans (if_pos rfl)

/-- With 0x8000 read from register 0, the reference driver's `reset` goes back to read it again (R115). -/
theorem reset_waits :
    afterNode .reset 2 ⟨.read (.lit 0) 0, [], .ite (.bit (.var 0) 15) (.goto 1) .ret⟩ [0x8000] =
      some ⟨.reset, 1, [0x8000]⟩ := by decide

/-- A turn reads 0x8000 from register 0 and goes back to the same node. -/
theorem State.Hangs.exists_turn (h : s.Hangs) :
    ∃ t, routineTurn s = .next t ∧ t.hist = s.hist ++ [.smiRd 0 0x8000] ∧ t.Hangs := by
  obtain ⟨hf, hd, hm, hreg, v, hrun⟩ := h
  have hroutine : routineOf s.cfg .reset = Driver.reference.reset := by rw [routineOf, hd]
  have hnd : (routineOf s.cfg .reset).nodes[1]? = Driver.reference.reset.nodes[1]? := by rw [hroutine]
  obtain ⟨-, hread⟩ := phyRoutineTurnIsOneSmi s _ _ hf hrun hnd
  have hp : phyRead s.cfg.phyModel s.phy s.cfg.phyAddr 0 = (0x8000, s.phy) := by rw [hm, phyRead_simulated, hreg]
  refine ⟨_, hread _ _ _ _ rfl (Nat.zero_le 31) hp (some ⟨.reset, 1, [0x8000]⟩) ?_, rfl, hf, hd, hm, hreg, _, rfl⟩
  rw [hroutine]
  exact reset_waits.symm

/-- A hanging machine hangs after any number of turns. -/
theorem State.Hangs.exists_turns (h : s.Hangs) (n : Nat) :
    ∃ t, routineTurns n s = .next t ∧ t.hist = s.hist ++ List.replicate n (.smiRd 0 0x8000) ∧ t.Hangs := by
  induction n with
  | zero => exact ⟨s, rfl, by simp, h⟩
  | succ n ih =>
    obtain ⟨t, ht, hhist, hhang⟩ := ih
    obtain ⟨u, hu, huhist, huhang⟩ := hhang.exists_turn
    refine ⟨u, ?_, ?_, huhang⟩
    · simp only [routineTurns, ht, hu]
    · rw [huhist, hhist, List.replicate_succ', List.append_assoc]

/-- Settles O31: the call hangs, and so does every turn after it. -/
theorem referenceResetHangsOnPlainPhy : Obligations.ReferenceResetHangsOnPlainPhy := by
  intro s hs hd hm
  obtain ⟨t, ht, hhist, hhang⟩ := exists_phyReset_hangs hs hd hm
  refine ⟨t, ht, hhist, fun n => ?_⟩
  obtain ⟨u, hu, huhist, -, -, -, -, v, hrun⟩ := hhang.exists_turns n
  exact ⟨u, hu, by rw [hrun]; nofun, huhist⟩

end Sys2Proof.Machine
end

section
/-! The DMA engine and the completion event: when each step is enabled and what it does (R116 to R118, R123),
what DMA_RX leaves alone, and a landed frame received (R74, R89, R94). -/

namespace Sys2Proof.Machine

variable {s u : State} {d dr dt : Desc} {task : TaskId} {g : RxFun} {a : Nat}

/-! ### Where a step is not enabled (R116 to R118, R123) -/

theorem Owner.ne_hw_of_eq_sw {o : Owner} (h : o = .sw) : o ≠ .hw := by
  rw [h]
  decide

theorem execDmaTx_of_sw (hf : s.fault = none) (hd : s.tx.desc[s.tx.hw]? = some d) (ho : d.own = .sw) :
    exec .dmaTx s = .fault .txNotEnabled :=
  (agentStep_ready hf).trans ((withDesc_some hd).trans (if_neg (Owner.ne_hw_of_eq_sw ho)))

theorem execDmaRx_of_sw (hf : s.fault = none) (hd : s.rx.desc[s.rx.hw]? = some d) (ho : d.own = .sw) :
    exec .dmaRx s = .fault .rxNotEnabled :=
  (agentStep_ready hf).trans ((withDesc_some hd).trans (if_neg (Owner.ne_hw_of_eq_sw ho)))

/-- The wire offers no frame of another length (R118). -/
theorem execDmaRx_of_not_offered (hf : s.fault = none) (hd : s.rx.desc[s.rx.hw]? = some d) (ho : d.own = .hw)
    (hlen : ¬(1 ≤ s.oob.frame.length ∧ s.oob.frame.length ≤ s.cfg.rxBufSize)) :
    exec .dmaRx s = .fault .frameNotOffered := by
  have hoffered : ¬frameOffered s.cfg s.oob.frame = true := mt of_decide_eq_true hlen
  exact (agentStep_ready hf).trans ((withDesc_some hd).trans ((if_pos ho).trans (if_neg hoffered)))

theorem execIrqDeliver_of_not_pending (hf : s.fault = none) (hi : s.irqPending = false) :
    exec .irqDeliver s = .fault .irqNotEnabled :=
  (agentStep_ready hf).trans (if_neg (by simp [hi]))

/-! ### Every write of the three steps -/

/-- Settles O34: the owner of the slot at `tx_hw` decides, and hardware's slot is sent and handed back. -/
theorem dmaTxSendsFrame : Obligations.DmaTxSendsFrame := by
  refine ⟨by decide, fun s d hf hd => ⟨execDmaTx_of_sw hf hd, fun a ho hle ha => ?_⟩⟩
  exact execDmaTx_of_hw hf hd ho (bufRange_eq_some.2 ⟨hle, ha⟩)

/-- Settles O35: the owner of the slot at `rx_hw` decides, then the length of the frame. -/
theorem dmaRxLandsFrame : Obligations.DmaRxLandsFrame := by
  refine ⟨by decide, fun s d hf hd => ⟨execDmaRx_of_sw hf hd, execDmaRx_of_not_offered hf hd,
    fun a ho hpos hle ha => ?_⟩⟩
  exact execDmaRx_of_hw hf hd ho hpos hle (bufRange_eq_some.2 ⟨hle, ha⟩)

/-- Settles O36: the pending bit decides, then whether a task is registered. -/
theorem irqDeliverWakesRegisteredTask : Obligations.IrqDeliverWakesRegisteredTask :=
  ⟨by decide, fun _ hf => ⟨execIrqDeliver_of_not_pending hf, execIrqDeliver_of_no_waker hf,
    fun _ => execIrqDeliver_of_waker hf⟩⟩

/-! ### What DMA_RX leaves alone -/

/-- Settles O41: DMA_RX writes the frame at the start of one buffer, and of the ring one descriptor, which
stays bound to that buffer, and the hardware cursor. -/
theorem frameOfDmaRx : Obligations.FrameOfDmaRx := by
  intro s t h
  obtain ⟨-, d, a, hd, -, -, -, ha, rfl⟩ := execDmaRx_next h
  refine ⟨fun a' ha' x hx => ?_, rfl, rfl, rfl, fun k hk => ?_, map_getElem?_set hd rfl⟩
  · obtain rfl : a = a' := Option.some.inj (ha.symm.trans ha')
    exact Memory.read_writeBytes_outside s.mem s.oob.frame hx
  · exact List.getElem?_set_ne (Ne.symm hk)

/-! ### Land and receive (R74, R89, R94, R117) -/

/-- `s` with a token issued for each ring's cursor slot, and both returned (R94). -/
def State.issueBoth (s : State) : State :=
  { s with
    rx := s.rx.issue s.tokGen, tx := s.tx.issue (s.tokGen + 1), tokGen := s.tokGen + 2
    ret := .tokens (some (⟨.rx, s.rx.next, s.tokGen⟩, ⟨.tx, s.tx.next, s.tokGen + 1⟩)) }

/-- The state in which `receive` consumes the RX token it got: the token and `G` are the operands (R74). -/
def State.issueBothTo (s : State) (g : RxFun) : State :=
  s.issueBoth.setOob { s.issueBoth.oob with tok := ⟨.rx, s.rx.next, s.tokGen⟩, rxFun := g }

/-- The poll finds a landed frame and a free TX slot, and both rings without a live token (R94). -/
structure ReceiveReady (s : State) (dr dt : Desc) : Prop where
  ready : s.SwReady
  initialised : s.initialised = true
  rxDesc : s.rx.desc[s.rx.next]? = some dr
  rxOwn : dr.own = .sw
  rxLive : s.rx.live = none
  txDesc : s.tx.desc[s.tx.next]? = some dt
  txOwn : dt.own = .sw
  txLive : s.tx.live = none

theorem execAdpReceive_of_ready (h : ReceiveReady s dr dt) : exec (.adpReceive task) s = .next s.issueBoth :=
  (execAdpReceive_of_desc h.ready h.initialised h.rxDesc h.txDesc).trans
    (if_pos ⟨h.rxLive, h.rxOwn, h.txLive, h.txOwn⟩)

theorem execRxtConsume_of_ready (h : RxReady s d) (ha : bufRange s.cfg .rx s.oob.tok.slot d.len = some a) :
    exec .rxtConsume s =
      .next (((s.emit [.delivered s.oob.tok.slot (s.mem.readBytes a d.len)]).setRx
        (s.rx.retire s.cfg.nRx s.oob.tok.slot d)).setRet
          (.caller (applyRxFun s.oob.rxFun (s.mem.readBytes a d.len)))) := by
  rw [execRxtConsume_eq ⟨h.fault, h.routine⟩, withRxToken_of_live _ h.initialised ⟨h.ring, h.live⟩ h.desc,
    if_pos h.own, withBuf_some ha]

theorem receivePseudo_of_tokens {r q : Token} (hu : exec (.adpReceive task) s = .next u)
    (hr : u.ret = .tokens (some (r, q))) (hf : u.fault = none) :
    receivePseudo task g s = exec .rxtConsume (u.setOob { u.oob with tok := r, rxFun := g }) := by
  simp [receivePseudo, hu, hr, hf]

/-- Where the poll is ready, `receive(G)` delivers the bytes in the buffer of the slot at the RX cursor and
returns `G`'s result. -/
theorem exists_receivePseudo (h : ReceiveReady s dr dt) (ha : bufRange s.cfg .rx s.rx.next dr.len = some a) :
    ∃ u, receivePseudo task g s = .next u ∧
      u.hist = s.hist ++ [.delivered s.rx.next (s.mem.readBytes a dr.len)] ∧
      u.ret = .caller (applyRxFun g (s.mem.readBytes a dr.len)) := by
  have htokens := receivePseudo_of_tokens (g := g) (execAdpReceive_of_ready (task := task) h) rfl h.ready.1
  have htok : RxReady (s.issueBothTo g) dr := ⟨h.ready.1, h.ready.2, h.initialised, h.rxDesc, rfl, rfl, h.rxOwn⟩
  exact ⟨_, htokens.trans (execRxtConsume_of_ready htok ha), rfl, rfl⟩

/-- `d` with a frame landed in its buffer: its length and the drawn status recorded, the slot handed over (R117). -/
def State.landedDesc (s : State) (d : Desc) : Desc :=
  { d with len := s.oob.frame.length, own := .sw, status := drawnStatus s }

/-- `s` with a frame landed at `a`, the buffer of the slot at `rx_hw`, whose descriptor is `d` (R117). -/
def State.landFrame (s : State) (d : Desc) (a : Nat) : State :=
  { s with
    mem := s.mem.writeBytes a s.oob.frame
    hist := s.hist ++ [.landed s.rx.hw s.oob.frame]
    rx := s.rx.handBack s.cfg.nRx (s.landedDesc d)
    irqPending := true }

/-- Settles O58: DMA_RX writes the frame to the slot at both cursors and hands it over, and the receive
reads the frame back from there. -/
theorem landedBytesAreDelivered : Obligations.LandedBytesAreDelivered := by
  intro s task g hinv hready hinit hrlive hmeet hrown htlive htown hpos hle
  obtain ⟨dr, hdr, hro⟩ := Option.map_eq_some_iff.1 hrown
  obtain ⟨dt, hdt, hto⟩ := Option.map_eq_some_iff.1 htown
  obtain ⟨a, ha⟩ := exists_bufRange (c := s.cfg) (ring := .rx) hinv.rx.shaped.next_lt hle
  have hland : exec .dmaRx s = .next (s.landFrame dr a) :=
    execDmaRx_of_hw hready.1 (hmeet ▸ hdr) hro hpos hle (hmeet ▸ ha)
  have hslot : (s.rx.desc.set s.rx.hw (s.landedDesc dr))[s.rx.next]? = some (s.landedDesc dr) := by
    rw [hmeet, List.getElem?_set_self (List.getElem?_eq_some_iff.1 hdr).1]
  have hrecv : ReceiveReady (s.landFrame dr a) (s.landedDesc dr) dt :=
    ⟨hready, hinit, hslot, rfl, hrlive, hdt, hto, htlive⟩
  obtain ⟨u, hu, hhist, hret⟩ := exists_receivePseudo (task := task) (g := g) hrecv ha
  have hread : (s.landFrame dr a).mem.readBytes a (s.landedDesc dr).len = s.oob.frame :=
    Memory.readBytes_writeBytes hinv.mem a s.oob.frame
  rw [hread] at hhist hret
  refine ⟨_, u, hland, hu, ?_, hret⟩
  simp [hhist, State.landFrame, Ring.handBack, hmeet]

end Sys2Proof.Machine
end

section
/-! Faults: what the step that records one writes, what follows it, and a routine's register out of range
(R112, R125 to R128); completions that coalesce (R132). -/

namespace Sys2Proof.Machine

variable {s t : State} {i : Instr}

/-! ### A recorded fault (R126, R127) -/

/-- Settles O8: every operation, a routine's turn and a step begin with the test of `fault`. -/
theorem faultedMachineIsQuiescent : Obligations.FaultedMachineIsQuiescent := by
  intro s hne
  have hf : s.fault.isSome := Option.isSome_iff_ne_none.2 hne
  exact ⟨exec_of_fault hf, routineTurn_of_fault hf, step_of_fault hf⟩

/-- An operation whose next state has a fault has only recorded it (R126). -/
theorem exec_eq_setFault (h : exec i s = .next t) (hne : t.fault ≠ none) : ∃ v, t = s.setFault (some v) := by
  rcases exec_fault_cases h with hf | ⟨-, v, ht, -⟩ | ⟨-, v, ht, -⟩ | ⟨-, v, ht, -⟩
  · exact absurd hf hne
  all_goals exact ⟨v, ht⟩

/-- A routine's turn whose next state has a fault has only recorded it (R126). -/
theorem routineTurn_eq_setFault (h : routineTurn s = .next t) (hne : t.fault ≠ none) :
    ∃ v, t = s.setFault (some v) := by
  obtain ⟨hf, r, -, h⟩ := routineTurn_next h
  rcases advance_cases hf h with ⟨-, v, ht, -⟩ | ⟨p, es, ro, re, -, rfl⟩
  · exact ⟨v, ht⟩
  · exact absurd hf hne

/-- Settles O9: a next state has no fault or is a raise's. -/
theorem raisedFaultIsTheOnlyWrite : Obligations.RaisedFaultIsTheOnlyWrite :=
  ⟨fun _ _ _ => exec_eq_setFault, fun _ _ => routineTurn_eq_setFault⟩

/-! ### A routine's register out of range (R112, R125) -/

/-- A node whose SMI operation names a register above 31 raises `SMI_REG_RANGE` (R104, R105). -/
theorem advance_outOfRange {r : Running} {nd : RNode} {reg : RExpr}
    (hnd : (routineOf s.cfg r.id).nodes[r.node]? = some nd)
    (ha : (∃ into, nd.act = .read reg into) ∨ ∃ val, nd.act = .write reg val)
    (hr : 31 < (evalExpr r.held reg).toNat) :
    advance s r = .next (s.setFault (some (.smiRegRange (evalExpr r.held reg).toNat))) := by
  obtain ⟨into, ha⟩ | ⟨val, ha⟩ := ha
  · simp only [advance, hnd, ha]
    exact smiReadStep_outOfRange hr
  · simp only [advance, hnd, ha]
    exact smiWriteStep_outOfRange hr

/-- Settles O30: the call performs node 0 and a further turn the node at which the routine stands. -/
theorem phyRoutineRegisterRange : Obligations.PhyRoutineRegisterRange := by
  refine ⟨?_, fun s r nd hf hrun hnd reg ha hr => ?_⟩
  · rintro s id i nd rest _ hs hi hnodes rfl reg ha hr
    have hnd : (routineOf s.cfg id).nodes[0]? = some nd := by rw [hnodes]; rfl
    exact (exec_startRoutine hs hi).trans (advance_outOfRange (r := ⟨id, 0, _⟩) hnd ha hr)
  · exact (routineTurn_of_running hf hrun).trans (advance_outOfRange hnd ha hr)

/-! ### Completions (R116, R117, R123, R132) -/

/-- A DMA step of either engine sets the pending bit and emits one event; the registered task stays. -/
theorem execDma_next (hi : i = .dmaTx ∨ i = .dmaRx) (h : exec i s = .next t) :
    t.fault = none ∧ t.irqPending = true ∧ t.waker = s.waker ∧ ∃ e, t.hist = s.hist ++ [e] ∧
      (i = .dmaTx → ∃ b, e = .sent b) ∧ (i = .dmaRx → e = .landed s.rx.hw s.oob.frame) := by
  obtain rfl | rfl := hi
  · obtain ⟨hf, d, a, -, -, -, rfl⟩ := execDmaTx_next h
    exact ⟨hf, rfl, rfl, _, rfl, fun _ => ⟨_, rfl⟩, nofun⟩
  · obtain ⟨hf, d, a, -, -, -, -, -, rfl⟩ := execDmaRx_next h
    exact ⟨hf, rfl, rfl, _, rfl, nofun, fun _ => rfl⟩

/-- Settles O37: the second step finds the pending bit already set, and the delivery clears it. -/
theorem completionsCoalesce : Obligations.CompletionsCoalesce := by
  intro s t u i j oob task hi hj ht hu hw
  obtain ⟨-, -, hwt, e, het, htx, hrx⟩ := execDma_next hi ht
  obtain ⟨hf, hp, hwu, f, hfu, hfx, hfr⟩ := execDma_next hj hu
  have hdeliver := execIrqDeliver_of_waker hf hp (hwu.trans (hwt.trans hw))
  refine ⟨_, e, f, hdeliver, ?_, htx, hrx, hfx, hfr, rfl, execIrqDeliver_of_not_pending hf rfl⟩
  simp [hfu, het]

end Sys2Proof.Machine
end

section
/-! Q_INIT from reset (R42, R75): the launch premise `BOOTED` (R145). -/

namespace Sys2Proof.Machine

/-- Every descriptor Q_INIT leaves has the one owner (R75). -/
theorem Ring.own_of_mem_armed {addrs : List Addr} {o : Owner} {d : Desc} (hd : d ∈ (Ring.armed addrs o).desc) :
    d.own = o := by
  obtain ⟨a, -, rfl⟩ := Ring.mem_desc_armed.1 hd
  rfl

/-- Construction leaves hardware no slot, so Q_INIT's check passes (R42, R75). -/
theorem Ring.not_owns_hw_reset (addrs : List Addr) (k : Nat) : ¬(Ring.reset addrs).Owns .hw k := fun h =>
  Owner.noConfusion (Ring.owner_of_owns_armed (o := .sw) h)

/-- A Q_INIT that passes both its checks leaves the machine booted, whatever it was before (R75, R145). -/
theorem execQInit_booted {s : State} (hs : s.SwReady) (hi : s.initialised = false) (hfree : s.tx.firstHw = none) :
    ∃ t, exec .qInit s = .next t ∧ t.Booted :=
  ⟨_, execQInit_of_free hs hi hfree,
    { initialised := rfl
      fault := hs.1
      txOwn := fun _ => Ring.own_of_mem_armed
      rxOwn := fun _ => Ring.own_of_mem_armed
      cursors := ⟨rfl, rfl, rfl, rfl⟩
      live := ⟨rfl, rfl⟩
      irq := rfl
      txBound := (Ring.shaped_armed .sw (Config.legal s.cfg).nTx_pos).bound
      rxBound := (Ring.shaped_armed .hw (Config.legal s.cfg).nRx_pos).bound }⟩

/-- Settles O56: at reset the machine is ready, not initialised, and hardware owns no TX slot. -/
theorem qInitFromResetBoots : Obligations.QInitFromResetBoots := fun c =>
  execQInit_booted ⟨State.resetOf_fault c, State.resetOf_routine c⟩ (State.resetOf_initialised c)
    (Ring.firstHw_eq_none (Ring.not_owns_hw_reset c.txAddr))

end Sys2Proof.Machine
end
